-- ==== Sys2Proof/Word.lean ====
section
/-!
DEFINITION. The bit-vector types of the core: a word of the command stream, a byte of the source, the value path,
and the code a failing source reports. Every value is unsigned (spec/00_scope.md R8).
-/

namespace Sys2Proof

/-- One word of the command stream: 32 bits (spec/30_encoding.md R60). -/
abbrev Word := BitVec 32

/-- One byte of the byte source (spec/00_scope.md R7: the byte width of the source is 8). -/
abbrev Byte := BitVec 8

/-- The value path: 64 bits (spec/00_scope.md R7, VALUE_W). -/
abbrev Value := BitVec 64

end Sys2Proof
end

