-- ==== Sys2Proof/Config.lean ====
section
/-!
DEFINITION. The parameters of spec/00_scope.md R7. The spec fixes a default width for each of the three it leaves open
(spec/92_eei_decisions.md D3; spec/93_implementation_defined.md I17); this model takes those defaults
(log entry 1). The one parameter that is no width, the host's contract on exhaustion, has no value here (log entry 2).
-/

namespace Sys2Proof

/-- COUNT_W = 24 (R7): the XBYTES count, the byte counter BC, and the COUNT field of a response. -/
abbrev Count := BitVec 24

/-- NFIELDS_W = 16 (R7): the POPULATE field count and the sequencer's registers FI, NF and SC. -/
abbrev FieldIndex := BitVec 16

/-- SRCERR_W = 8 (R7): the source's error code, passed through unchanged and never inspected. -/
abbrev SrcErr := BitVec 8

/-- A request size or a field width: a 7-bit immediate, 0 to 127, zero-extended and not scaled (R7, R65, R69). -/
abbrev Size := BitVec 7

/-- `EXHAUSTED_IS_ERROR`: whether the HOST's contract treats EXHAUSTED as an error (R150; D26; I3). The spec leaves it
open and no rule of the core depends on it, so it is a free constant: nothing in this package can know its value. -/
opaque Config.exhaustedIsError : Bool

end Sys2Proof
end

