-- ==== Sys2Proof/Syntax.lean ====
section
/-!
DEFINITION. The instructions: one constructor for each row of spec/opcode_table.json (spec/30_encoding.md R80).
The format-C rows are the commands; the format-D rows are the field descriptors, which are the instructions of the
sequencer's program (spec/10_state.md R29).
-/

namespace Sys2Proof

/-- The four extraction widths of R7, which are also the four supported kinds U8, U16, U32 and U64 (R64, R70). -/
inductive Width where
  /-- 8 bits; kind U8. -/
  | w8
  /-- 16 bits; kind U16. -/
  | w16
  /-- 32 bits; kind U32. -/
  | w32
  /-- 64 bits; kind U64. -/
  | w64
deriving DecidableEq, Repr

/-- The instruction set GBS-CMD version 1 (R1, R80). -/
inductive Instr where
  /-- `xbits.8 size` (R96). -/
  | xbits8 (size : Size)
  /-- `xbits.16 size` (R97). -/
  | xbits16 (size : Size)
  /-- `xbits.32 size` (R98). -/
  | xbits32 (size : Size)
  /-- `xbits.64 size` (R99). -/
  | xbits64 (size : Size)
  /-- `xbytes count` (R100). -/
  | xbytes (count : Count)
  /-- `populate nfields`, the header word; its descriptors follow it in the command stream (R67, R120). -/
  | populate (nfields : FieldIndex)
  /-- `clear` (R101). -/
  | clear
  /-- `field.u8 width[, skip]` (R122). -/
  | fieldU8 (skip : Bool) (width : Size)
  /-- `field.u16 width[, skip]` (R123). -/
  | fieldU16 (skip : Bool) (width : Size)
  /-- `field.u32 width[, skip]` (R124). -/
  | fieldU32 (skip : Bool) (width : Size)
  /-- `field.u64 width[, skip]` (R125). -/
  | fieldU64 (skip : Bool) (width : Size)
  /-- `field.k4` to `field.k7`: a descriptor whose KIND field holds the unsupported code `kind` (R126). -/
  | fieldKbad (kind : BitVec 3) (skip : Bool) (width : Size)
deriving DecidableEq, Repr

/-- The XBITS form of width `w` (R64: the width code selects one of the four rows R96 to R99). -/
def Instr.xbits : Width → Size → Instr
  | .w8, n => .xbits8 n
  | .w16, n => .xbits16 n
  | .w32, n => .xbits32 n
  | .w64, n => .xbits64 n

/-- The FIELD form of the supported kind `k` (R70: the kind selects one of the four rows R122 to R125). -/
def Instr.field : Width → Bool → Size → Instr
  | .w8, skip, w => .fieldU8 skip w
  | .w16, skip, w => .fieldU16 skip w
  | .w32, skip, w => .fieldU32 skip w
  | .w64, skip, w => .fieldU64 skip w

end Sys2Proof
end

