-- ==== Sys2Proof/WellFormed.lean ====
section
/-!
DEFINITION. Well-formed instructions: the terms of `Instr` that some word of the command stream encodes. The operand
fields carry their own widths in their types, so the one thing left to check is that FIELD.KBAD names a kind code the
core does not support (spec/30_encoding.md R70: codes 4 to 7).
-/

namespace Sys2Proof

/-- The check on one instruction. -/
def Instr.wellFormed : Instr → Bool
  | .fieldKbad kind _ _ => 4 ≤ kind.toNat
  | .xbits8 _ => true
  | .xbits16 _ => true
  | .xbits32 _ => true
  | .xbits64 _ => true
  | .xbytes _ => true
  | .populate _ => true
  | .clear => true
  | .fieldU8 _ _ => true
  | .fieldU16 _ _ => true
  | .fieldU32 _ _ => true
  | .fieldU64 _ _ => true

/-- An instruction that some word encodes. -/
abbrev Instr.WellFormed (i : Instr) : Prop := i.wellFormed = true

end Sys2Proof
end

