-- ==== Sys2Proof/Decode.lean ====
section
/-!
DEFINITION. The decoder and the encoder, both written from the layouts of spec/30_encoding.md (R61 to R70, R79, R80).

The command stream is a stream of 32-bit words (R60), so a word has no byte order. A word matches at most one row of
the two formats together, because the operation field [31:28] of a command is never the descriptor tag 0xD; `decode`
therefore reads one word on its own, and which format the word's POSITION allows is checked when the instruction runs
(`State.position`, Machine/Ops.lean).
-/

namespace Sys2Proof

/-- Why a word is no instruction. -/
inductive DecodeError where
  /-- Bits [31:28] hold 0x0, 0x5 to 0xC, 0xE or 0xF: reserved by this revision (R62, R73). -/
  | reservedOp
  /-- A bit that the word's layout marks RES0 is 1 (R61, R71, R72). -/
  | res0Set
deriving DecidableEq, Repr

/-- The operation field OP of a command and the field TAG of a descriptor: bits [31:28] (R61, R69). -/
def opField (w : Word) : BitVec 4 := w.extractLsb' 28 4

/-- The width code WC: bits [25:24] (R63). -/
def wcField (w : Word) : BitVec 2 := w.extractLsb' 24 2

/-- The request size SIZE of XBITS, or the declared WIDTH of a descriptor: bits [6:0] (R63, R69). -/
def sizeField (w : Word) : Size := w.extractLsb' 0 7

/-- COUNT of XBYTES: bits [23:0] (R66). -/
def countField (w : Word) : Count := w.extractLsb' 0 24

/-- NFIELDS of POPULATE: bits [15:0] (R67). -/
def nfieldsField (w : Word) : FieldIndex := w.extractLsb' 0 16

/-- SKIP of a descriptor: bit [11] (R69). -/
def skipField (w : Word) : Bool := w.getLsbD 11

/-- KIND of a descriptor: bits [10:8] (R69). -/
def kindField (w : Word) : BitVec 3 := w.extractLsb' 8 3

/-- OP = 0x1: RES0 in [27:26] and [23:7] (R63); WC picks the width (R64). Every SIZE decodes (R65). -/
def decodeXbits (w : Word) : Except DecodeError Instr :=
  if w.extractLsb' 26 2 = 0#2 ∧ w.extractLsb' 7 17 = 0#17 then
    if wcField w = 0#2 then .ok (.xbits8 (sizeField w))
    else if wcField w = 1#2 then .ok (.xbits16 (sizeField w))
    else if wcField w = 2#2 then .ok (.xbits32 (sizeField w))
    else .ok (.xbits64 (sizeField w))
  else .error .res0Set

/-- OP = 0x2: RES0 in [27:24] (R66). -/
def decodeXbytes (w : Word) : Except DecodeError Instr :=
  if w.extractLsb' 24 4 = 0#4 then .ok (.xbytes (countField w)) else .error .res0Set

/-- OP = 0x3: RES0 in [27:16] (R67). -/
def decodePopulate (w : Word) : Except DecodeError Instr :=
  if w.extractLsb' 16 12 = 0#12 then .ok (.populate (nfieldsField w)) else .error .res0Set

/-- OP = 0x4: RES0 in [27:0] (R68). -/
def decodeClear (w : Word) : Except DecodeError Instr :=
  if w.extractLsb' 0 28 = 0#28 then .ok .clear else .error .res0Set

/-- TAG = 0xD: RES0 in [27:12] and [7] (R69); KIND 0 to 3 are the supported kinds, 4 to 7 the unsupported (R70). -/
def decodeField (w : Word) : Except DecodeError Instr :=
  if w.extractLsb' 12 16 = 0#16 ∧ w.getLsbD 7 = false then
    if kindField w = 0#3 then .ok (.fieldU8 (skipField w) (sizeField w))
    else if kindField w = 1#3 then .ok (.fieldU16 (skipField w) (sizeField w))
    else if kindField w = 2#3 then .ok (.fieldU32 (skipField w) (sizeField w))
    else if kindField w = 3#3 then .ok (.fieldU64 (skipField w) (sizeField w))
    else .ok (.fieldKbad (kindField w) (skipField w) (sizeField w))
  else .error .res0Set

/-- The decoder, total over 32-bit words (R79 for the commands, the first check of R121 for the descriptors). -/
def decode (w : Word) : Except DecodeError Instr :=
  if opField w = 0x1#4 then decodeXbits w
  else if opField w = 0x2#4 then decodeXbytes w
  else if opField w = 0x3#4 then decodePopulate w
  else if opField w = 0x4#4 then decodeClear w
  else if opField w = 0xD#4 then decodeField w
  else .error .reservedOp

/-- A descriptor word: TAG, RES0 [27:12], SKIP, KIND, RES0 [7], WIDTH (R69). -/
def encodeField (kind : BitVec 3) (skip : Bool) (width : Size) : Word :=
  0xD#4 ++ 0#16 ++ BitVec.ofBool skip ++ kind ++ 0#1 ++ width

/-- The word of an instruction, laid out field by field from bit 31 down (R63, R66 to R69). -/
def encode : Instr → Word
  | .xbits8 n => 0x1#4 ++ 0#2 ++ 0#2 ++ 0#17 ++ n
  | .xbits16 n => 0x1#4 ++ 0#2 ++ 1#2 ++ 0#17 ++ n
  | .xbits32 n => 0x1#4 ++ 0#2 ++ 2#2 ++ 0#17 ++ n
  | .xbits64 n => 0x1#4 ++ 0#2 ++ 3#2 ++ 0#17 ++ n
  | .xbytes n => 0x2#4 ++ 0#4 ++ n
  | .populate n => 0x3#4 ++ 0#12 ++ n
  | .clear => 0x4#4 ++ 0#28
  | .fieldU8 skip w => encodeField 0#3 skip w
  | .fieldU16 skip w => encodeField 1#3 skip w
  | .fieldU32 skip w => encodeField 2#3 skip w
  | .fieldU64 skip w => encodeField 3#3 skip w
  | .fieldKbad kind skip w => encodeField kind skip w

/-- The word made of the low `nbits` bits of `w`, every bit above them 0. -/
def wordOfBits (nbits w : Nat) : Word := BitVec.ofNat 32 (w % 2 ^ nbits)

/-- The instruction the decoder reads from the bits `w`, numbered as spec/opcode_table.json numbers them; none where
the decoder refuses. -/
def decodeTableWord (nbits w : Nat) : Option Instr := (decode (wordOfBits nbits w)).toOption

end Sys2Proof
end

