-- ==== Sys2Proof/Machine/State.lean ====
section
/-!
DEFINITION. The state of the machine, as plain data: the ten registers of spec/10_state.md R20, the place inside the
command in progress, and the four streams of spec/20_memory.md R40 with the reset input.

The spec says that the registers are all the state the core has (R20), and that the byte source, the host and the
command stream lie outside it. They stand in `State` all the same, each as a queue or a counter that `step` reads,
because a step is one function of the state (log entries 3 to 6). The core has no addressable memory (R40), so there
is no memory here.
-/

namespace Sys2Proof.Machine

/-- MODE (R26): which command is in progress. CLEAR and an illegal command finish in one step and need no mode. -/
inductive Mode where
  /-- No command in progress. -/
  | idle
  /-- An XBITS is in progress. -/
  | xbits
  /-- An XBYTES is in progress. -/
  | xbytes
  /-- A POPULATE is in progress. -/
  | pop
deriving DecidableEq, Repr

/-- The status codes of spec/60_exceptions.md R140; 0x6 to 0xF are never produced. -/
inductive Status where
  /-- 0x0 -/
  | ok
  /-- 0x1 -/
  | exhausted
  /-- 0x2 -/
  | sizeOverflow
  /-- 0x3 -/
  | unsupportedKind
  /-- 0x4 -/
  | sourceError
  /-- 0x5 -/
  | illegalCommand
deriving DecidableEq, Repr

/-- One answer of the byte source to one read (R41). -/
inductive Answer where
  /-- The next byte; the source has consumed it. -/
  | byte (b : Byte)
  /-- The source has no byte to give at this read. -/
  | eof
  /-- The source failed other than by end of input; the code is its own. -/
  | err (e : SrcErr)
deriving DecidableEq, Repr

/-- The response of one command: the fields of R75. -/
structure Response where
  /-- STATUS. -/
  status : Status
  /-- VALUE. -/
  value : Value := 0
  /-- NVALID. -/
  nvalid : Size := 0
  /-- COUNT. -/
  count : Count := 0
  /-- FIELD. -/
  field : FieldIndex := 0
  /-- SRCERR. -/
  srcerr : SrcErr := 0
deriving DecidableEq, Repr

/-- One output beat (R76). -/
inductive Beat where
  /-- TAG = 0: a byte of an XBYTES with its index. -/
  | byte (index : Count) (b : Byte)
  /-- TAG = 1: a record slot of a POPULATE with its index, its kind and its value. -/
  | slot (index : FieldIndex) (kind : Width) (value : Value)
deriving DecidableEq, Repr

/-- The events a run is observed by (R34). -/
inductive Event where
  /-- A command word was accepted. -/
  | command (w : Word)
  /-- A source read, with its answer. -/
  | read (a : Answer)
  /-- An output beat, taken by the host. -/
  | beat (b : Beat)
  /-- A response, taken by the host. -/
  | response (r : Response)
deriving DecidableEq, Repr

/-- How far the host is ready to take the items of one output stream (R170, R173). -/
inductive Ready where
  /-- The host takes every item: the ready line stays high. -/
  | always
  /-- The host takes `n` more items and then holds the ready line low. -/
  | upTo (n : Nat)
deriving DecidableEq, Repr

/-- What a wide extraction is for. -/
inductive Sink where
  /-- An XBITS: the result goes to the response. -/
  | xbits
  /-- A field of the POPULATE in progress: a data field of kind `kind`, or a skip field. -/
  | field (kind : Width) (skip : Bool)
deriving DecidableEq, Repr

/-- The place inside the command in progress at which the core waits for the outside world (R169, R170), or the
boundary between two words of the command stream. These are the local variables and the position of the pseudocode
of R94, R100 and R120 (log entry 4). -/
inductive Work where
  /-- Between words: at a command position when MODE = IDLE, at a descriptor position when MODE = POP. -/
  | boundary
  /-- Inside XW (R94): a read is outstanding for the first of `chunks`, the chunks of the plan still to be made of an
  extraction of `size` bits. -/
  | extract (sink : Sink) (size : Size) (chunks : List Nat)
  /-- Inside XBYTES `n` (R100): a read is outstanding for byte BC. -/
  | byteRead (n : Count)
  /-- Inside XBYTES `n`: the beat of byte BC, `b`, is not taken yet. -/
  | byteBeat (n : Count) (b : Byte)
  /-- Inside FIELDSTEP (R121): the beat of slot SC is not taken yet. `stop` is the valid-bit count of a field that
  ended EXHAUSTED, and none for a field that ended OK. -/
  | slotBeat (kind : Width) (value : Value) (stop : Option Size)
  /-- Inside a stopped POPULATE (R130): `left` descriptor words are still to be consumed before the response. -/
  | drain (left : Nat) (r : Response)
  /-- The command is done but for its response, which the host has not taken yet. -/
  | respond (r : Response)
deriving DecidableEq, Repr

/-- What the next word of the command stream is (R60). -/
inductive Position where
  /-- A command: a format-C word. -/
  | command
  /-- A descriptor of the POPULATE in progress: a format-D word. -/
  | descriptor
deriving DecidableEq, Repr

/-- Why the model stops. The core itself has no traps: every condition of the spec is a status in a response (R146),
so nothing the spec describes ends here. -/
inductive Fault where
  /-- Raised by `exec` when it is asked to run an instruction while the core is at no position that takes a word (a
  command is in progress, R164). Safe: `step` never asks it to. -/
  | notAccepting
  /-- Raised by `step` in a state that no run from reset reaches: no word is awaited, yet nothing is in progress.
  Safe: the control invariant of Safety.lean rules the state out. -/
  | brokenControl
deriving DecidableEq, Repr

/-- Why the model has no meaning for an instruction. -/
inductive Refusal where
  /-- Raised by an arm of `exec` whose instruction has no meaning yet; no arm does. Safe. -/
  | notModelled (mnemonic : String)
deriving DecidableEq, Repr

/-- The machine's state. -/
@[ext]
structure State where
  /-- L, the leftover-bit carry-forward register (R21). -/
  l : Byte
  /-- V, the valid-leftover count (R22). -/
  v : BitVec 3
  /-- S, the started flag (R23). -/
  started : Bool
  /-- MODE (R26). -/
  mode : Mode
  /-- FI, the index of the descriptor being executed (R26, R29). -/
  fi : FieldIndex
  /-- NF, the field count of the POPULATE in progress (R26). -/
  nf : FieldIndex
  /-- SC, the slots written so far in this POPULATE (R26). -/
  sc : FieldIndex
  /-- BC, the bytes emitted by the XBYTES in progress (R27). -/
  bc : Count
  /-- ACC, the composed value of a wide extraction (R27). -/
  acc : Value
  /-- NACC, the valid-bit count of ACC (R27). -/
  nacc : Size
  /-- The MODEL's own: the place inside the command in progress. -/
  work : Work
  /-- The reset input `rst` (R52, R160). -/
  rst : Bool
  /-- The command stream: the words the host has sent and the core has not consumed, first one first (R40, R60). -/
  cmd : List Word
  /-- The byte source: its answers to the coming reads, first one first; where the list ends, the source has not
  answered yet (R41, R169). -/
  src : List Answer
  /-- A read that was outstanding at a reset is still unanswered; its answer is to be discarded (R160). -/
  late : Bool
  /-- `out_ready`: how many beats the host is ready to take (R170). -/
  outReady : Ready
  /-- `rsp_ready`: how many responses the host is ready to take (R170). -/
  rspReady : Ready
  /-- The event trace so far, first event first (R34): the observation of the run, which the core never reads. -/
  trace : List Event
deriving DecidableEq, Repr

/-- The machine right after reset (R30, R160, R161), with nothing sent, nothing answered and nothing observed yet.
The host's readiness is no register and the spec gives it no value at reset: it stands here at the duty R162 and R170
put on the host (log entry 6). -/
def State.reset : State where
  l := 0x00
  v := 0
  started := false
  mode := .idle
  fi := 0
  nf := 0
  sc := 0
  bc := 0
  acc := 0
  nacc := 0
  work := .boundary
  rst := false
  cmd := []
  src := []
  late := false
  outReady := .always
  rspReady := .always
  trace := []

end Sys2Proof.Machine
end

