-- ==== Sys2Proof/Machine/Flags.lean ====
section
/-!
DEFINITION. What a command reports. The core has no condition flags (spec/10_state.md R28): the outcome of a command
is the status of its one response, kept nowhere else, so this file holds the status codes of spec/60_exceptions.md
R140 and the responses the rules name. Fields left out of a response are 0 (spec/00_scope.md R10).
-/

namespace Sys2Proof.Machine

/-- The numeric status codes of R140. -/
def Status.code : Status → BitVec 4
  | .ok => 0x0
  | .exhausted => 0x1
  | .sizeOverflow => 0x2
  | .unsupportedKind => 0x3
  | .sourceError => 0x4
  | .illegalCommand => 0x5

/-- `Respond(OK)` (R101). -/
def okResponse : Response := { status := .ok }

/-- `Respond(SIZE_OVERFLOW)` of an XBITS: VALUE and NVALID are 0 (R95, R141). -/
def sizeOverflowResponse : Response := { status := .sizeOverflow }

/-- `Respond(ILLEGAL_COMMAND)` for an illegal command word: every other field is 0 (R71, R145). -/
def illegalResponse : Response := { status := .illegalCommand }

/-- The response of a POPULATE (R129): `count` slots were emitted and execution stopped at descriptor `field`. VALUE
is 0. -/
def populateResponse (status : Status) (nvalid : Size) (e : SrcErr) (count field : FieldIndex) : Response :=
  { status := status, nvalid := nvalid, count := count.setWidth 24, field := field, srcerr := e }

end Sys2Proof.Machine
end

