-- ==== Sys2Proof/Machine/Operands.lean ====
section
/-!
DEFINITION. Operand forms: the width and kind codes, the size check, and the chunk plan of a wide extraction.
Commands name no registers; every operand is an immediate of the word (spec/10_state.md R28).
-/

namespace Sys2Proof

/-- The width code WC of R64, which is also the KIND code of R70. -/
def Width.code : Width → Nat
  | .w8 => 0
  | .w16 => 1
  | .w32 => 2
  | .w64 => 3

/-- The width W = 8 · 2^WC of R64, which is also the capacity of a kind (R70, R121: `8 << kind`). -/
def Width.bits (w : Width) : Nat := 8 <<< w.code

/-- The KIND field of an output beat: the code 0 to 3 (R76). -/
def Width.kindCode (w : Width) : BitVec 2 := BitVec.ofNat 2 w.code

end Sys2Proof

namespace Sys2Proof.Machine

/-- The size check of R95 and R121: a request of 0 bits, or of more bits than the width holds, is refused before any
read. -/
def sizeBad (w : Width) (n : Size) : Bool := n.toNat = 0 || w.bits < n.toNat

/-- The chunk plan of R94 for an extraction of `n` bits at width 8 · 2^`level`, by halving the width. -/
def chunksAt : Nat → Nat → List Nat
  | 0, n => [n]
  | level + 1, n =>
    if n ≤ 8 <<< level then chunksAt level n
    else chunksAt level (8 <<< level) ++ chunksAt level (n - 8 <<< level)

/-- `chunks(W, s)` of R94. -/
def chunks (w : Width) (n : Nat) : List Nat := chunksAt w.code n

end Sys2Proof.Machine
end

