-- ==== Sys2Proof/Machine/Ports.lean ====
section
/-!
DEFINITION. The ports of spec/20_memory.md R52: the packed layouts of a response (spec/30_encoding.md R75) and of an
output beat (R76), the source's answer as the port delivers it, and what the outside world may do to the machine
between two steps (spec/70_reset_and_hazards.md R173).
-/

namespace Sys2Proof.Machine

/-- The 128-bit response word of R75, from bit 127 down: VALUE, SRCERR, COUNT, FIELD, five zero bits, NVALID,
STATUS. -/
def Response.pack (r : Response) : BitVec 128 :=
  r.value ++ r.srcerr ++ r.count ++ r.field ++ 0#5 ++ r.nvalid ++ r.status.code

/-- The 96-bit beat of R76, from bit 95 down: five zero bits, TAG, KIND, INDEX, DATA. -/
def Beat.pack : Beat → BitVec 96
  | .byte index b => 0#5 ++ 0#1 ++ 0#2 ++ index ++ b.setWidth 64
  | .slot index kind value => 0#5 ++ 1#1 ++ kind.kindCode ++ index.setWidth 24 ++ value

/-- The answer on the source port (R52): `src_kind` 0 is a byte, 1 is Eof, 2 is an error. A kind of 3 is a protocol
violation, which the core treats as an error (D29). -/
def Answer.ofPort (kind : BitVec 2) (byte : Byte) (err : SrcErr) : Answer :=
  if kind = 0#2 then .byte byte
  else if kind = 1#2 then .eof
  else .err err

/-- The host is ready to take one more item: the ready line is high. -/
def Ready.high : Ready → Bool
  | .always => true
  | .upTo n => 0 < n

/-- One item is taken, if the ready line is high (R52, X1). -/
def Ready.take : Ready → Option Ready
  | .always => some .always
  | .upTo 0 => none
  | .upTo (n + 1) => some (.upTo n)

/-- The host sends one word on the command stream: it may send any word (R173). -/
def State.send (s : State) (w : Word) : State := { s with cmd := s.cmd ++ [w] }

/-- The source gives one more answer: any answer, in any pattern (R41, R173). -/
def State.answer (s : State) (a : Answer) : State := { s with src := s.src ++ [a] }

/-- The source answers on its port (R52). -/
def State.answerPort (s : State) (kind : BitVec 2) (byte : Byte) (err : SrcErr) : State :=
  s.answer (Answer.ofPort kind byte err)

/-- The host sets how many beats and responses it is ready to take (R170, R173). -/
def State.setReady (s : State) (out rsp : Ready) : State := { s with outReady := out, rspReady := rsp }

/-- The reset input is driven (R160, R173: at any time). -/
def State.drive (s : State) (rst : Bool) : State := { s with rst := rst }

end Sys2Proof.Machine
end

