-- ==== Sys2Proof/Machine/Ops.lean ====
section
/-!
DEFINITION. The shared operations: the named updates of the state, the primitives of spec/00_scope.md R10 (SrcRead,
EmitByte, EmitSlot, Respond), the 8-bit primitive P8 (spec/40_cursor.md R90 to R93), the aggregator XW (R94), the loop of
XBYTES (R100), the sequencer of POPULATE (spec/41_sequencer.md R120, R121), and reset (spec/70_reset_and_hazards.md R160).

Arithmetic follows R9: exact on natural numbers, narrowed once where a register is written.

Where a rule waits for the outside world (a read that is not answered, R169; a beat, a response or a descriptor word,
R170 and R120), the operation stores in `work` where it stands and ends; `resume` goes on from there.

Every condition the spec names is a status of a response (R146): there is no trap, so nothing here saves a pc or
enters a handler. `respond` and, inside a POPULATE, `popStop` are the shared operations that report one.
-/

namespace Sys2Proof.Machine

/-! ### Named updates of the state -/

/-- Writes L and V. -/
def State.setCursor (s : State) (l : Byte) (v : BitVec 3) : State := { s with l := l, v := v }

/-- Writes S. -/
def State.setStarted (s : State) (b : Bool) : State := { s with started := b }

/-- Writes MODE. -/
def State.setMode (s : State) (m : Mode) : State := { s with mode := m }

/-- Writes FI. -/
def State.setFi (s : State) (fi : FieldIndex) : State := { s with fi := fi }

/-- Writes NF. -/
def State.setNf (s : State) (nf : FieldIndex) : State := { s with nf := nf }

/-- Writes SC. -/
def State.setSc (s : State) (sc : FieldIndex) : State := { s with sc := sc }

/-- Writes BC. -/
def State.setBc (s : State) (bc : Count) : State := { s with bc := bc }

/-- Writes ACC and NACC. -/
def State.setAccum (s : State) (acc : Value) (nacc : Size) : State := { s with acc := acc, nacc := nacc }

/-- Sets the place inside the command in progress. -/
def State.setWork (s : State) (w : Work) : State := { s with work := w }

/-- Sets the words of the command stream not consumed yet. -/
def State.setCmd (s : State) (ws : List Word) : State := { s with cmd := ws }

/-- Sets the answers of the source to the coming reads. -/
def State.setSrc (s : State) (as : List Answer) : State := { s with src := as }

/-- Sets whether a read abandoned by a reset is still unanswered. -/
def State.setLate (s : State) (b : Bool) : State := { s with late := b }

/-- Sets the host's readiness for beats. -/
def State.setOutReady (s : State) (q : Ready) : State := { s with outReady := q }

/-- Sets the host's readiness for responses. -/
def State.setRspReady (s : State) (q : Ready) : State := { s with rspReady := q }

/-- Appends an event to the trace (R34). -/
def State.log (s : State) (e : Event) : State := { s with trace := s.trace ++ [e] }

/-! ### The four streams -/

/-- `SrcRead()` (R10, R41, R49): one read with its answer, one event. None while the source has not answered (R169),
and none while a read that a reset abandoned is still unanswered, because at most one read is outstanding (R42). -/
def srcRead (s : State) : Option (Answer × State) :=
  match s.late, s.src with
  | false, a :: rest => some (a, (s.setSrc rest).log (.read a))
  | _, _ => none

/-- The answer of a read that a reset abandoned is discarded when it arrives (R160). The read was made and answered,
so it is an event (R50; log entry 9). -/
def dropLate (s : State) : State :=
  match s.late, s.src with
  | true, a :: rest => ((s.setSrc rest).setLate false).log (.read a)
  | _, _ => s

/-- One output beat (`EmitByte`, `EmitSlot` of R10), if the host takes it (R170). -/
def takeBeat (b : Beat) (s : State) : Option State :=
  s.outReady.take.map fun q => (s.setOutReady q).log (.beat b)

/-- `Respond(...)` (R10, R53): the response is the last event of its command, after which MODE is IDLE and the next
word is at a command position (R149). While the host does not take it, the command is not over (R170). -/
def respond (r : Response) (s : State) : State :=
  match s.rspReady.take with
  | some q => (((s.setRspReady q).log (.response r)).setMode .idle).setWork .boundary
  | none => s.setWork (.respond r)

/-! ### The 8-bit primitive P8 -/

/-- `pend` of R11: the V pending bits, right-aligned. -/
def State.pend (s : State) : Nat := s.l.toNat >>> (8 - s.v.toNat)

/-- What P8 returns (R90 to R93). -/
inductive P8Result where
  /-- `(value, OK, s)`. -/
  | ok (value : Byte)
  /-- `(value, EXHAUSTED, nvalid)`. -/
  | exhausted (value : Byte) (nvalid : Size)
  /-- `(0, SOURCE_ERROR(e), 0)`. -/
  | sourceError (e : SrcErr)
  /-- The read is not answered yet (R169). -/
  | wait
deriving DecidableEq, Repr

/-- R90, the serve path: the top `n` bits of L, with nothing read. -/
def p8Serve (n : Nat) (s : State) : P8Result × State :=
  (.ok (BitVec.ofNat 8 (s.l.toNat >>> (8 - n))),
    s.setCursor (BitVec.ofNat 8 (s.l.toNat <<< n)) (BitVec.ofNat 3 (s.v.toNat - n)))

/-- R91, the pull path with a byte: the pending bits joined with the top `n - V` bits of the byte, whose low bits
become the new leftover bits. -/
def p8Byte (n : Nat) (b : Byte) (s : State) : P8Result × State :=
  let k := n - s.v.toNat
  (.ok (BitVec.ofNat 8 ((s.pend <<< k) ||| (b.toNat >>> (8 - k)))),
    (s.setCursor (BitVec.ofNat 8 (b.toNat <<< k)) (BitVec.ofNat 3 (8 - k))).setStarted true)

/-- R92, the pull path at end of input: the pending bits become the top bits of an `n`-bit value, and the cursor is
left empty (C11, I1: no wraparound). S is unchanged. -/
def p8Eof (n : Nat) (s : State) : P8Result × State :=
  (.exhausted (BitVec.ofNat 8 (s.l.toNat >>> (8 - n))) (s.v.setWidth 7), s.setCursor 0 0)

/-- R93, the pull path with a source error: the cursor is left empty. S is unchanged. -/
def p8Err (e : SrcErr) (s : State) : P8Result × State := (.sourceError e, s.setCursor 0 0)

/-- P8(n) of spec/40_cursor.md section 1. Its callers ask for 1 to 8 bits. -/
def p8 (n : Nat) (s : State) : P8Result × State :=
  if n ≤ s.v.toNat then p8Serve n s
  else
    match srcRead s with
    | some (.byte b, s') => p8Byte n b s'
    | some (.eof, s') => p8Eof n s'
    | some (.err e, s') => p8Err e s'
    | none => (.wait, s)

/-! ### The aggregator XW -/

/-- What XW returns (R94), or the chunks still to be made where a read is not answered yet. -/
inductive XwResult where
  /-- `(ACC, OK, s)`. -/
  | ok (value : Value)
  /-- `(ACC << (s - done), EXHAUSTED, NACC)`. -/
  | exhausted (value : Value) (nvalid : Size)
  /-- `(0, SOURCE_ERROR(e), 0)`. -/
  | sourceError (e : SrcErr)
  /-- The read of the first of `chunks` is not answered yet (R169). -/
  | wait (chunks : List Nat)
deriving DecidableEq, Repr

/-- `ACC <- (ACC << c) | v; NACC <- NACC + nv` of R94. -/
def accumulate (c : Nat) (value : Byte) (nvalid : Size) (s : State) : State :=
  s.setAccum (BitVec.ofNat 64 ((s.acc.toNat <<< c) ||| value.toNat)) (s.nacc + nvalid)

/-- The loop of XW over the chunks still to be made (R94). The bits of the chunks after the current one are `s - done`
of the rule. It stops at the first chunk that does not end OK. -/
def xwLoop : List Nat → State → XwResult × State
  | [], s => (.ok s.acc, s)
  | c :: cs, s =>
    match p8 c s with
    | (.ok value, s') => xwLoop cs (accumulate c value (BitVec.ofNat 7 c) s')
    | (.exhausted value nvalid, s') =>
      let t := accumulate c value nvalid s'
      (.exhausted (BitVec.ofNat 64 (t.acc.toNat <<< cs.sum)) t.nacc, t)
    | (.sourceError e, s') => (.sourceError e, s')
    | (.wait, s') => (.wait (c :: cs), s')

/-! ### The sequencer of POPULATE -/

/-- The words after a stopped descriptor are consumed and ignored, and then the response is sent (R120, R130). Words
the host has not sent yet are waited for. -/
def drain (left : Nat) (r : Response) (s : State) : State :=
  if left ≤ s.cmd.length then respond r (s.setCmd (s.cmd.drop left))
  else (s.setCmd []).setWork (.drain (left - s.cmd.length) r)

/-- The POPULATE stops at descriptor FI with a status other than OK (R120, R129, R146): nothing done so far is
undone. -/
def popStop (status : Status) (nvalid : Size) (e : SrcErr) (s : State) : State :=
  drain (s.nf.toNat - s.fi.toNat - 1) (populateResponse status nvalid e s.sc s.fi) s

/-- The test of the loop of R120: the next descriptor, or the response OK when all NF have ended OK. -/
def popNext (s : State) : State :=
  if s.fi < s.nf then s.setWork .boundary else respond (populateResponse .ok 0 0 s.sc s.fi) s

/-- The end of FIELDSTEP (R121): a field that ended OK advances FI; one that ended EXHAUSTED, with `nvalid` valid bits,
stops the POPULATE. -/
def fieldEnd (stop : Option Size) (s : State) : State :=
  match stop with
  | none => popNext (s.setFi (s.fi + 1))
  | some nvalid => popStop .exhausted nvalid 0 s

/-- The slot of a field that ended OK or EXHAUSTED (R121, R127, R128): a data field emits slot SC and advances SC, a
skip field emits nothing. -/
def fieldSlot (kind : Width) (skip : Bool) (value : Value) (stop : Option Size) (s : State) : State :=
  if skip then fieldEnd stop s
  else
    match takeBeat (.slot s.sc kind value) s with
    | some s' => fieldEnd stop (s'.setSc (s'.sc + 1))
    | none => s.setWork (.slotBeat kind value stop)

/-! ### Extractions -/

/-- The response of an XBITS to what XW returned (R96), and FIELDSTEP's lines after XW (R121). -/
def extractEnd (sink : Sink) (size : Size) (r : XwResult) (s : State) : State :=
  match sink, r with
  | .xbits, .ok value => respond { status := .ok, value := value, nvalid := size } s
  | .xbits, .exhausted value nvalid => respond { status := .exhausted, value := value, nvalid := nvalid } s
  | .xbits, .sourceError e => respond { status := .sourceError, srcerr := e } s
  | .field kind skip, .ok value => fieldSlot kind skip value none s
  | .field kind skip, .exhausted value nvalid => fieldSlot kind skip value (some nvalid) s
  | .field _ _, .sourceError e => popStop .sourceError 0 e s
  | _, .wait cs => s.setWork (.extract sink size cs)

/-- The extraction goes on with the chunks still to be made. -/
def extractRun (sink : Sink) (size : Size) (cs : List Nat) (s : State) : State :=
  let out := xwLoop cs s
  extractEnd sink size out.1 out.2

/-- XW(W, s) from its start (R94): ACC and NACC are cleared and the plan is made. -/
def extractStart (w : Width) (sink : Sink) (size : Size) (s : State) : State :=
  extractRun sink size (chunks w size.toNat) (s.setAccum 0 0)

/-- XBITS.W (R96 to R99): the size check, then the extraction. -/
def xbits (w : Width) (size : Size) (s : State) : State :=
  if sizeBad w size then respond sizeOverflowResponse (s.setMode .xbits)
  else extractStart w .xbits size (s.setMode .xbits)

/-- FIELDSTEP for a descriptor of a supported kind (R121), from its width check on. The format check is the decoder's
and the kind check is the constructor's. -/
def fieldStep (kind : Width) (skip : Bool) (w : Size) (s : State) : State :=
  if sizeBad kind w then popStop .sizeOverflow 0 0 s
  else extractStart kind (.field kind skip) w s

/-! ### The loop of XBYTES -/

/-- The loop of R100, with `left` bytes still to be extracted: `n - BC`. -/
def bytesLoop (n : Count) : Nat → State → State
  | 0, s => respond { status := .ok, count := n } s
  | left + 1, s =>
    match p8 8 s with
    | (.ok b, s') =>
      match takeBeat (.byte s'.bc b) s' with
      | some t => bytesLoop n left (t.setBc (t.bc + 1))
      | none => s'.setWork (.byteBeat n b)
    | (.exhausted value nvalid, s') =>
      respond { status := .exhausted, value := value.setWidth 64, nvalid := nvalid, count := s'.bc } s'
    | (.sourceError e, s') => respond { status := .sourceError, count := s'.bc, srcerr := e } s'
    | (.wait, s') => s'.setWork (.byteRead n)

/-- The loop of R100 at its test `BC < n`. -/
def bytesRun (n : Count) (s : State) : State := bytesLoop n (n.toNat - s.bc.toNat) s

/-! ### Positions -/

/-- What the next word of the command stream is, or none while no word is awaited (R60, R120, R164). -/
def State.position (s : State) : Option Position :=
  match s.work with
  | .boundary =>
    match s.mode with
    | .idle => some .command
    | .pop => if s.fi < s.nf then some .descriptor else none
    | .xbits => none
    | .xbytes => none
  | _ => none

/-- An illegal command word (R71, R145): consumed, with no effect but its response. -/
def illegalCommand (s : State) : State := respond illegalResponse s

/-- An illegal descriptor (R72, R121, R145): it stops its POPULATE. -/
def illegalDescriptor (s : State) : State := popStop .illegalCommand 0 0 s

/-- A format-C word runs at a command position; at a descriptor position its tag is not 0xD, so it is an illegal
descriptor (R60, R72). -/
def atCommand (s : State) (run : State → State) : Host.Outcome State Fault Refusal :=
  match s.position with
  | some .command => .next (run s)
  | some .descriptor => .next (illegalDescriptor s)
  | none => .fault .notAccepting

/-- A format-D word runs at a descriptor position; at a command position it is illegal, because OP = 0xD is (R60,
R71). -/
def atDescriptor (s : State) (run : State → State) : Host.Outcome State Fault Refusal :=
  match s.position with
  | some .command => .next (illegalCommand s)
  | some .descriptor => .next (run s)
  | none => .fault .notAccepting

/-- A word that no row matches (R71, R72). -/
def illegalWord (s : State) : Host.Outcome State Fault Refusal :=
  match s.position with
  | some .command => .next (illegalCommand s)
  | some .descriptor => .next (illegalDescriptor s)
  | none => .fault .notAccepting

/-- The next word of the command stream is consumed (R56, R79), or none where the host has sent none. The acceptance
of a command is an event, the consumption of a descriptor is not (R34). -/
def fetch (p : Position) (s : State) : Option (Word × State) :=
  match s.cmd with
  | [] => none
  | w :: rest =>
    match p with
    | .command => some (w, (s.setCmd rest).log (.command w))
    | .descriptor => some (w, s.setCmd rest)

/-- The command in progress goes on from the place where it waits (R169, R170). -/
def resume (s : State) : State :=
  match s.work with
  | .boundary => s
  | .extract sink size cs => extractRun sink size cs s
  | .byteRead n => bytesRun n s
  | .byteBeat n b =>
    match takeBeat (.byte s.bc b) s with
    | some t => bytesRun n (t.setBc (t.bc + 1))
    | none => s
  | .slotBeat kind value stop => fieldSlot kind false value stop s
  | .drain left r => drain left r s
  | .respond r => respond r s

/-! ### Reset and the port outputs -/

/-- The command in progress waits at a place where it needs the answer of a read (R169). -/
def State.awaitsRead (s : State) : Bool :=
  match s.work with
  | .extract _ _ _ => true
  | .byteRead _ => true
  | _ => false

/-- `src_req` (R52): the core requests the read that the command in progress needs. At most one read is outstanding
(R42), so no request is made while a read that a reset abandoned is unanswered (log entry 8). That the line is low then
and while `rst` is asserted is the model's choice (DESIGN CHOICE, log entry 17). -/
def State.srcReq (s : State) : Bool := s.awaitsRead && !s.late && !s.rst

/-- `cmd_ready` for a command word (R52, R164): low while a command runs (log entry 12 for descriptor positions). That
it is low while `rst` is asserted, when no word is taken, is the model's choice (DESIGN CHOICE, log entry 17). -/
def State.cmdReady (s : State) : Bool := !s.rst && decide (s.position = some .command)

/-- The beat on `out_beat` with `out_valid` high (R52, R170), if one waits to be taken. None while `rst` is asserted:
the abandoned command sends no more beats (R160; log entry 17). -/
def State.outBeat (s : State) : Option (BitVec 96) :=
  if s.rst then none
  else
    match s.work with
    | .byteBeat _ b => some (Beat.byte s.bc b).pack
    | .slotBeat kind value _ => some (Beat.slot s.sc kind value).pack
    | _ => none

/-- The response on `rsp_data` with `rsp_valid` high (R52, R170), if one waits to be taken. None while `rst` is
asserted: the abandoned command sends no response (R160; log entry 17). -/
def State.rspData (s : State) : Option (BitVec 128) :=
  if s.rst then none
  else
    match s.work with
    | .respond r => some r.pack
    | _ => none

/-- `rst` asserted (R160): every register takes its value of R30, the command in progress is abandoned, and the answer
of a read that is outstanding will be discarded. The streams are not the core's and stay, and what was observed
stays observed. A command that waits for a read has always issued it, unless an abandoned one is still unanswered:
whether the spec lets a reset land after one read, beat or word and before the next read is issued is open, and that it
does not is the model's choice (DESIGN CHOICE, log entry 18). -/
def applyReset (s : State) : State :=
  { State.reset with
    rst := s.rst
    cmd := s.cmd
    src := s.src
    late := s.late || s.awaitsRead
    outReady := s.outReady
    rspReady := s.rspReady
    trace := s.trace }

end Sys2Proof.Machine
end

