-- ==== Sys2Proof/Machine/Clear.lean ====
section
/-!
DEFINITION. CLEAR (spec/40_cursor.md R101).
-/

namespace Sys2Proof.Machine

/-- `clear` (R101): L, V and S are cleared and the response is OK. No source read is made. -/
def execClear (s : State) : Host.Outcome State Fault Refusal :=
  atCommand s fun s => respond okResponse ((s.setCursor 0 0).setStarted false)

end Sys2Proof.Machine
end

