-- ==== Sys2Proof/Machine/Populate.lean ====
section
/-!
DEFINITION. POPULATE and the FIELD descriptors (spec/41_sequencer.md R120 to R126).

A POPULATE is a run of the sequencer over the words that follow its header, with FI as the program counter (R29). Its
header word and each of its descriptor words are instructions of their own: the header sets NF, FI and SC and reaches
the loop's test, each descriptor is one pass of the loop's body (R120), and the pass that ends the loop sends the
response.
-/

namespace Sys2Proof.Machine

/-- `populate nfields` (R120): the lines before the loop, and the loop's first test. With no field it responds at once
(R131). The cursor is not cleared (R133). -/
def execPopulate (nfields : FieldIndex) (s : State) : Host.Outcome State Fault Refusal :=
  atCommand s fun s => popNext ((((s.setMode .pop).setNf nfields).setFi 0).setSc 0)

/-- `field.u8 width[, skip]` (R122). -/
def execFieldU8 (skip : Bool) (width : Size) (s : State) : Host.Outcome State Fault Refusal :=
  atDescriptor s (fieldStep .w8 skip width)

/-- `field.u16 width[, skip]` (R123). -/
def execFieldU16 (skip : Bool) (width : Size) (s : State) : Host.Outcome State Fault Refusal :=
  atDescriptor s (fieldStep .w16 skip width)

/-- `field.u32 width[, skip]` (R124). -/
def execFieldU32 (skip : Bool) (width : Size) (s : State) : Host.Outcome State Fault Refusal :=
  atDescriptor s (fieldStep .w32 skip width)

/-- `field.u64 width[, skip]` (R125). -/
def execFieldU64 (skip : Bool) (width : Size) (s : State) : Host.Outcome State Fault Refusal :=
  atDescriptor s (fieldStep .w64 skip width)

/-- `field.k4` to `field.k7` (R126): UNSUPPORTED_KIND, before any read and before the width check. The width and the
skip flag are not examined. -/
def execFieldKbad (_kind : BitVec 3) (_skip : Bool) (_width : Size) (s : State) :
    Host.Outcome State Fault Refusal :=
  atDescriptor s (popStop .unsupportedKind 0 0)

end Sys2Proof.Machine
end

