-- ==== Sys2Proof/Machine/Xbits.lean ====
section
/-!
DEFINITION. XBITS.8, XBITS.16, XBITS.32 and XBITS.64 (spec/40_cursor.md R96 to R99).
-/

namespace Sys2Proof.Machine

/-- `xbits.8 size` (R96). -/
def execXbits8 (size : Size) (s : State) : Host.Outcome State Fault Refusal := atCommand s (xbits .w8 size)

/-- `xbits.16 size` (R97). -/
def execXbits16 (size : Size) (s : State) : Host.Outcome State Fault Refusal := atCommand s (xbits .w16 size)

/-- `xbits.32 size` (R98). -/
def execXbits32 (size : Size) (s : State) : Host.Outcome State Fault Refusal := atCommand s (xbits .w32 size)

/-- `xbits.64 size` (R99). -/
def execXbits64 (size : Size) (s : State) : Host.Outcome State Fault Refusal := atCommand s (xbits .w64 size)

end Sys2Proof.Machine
end

