-- ==== Sys2Proof/Machine/Xbytes.lean ====
section
/-!
DEFINITION. XBYTES (spec/40_cursor.md R100).
-/

namespace Sys2Proof.Machine

/-- `xbytes count` (R100): MODE and BC are written, then the loop runs. Every COUNT is legal. -/
def execXbytes (count : Count) (s : State) : Host.Outcome State Fault Refusal :=
  atCommand s fun s => bytesRun count ((s.setMode .xbytes).setBc 0)

end Sys2Proof.Machine
end

