-- ==== Sys2Proof/Machine/Dispatch.lean ====
section
/-!
DEFINITION. One arm per instruction of spec/opcode_table.json, each a direct call of its meaning.
-/

namespace Sys2Proof.Machine

def exec (i : Instr) (s : State) : Host.Outcome State Fault Refusal :=
  match i with
  -- format C: the commands
  | .xbits8 size => Sys2Proof.Machine.execXbits8 size s
  | .xbits16 size => Sys2Proof.Machine.execXbits16 size s
  | .xbits32 size => Sys2Proof.Machine.execXbits32 size s
  | .xbits64 size => Sys2Proof.Machine.execXbits64 size s
  | .xbytes count => Sys2Proof.Machine.execXbytes count s
  | .populate nfields => Sys2Proof.Machine.execPopulate nfields s
  | .clear => Sys2Proof.Machine.execClear s
  -- format D: the descriptors
  | .fieldU8 skip width => Sys2Proof.Machine.execFieldU8 skip width s
  | .fieldU16 skip width => Sys2Proof.Machine.execFieldU16 skip width s
  | .fieldU32 skip width => Sys2Proof.Machine.execFieldU32 skip width s
  | .fieldU64 skip width => Sys2Proof.Machine.execFieldU64 skip width s
  | .fieldKbad kind skip width => Sys2Proof.Machine.execFieldKbad kind skip width s

end Sys2Proof.Machine
end

