-- ==== Sys2Proof/Machine/Step.lean ====
section
/-!
DEFINITION. One step of the machine, and where a tool places the next instruction.

A step is one word of the command stream with all it does (R6), or the rest of a command that had to wait, or a reset.
Where the core waits and the outside world has given nothing, a step changes nothing: a source that never answers
gives a run that never ends (R169).
-/

namespace Sys2Proof.Machine

/-- One step. While `rst` is asserted the core is held in reset (R160). Otherwise a late answer is discarded if it has
arrived, and then the core takes the next word where it awaits one, or goes on with the command in progress. -/
def step (s : State) : Host.Outcome State Fault Refusal :=
  if s.rst then .next (dropLate (applyReset s))
  else
    match (dropLate s).position with
    | some p =>
      match fetch p (dropLate s) with
      | some (w, t) =>
        match decode w with
        | .ok i => exec i t
        | .error _ => illegalWord t
      | none => .next (dropLate s)
    | none =>
      match (dropLate s).work with
      | .boundary => .fault .brokenControl
      | _ => .next (resume (dropLate s))

/-- The word put at the head of the command stream, at a position of its own format. A command needs a command
position. A descriptor needs a descriptor position: where the core is at none, it is put at the first of a POPULATE of
one field (log entry 10). -/
def State.withFetchWord (s : State) (nbits w : Nat) : State :=
  let word := wordOfBits nbits w
  let s := { s with rst := false, work := .boundary, cmd := word :: s.cmd }
  if opField word = 0xD#4 then
    if s.mode = .pop ∧ s.fi < s.nf then s
    else { s with mode := .pop, nf := 1, fi := 0, sc := 0 }
  else { s with mode := .idle }

end Sys2Proof.Machine
end

