-- ==== Sys2Proof/Machine/Assembler.lean ====
section
/-!
DEFINITION. The assembly language of spec/30_encoding.md R77 and its pseudo-instructions (R78): one line for each
command or descriptor, the words it stands for, and the lines the assembler refuses. Operands are natural numbers, so
that a value which does not fit its field can be written down and refused.
-/

namespace Sys2Proof.Machine

/-- One line of assembly (R77, R78). -/
inductive AsmLine where
  /-- `xbits.W s`. -/
  | xbits (w : Width) (n : Nat)
  /-- `xbytes n`. -/
  | xbytes (n : Nat)
  /-- `populate n`. -/
  | populate (n : Nat)
  /-- `field.K w` or `field.K w, skip`, with the kind code 0 to 7: u8, u16, u32, u64, k4 to k7. -/
  | field (kind : Fin 8) (w : Nat) (skip : Bool)
  /-- `clear`. -/
  | clear
  /-- `.word hex32`, a raw word. -/
  | word (w : Word)
  /-- `xbit`, a pseudo-instruction. -/
  | xbit
  /-- `xbyte`, a pseudo-instruction. -/
  | xbyte
  /-- `xbits s` with no width, a pseudo-instruction. -/
  | xbitsAuto (n : Nat)
  /-- `skip.K w`, a pseudo-instruction. -/
  | skipLine (kind : Fin 8) (w : Nat)
  /-- `pad w`, a pseudo-instruction. -/
  | pad (w : Nat)
deriving DecidableEq, Repr

/-- The smallest of the four widths that holds `n` bits, for `n` from 1 to 64 (R78). -/
def smallestWidth (n : Nat) : Option Width :=
  if n = 0 then none
  else if n ≤ 8 then some .w8
  else if n ≤ 16 then some .w16
  else if n ≤ 32 then some .w32
  else if n ≤ 64 then some .w64
  else none

/-- The expansion of a pseudo-instruction (R78); a line that is none stays as it is. Refused where the size is. -/
def AsmLine.expand : AsmLine → Option AsmLine
  | .xbit => some (.xbits .w8 1)
  | .xbyte => some (.xbits .w8 8)
  | .xbitsAuto n => (smallestWidth n).map fun w => .xbits w n
  | .skipLine kind w => some (.field kind w true)
  | .pad w => (smallestWidth w).map fun k => .field (Fin.ofNat 8 k.code) w true
  | .xbits w n => some (.xbits w n)
  | .xbytes n => some (.xbytes n)
  | .populate n => some (.populate n)
  | .field kind w skip => some (.field kind w skip)
  | .clear => some .clear
  | .word w => some (.word w)

/-- `record f1; ...; fn`: the pseudo-instruction that writes the `populate` of its field lines (R78). -/
def recordLines (fields : List AsmLine) : List AsmLine := .populate fields.length :: fields

/-- The instruction of a line of R77. None for a raw word, for a pseudo-instruction, and for a value that does not fit
its field. Every size and width from 0 to 127 fits, the illegal ones too. -/
def AsmLine.instr : AsmLine → Option Instr
  | .xbits w n => if n < 128 then some (.xbits w (BitVec.ofNat 7 n)) else none
  | .xbytes n => if n < 2 ^ 24 then some (.xbytes (BitVec.ofNat 24 n)) else none
  | .populate n => if n < 2 ^ 16 then some (.populate (BitVec.ofNat 16 n)) else none
  | .field kind w skip =>
    if w < 128 then
      match kind with
      | 0 => some (.fieldU8 skip (BitVec.ofNat 7 w))
      | 1 => some (.fieldU16 skip (BitVec.ofNat 7 w))
      | 2 => some (.fieldU32 skip (BitVec.ofNat 7 w))
      | 3 => some (.fieldU64 skip (BitVec.ofNat 7 w))
      | k => some (.fieldKbad (BitVec.ofNat 3 k.val) skip (BitVec.ofNat 7 w))
    else none
  | .clear => some .clear
  | .word _ => none
  | .xbit => none
  | .xbyte => none
  | .xbitsAuto _ => none
  | .skipLine _ _ => none
  | .pad _ => none

/-- The word of a line, after the expansion of pseudo-instructions. -/
def AsmLine.encodeLine (line : AsmLine) : Option Word :=
  line.expand.bind fun l =>
    match l with
    | .word w => some w
    | l => l.instr.map encode

/-- The line stands where a descriptor must. -/
def AsmLine.isField : AsmLine → Bool
  | .field _ _ _ => true
  | .skipLine _ _ => true
  | .pad _ => true
  | _ => false

/-- How many field lines must follow the line. -/
def AsmLine.fieldsAfter : AsmLine → Nat
  | .populate n => n
  | _ => 0

/-- The placing of field lines (R77): `need` field lines must come next, and a field line stands nowhere else. -/
def assembleFrom : Nat → List AsmLine → Option (List Word)
  | need, [] => if need = 0 then some [] else none
  | 0, line :: lines =>
    if line.isField then none
    else line.encodeLine.bind fun w => (assembleFrom line.fieldsAfter lines).map (w :: ·)
  | need + 1, line :: lines =>
    if line.isField then line.encodeLine.bind fun w => (assembleFrom need lines).map (w :: ·)
    else none

/-- The assembler: the words of the lines, or none where it refuses (R77). -/
def assemble (lines : List AsmLine) : Option (List Word) := assembleFrom 0 lines

end Sys2Proof.Machine
end

