-- ==== Sys2Proof/Safety.lean ====
section
/-!
DEFINITION. The terms in which claims about the machine are made: the bit string the cursor stands for
(spec/10_state.md R25), the counts of events of a trace (R34), the invariants of every reachable state, the end of a
run (spec/70_reset_and_hazards.md R174), and the host's view of a status (spec/60_exceptions.md R150).
-/

namespace Sys2Proof.Machine

/-! ### Bit strings, most significant bit first (R12, R45) -/

/-- The low `n` bits of `x`, the most significant first. -/
def bitsOf : Nat → Nat → List Bool
  | 0, _ => []
  | n + 1, x => x.testBit n :: bitsOf n x

/-- The number a bit string spells, its first bit the most significant. -/
def bitsVal : List Bool → Nat
  | [] => 0
  | b :: bs => b.toNat * 2 ^ bs.length + bitsVal bs

/-- The bits of a source byte in the order they are consumed (R45). -/
def byteBits (b : Byte) : List Bool := bitsOf 8 b.toNat

/-- The pending bit string P = L[7:8−V] of R25. -/
def State.pending (s : State) : List Bool := bitsOf s.v.toNat s.pend

/-- The bit string A = P ++ b0 ++ b1 ++ … of R102: the pending bits and then those of `bytes`. -/
def State.available (s : State) (bytes : List Byte) : List Bool := s.pending ++ bytes.flatMap byteBits

/-- `bits`, of at most 8, left-aligned in a byte with zeros below. -/
def leftAlign (bits : List Bool) : Byte := BitVec.ofNat 8 (bitsVal bits <<< (8 - bits.length))

/-- The state with a cursor that holds the pending bits `bits`, of at most 7: L and V. -/
def State.holding (s : State) (bits : List Bool) : State :=
  { s with l := leftAlign bits, v := BitVec.ofNat 3 bits.length }

/-- The value of a result of `n` bits, right-aligned in the value path. -/
def valueOf (bits : List Bool) : Value := BitVec.ofNat 64 (bitsVal bits)

/-- The reads of an extraction of `n` bits from `v` pending bits, when the source answers each with a byte: the
ceiling of max(0, n − v) / 8 (R102, R172). -/
def readsFor (n v : Nat) : Nat := (n - v + 7) / 8

/-! ### Events of a trace -/

/-- The events of reads answered with `bytes`. -/
def readEvents (bytes : List Byte) : List Event := bytes.map fun b => .read (.byte b)

/-- An accepted command. -/
def Event.isCommand : Event → Bool
  | .command _ => true
  | _ => false

/-- A source read. -/
def Event.isRead : Event → Bool
  | .read _ => true
  | _ => false

/-- A source read answered with a byte. -/
def Event.isByteRead : Event → Bool
  | .read (.byte _) => true
  | _ => false

/-- An output beat. -/
def Event.isBeat : Event → Bool
  | .beat _ => true
  | _ => false

/-- A response. -/
def Event.isResponse : Event → Bool
  | .response _ => true
  | _ => false

/-- The commands accepted so far. -/
def State.commands (s : State) : Nat := s.trace.countP Event.isCommand

/-- The source reads made and answered so far. -/
def State.reads (s : State) : Nat := s.trace.countP Event.isRead

/-- The bytes obtained from the source so far. -/
def State.byteReads (s : State) : Nat := s.trace.countP Event.isByteRead

/-- The responses sent so far. -/
def State.responses (s : State) : Nat := s.trace.countP Event.isResponse

/-- `n` items are taken, if the host is ready for them all. -/
def Ready.takeN : Nat → Ready → Option Ready
  | 0, q => some q
  | n + 1, q => q.take.bind (Ready.takeN n)

/-! ### Invariants -/

/-- R24: the bits of L below the V valid ones are zero. -/
abbrev CursorInv (s : State) : Prop := s.l.toNat % 2 ^ (8 - s.v.toNat) = 0

/-- R25: while no byte has been read, no bit is pending. -/
abbrev StartedInv (s : State) : Prop := s.started = false → s.v = 0

/-- A plan still to be made: at least one chunk, each of 1 to 8 bits, `size` bits at most, and the first chunk asks for
more bits than are pending, because only then is a read made (R42, R43, R94). -/
def planBusy (v : BitVec 3) (size : Size) (cs : List Nat) : Bool :=
  cs.all (fun c => 1 ≤ c && c ≤ 8) && decide (cs.sum ≤ size.toNat) && decide (size.toNat ≤ 64) &&
    decide (v.toNat < cs.headD 0)

/-- The sequencer is at a descriptor of the POPULATE in progress (R26, R29, R128): FI is below NF, and no more slots
than descriptors have been emitted. -/
def atField (s : State) : Bool := s.mode = .pop && decide (s.fi < s.nf) && decide (s.sc ≤ s.fi)

/-- The place inside the command in progress agrees with MODE and the counters (R26, R27, R164). Once a field that
ended EXHAUSTED has emitted its slot, SC is at most FI + 1 (R121). -/
def controlOk (s : State) : Bool :=
  match s.work with
  | .boundary => s.mode = .idle || atField s
  | .extract .xbits size cs => s.mode = .xbits && planBusy s.v size cs
  | .extract (.field k _) size cs => atField s && planBusy s.v size cs && decide (size.toNat ≤ k.bits)
  | .byteRead n => s.mode = .xbytes && decide (s.bc < n)
  | .byteBeat n _ => s.mode = .xbytes && decide (s.bc < n)
  | .slotBeat _ _ _ => atField s
  | .drain left r =>
    s.mode = .pop && decide (s.fi < s.nf) && decide (s.sc.toNat ≤ s.fi.toNat + 1) && decide (0 < left) && r.status ≠ .ok
  | .respond _ => true

/-- The control invariant. -/
abbrev ControlInv (s : State) : Prop := controlOk s = true

/-! ### Runs and the host -/

/-- The last command accepted in a trace has been answered: of its commands and responses the last one is a response.
A trace with no command in it has none left to answer. A command that a reset abandoned is never answered (R160). -/
def lastAnswered (es : List Event) : Bool :=
  match es.reverse.find? fun e => e.isCommand || e.isResponse with
  | some e => e.isResponse
  | none => true

/-- The end of a run of the commands sent so far (R174): no word is left, the response of the last command has been
sent, and the core is in MODE = IDLE, at a command position. It does not say that the source is exhausted, nor that
V = 0. -/
abbrev RunEnded (s : State) : Prop := s.cmd = [] ∧ lastAnswered s.trace = true ∧ s.position = some .command

/-- How many accepted commands are still to be answered: 1 while one is in progress, and otherwise none (R164). -/
def State.inProgress (s : State) : Nat := if s.position = some .command then 0 else 1

/-- Every accepted command has been answered, but for the one in progress (R75, R53). A reset that abandons a command
ends this for good, so it is an invariant of runs without one. -/
abbrev BalanceInv (s : State) : Prop := s.commands = s.responses + s.inProgress

/-- Whether the host takes a command with this status for a success, given its contract on exhaustion (R140, R150). -/
def Status.success (exhaustedIsError : Bool) : Status → Bool
  | .ok => true
  | .exhausted => !exhaustedIsError
  | .sizeOverflow => false
  | .unsupportedKind => false
  | .sourceError => false
  | .illegalCommand => false

/-- The same under the contract of this platform's host, which the spec leaves open (D26, I3). -/
def Status.hostSuccess (st : Status) : Bool := st.success Config.exhaustedIsError

/-! ### The words of the command stream -/

/-- `w[hi:lo]` of R8, as an unsigned number. -/
def bitField (w : Word) (hi lo : Nat) : Nat := w.toNat / 2 ^ lo % 2 ^ (hi - lo + 1)

/-- The list of R71: the words that are illegal at a command position. -/
def illegalCommandWord (c : Word) : Bool :=
  bitField c 31 28 = 0x0 || 0x5 ≤ bitField c 31 28 ||
    (bitField c 31 28 = 0x1 && (bitField c 27 26 ≠ 0 || bitField c 23 7 ≠ 0)) ||
    (bitField c 31 28 = 0x2 && bitField c 27 24 ≠ 0) ||
    (bitField c 31 28 = 0x3 && bitField c 27 16 ≠ 0) ||
    (bitField c 31 28 = 0x4 && bitField c 27 0 ≠ 0)

/-- The words of R72: those that are illegal at a descriptor position. -/
def illegalDescriptorWord (d : Word) : Bool :=
  bitField d 31 28 ≠ 0xD || bitField d 27 12 ≠ 0 || bitField d 7 7 ≠ 0

/-- A format-D instruction: a descriptor. The others are commands, of format C (R60). -/
def isDescriptor : Instr → Bool
  | .xbits8 _ => false
  | .xbits16 _ => false
  | .xbits32 _ => false
  | .xbits64 _ => false
  | .xbytes _ => false
  | .populate _ => false
  | .clear => false
  | .fieldU8 _ _ => true
  | .fieldU16 _ _ => true
  | .fieldU32 _ _ => true
  | .fieldU64 _ _ => true
  | .fieldKbad _ _ _ => true

/-- The mnemonic of the row of R80 that an instruction belongs to. -/
def mnemonic : Instr → String
  | .xbits8 _ => "XBITS.8"
  | .xbits16 _ => "XBITS.16"
  | .xbits32 _ => "XBITS.32"
  | .xbits64 _ => "XBITS.64"
  | .xbytes _ => "XBYTES"
  | .populate _ => "POPULATE"
  | .clear => "CLEAR"
  | .fieldU8 _ _ => "FIELD.U8"
  | .fieldU16 _ _ => "FIELD.U16"
  | .fieldU32 _ _ => "FIELD.U32"
  | .fieldU64 _ _ => "FIELD.U64"
  | .fieldKbad _ _ _ => "FIELD.KBAD"

/-- The opcode map of R80: mnemonic, match, mask. -/
def opcodeMap : List (String × Word × Word) := [
  ("XBITS.8", 0x10000000, 0xFFFFFF80),
  ("XBITS.16", 0x11000000, 0xFFFFFF80),
  ("XBITS.32", 0x12000000, 0xFFFFFF80),
  ("XBITS.64", 0x13000000, 0xFFFFFF80),
  ("XBYTES", 0x20000000, 0xFF000000),
  ("POPULATE", 0x30000000, 0xFFFF0000),
  ("CLEAR", 0x40000000, 0xFFFFFFFF),
  ("FIELD.U8", 0xD0000000, 0xFFFFF780),
  ("FIELD.U16", 0xD0000100, 0xFFFFF780),
  ("FIELD.U32", 0xD0000200, 0xFFFFF780),
  ("FIELD.U64", 0xD0000300, 0xFFFFF780),
  ("FIELD.KBAD", 0xD0000400, 0xFFFFF480)]

/-- The word `base + n`, for an operand that fits below `bound`; none for one that does not (R77). -/
def operandWord (base bound n : Nat) : Option Word :=
  if n < bound then some (BitVec.ofNat 32 (base + n)) else none

/-! ### What commands do, on bit strings -/

/-- The events of an XBYTES from byte index `i` on, with the pending bits `bits` and a source that answers `bytes`: for
each byte its read, and then the beat of the first eight bits at hand (R53, R100). -/
def byteEvents : Count → List Bool → List Byte → List Event
  | _, _, [] => []
  | i, bits, b :: bytes =>
    .read (.byte b) :: .beat (.byte i (BitVec.ofNat 8 (bitsVal ((bits ++ byteBits b).take 8)))) ::
      byteEvents (i + 1) ((bits ++ byteBits b).drop 8) bytes

/-- A field descriptor of a supported kind (R69). -/
structure FieldSpec where
  /-- KIND. -/
  kind : Width
  /-- SKIP. -/
  skip : Bool
  /-- WIDTH. -/
  width : Size
deriving DecidableEq, Repr

/-- The descriptor word. -/
def FieldSpec.word (f : FieldSpec) : Word := encode (.field f.kind f.skip f.width)

/-- The bits a schema consumes (R127: skip fields too). -/
def schemaBits (fs : List FieldSpec) : Nat := (fs.map fun f => f.width.toNat).sum

/-- The slots a schema fills (R128). -/
def schemaSlots (fs : List FieldSpec) : Nat := fs.countP fun f => !f.skip

/-- The events of a record from slot `j` on, with the pending bits `bits` and a source that answers `bytes`: for each
field its reads, and then, for a data field, the slot that holds its slice of the bit string (R127, R128). -/
def recordEvents : List FieldSpec → FieldIndex → List Bool → List Byte → List Event
  | [], _, _, _ => []
  | f :: fs, j, bits, bytes =>
    let n := f.width.toNat
    let r := readsFor n bits.length
    let avail := bits ++ (bytes.take r).flatMap byteBits
    readEvents (bytes.take r) ++
      ((if f.skip then [] else [.beat (.slot j f.kind (valueOf (avail.take n)))]) ++
        recordEvents fs (if f.skip then j else j + 1) (avail.drop n) (bytes.drop r))

/-! ### Hidden state, bounds and duties -/

/-- The part of the state that is not hidden at a command position: all but S and the scratch registers (R25, R31). -/
def State.observed (s : State) :
    Byte × BitVec 3 × Mode × Work × Bool × List Word × List Answer × Bool × Ready × Ready × List Event :=
  (s.l, s.v, s.mode, s.work, s.rst, s.cmd, s.src, s.late, s.outReady, s.rspReady, s.trace)

/-- Two states that differ at most in S and in scratch registers that the command in progress has no use for (R25,
R31, I9, I10): ACC and NACC matter inside an extraction, BC inside an XBYTES, and FI, NF and SC inside a POPULATE. -/
def Alike (s t : State) : Prop :=
  s.observed = t.observed ∧
    match s.work with
    | .boundary => s.mode = .pop → s.fi = t.fi ∧ s.nf = t.nf ∧ s.sc = t.sc
    | .extract .xbits _ _ => s.acc = t.acc ∧ s.nacc = t.nacc
    | .extract (.field _ _) _ _ => s.acc = t.acc ∧ s.nacc = t.nacc ∧ s.fi = t.fi ∧ s.nf = t.nf ∧ s.sc = t.sc
    | .byteRead _ => s.bc = t.bc
    | .byteBeat _ _ => s.bc = t.bc
    | .slotBeat _ _ _ => s.fi = t.fi ∧ s.nf = t.nf ∧ s.sc = t.sc
    | .drain _ _ => True
    | .respond _ => True

/-- The bound of R172 on the source reads of an instruction from `v` pending bits. -/
def readBound (v : Nat) : Instr → Nat
  | .xbits8 n => if sizeBad .w8 n then 0 else readsFor n.toNat v
  | .xbits16 n => if sizeBad .w16 n then 0 else readsFor n.toNat v
  | .xbits32 n => if sizeBad .w32 n then 0 else readsFor n.toNat v
  | .xbits64 n => if sizeBad .w64 n then 0 else readsFor n.toNat v
  | .xbytes n => n.toNat
  | .populate _ => 0
  | .clear => 0
  | .fieldU8 _ n => if sizeBad .w8 n then 0 else readsFor n.toNat v
  | .fieldU16 _ n => if sizeBad .w16 n then 0 else readsFor n.toNat v
  | .fieldU32 _ n => if sizeBad .w32 n then 0 else readsFor n.toNat v
  | .fieldU64 _ n => if sizeBad .w64 n then 0 else readsFor n.toNat v
  | .fieldKbad _ _ _ => 0

/-- The descriptor words that follow the one being executed (R120). -/
def State.wordsAfter (s : State) : Nat := s.nf.toNat - s.fi.toNat - 1

/-- The source reads that the command in progress can still make, its outstanding one among them (R172). -/
def State.readsLeft (s : State) : Nat :=
  match s.work with
  | .boundary => 0
  | .extract _ _ cs => readsFor cs.sum s.v.toNat
  | .byteRead n => n.toNat - s.bc.toNat
  | .byteBeat n _ => n.toNat - s.bc.toNat - 1
  | .slotBeat _ _ _ => 0
  | .drain _ _ => 0
  | .respond _ => 0

/-- The descriptor words that the instruction in progress consumes if it stops its POPULATE (R130). -/
def State.wordsLeft (s : State) : Nat :=
  match s.work with
  | .boundary => 0
  | .extract .xbits _ _ => 0
  | .extract (.field _ _) _ _ => s.wordsAfter
  | .byteRead _ => 0
  | .byteBeat _ _ => 0
  | .slotBeat _ _ _ => s.wordsAfter
  | .drain left _ => left
  | .respond _ => 0

/-- What the outside world owes the command in progress for it to end (R169, R170, R173): the host takes every beat
and response, no abandoned read is outstanding, the source answers the reads still to be made, and the host has sent
the descriptor words a stopped POPULATE consumes. -/
def dutiesMet (s : State) : Bool :=
  s.outReady = .always && s.rspReady = .always && !s.late && !s.rst &&
    decide (s.readsLeft ≤ s.src.length) && decide (s.wordsLeft ≤ s.cmd.length)

/-- The host's readiness after it gets ready for `more` items in addition. -/
def Ready.add : Ready → Ready → Ready
  | .always, _ => .always
  | .upTo _, .always => .always
  | .upTo m, .upTo n => .upTo (m + n)

/-- The state with more of what the outside world gives (R173): answers of the source, words of the command stream, and
readiness for beats and for responses. -/
def State.supply (s : State) (as : List Answer) (ws : List Word) (out rsp : Ready) : State :=
  { s with src := s.src ++ as, cmd := s.cmd ++ ws, outReady := s.outReady.add out, rspReady := s.rspReady.add rsp }

/-- What the consumption of a word at position `p` leaves: the rest of the command stream, and the acceptance of a
command in the trace (R34, R56). -/
def State.consumed (s : State) (p : Position) (w : Word) (rest : List Word) : State :=
  match p with
  | .command => { s with cmd := rest, trace := s.trace ++ [.command w] }
  | .descriptor => { s with cmd := rest }

end Sys2Proof.Machine
end

