-- ==== Sys2Proof/Certificates/Slice0/Obligations.lean ====
section
/-!
DEFINITION. The statements for the provers, in the order of OBLIGATIONS.json. Each docstring names the rule of spec/
that the statement formalises, or the rules it is derived from.
-/

open Sys2Proof Sys2Proof.Machine

/-! ### Reset -/

/-- R30: every register right after reset. The core is then at a command position (R161). -/
def Obligations.ResetGivesStatedValues : Prop :=
  State.reset.l = 0x00 ∧ State.reset.v = 0 ∧ State.reset.started = false ∧ State.reset.mode = .idle ∧
    State.reset.fi = 0 ∧ State.reset.nf = 0 ∧ State.reset.sc = 0 ∧ State.reset.bc = 0 ∧
    State.reset.acc = 0 ∧ State.reset.nacc = 0 ∧
    State.reset.position = some .command

/-- The state after reset meets the four invariants of this file. -/
def Obligations.ResetMeetsEveryInvariant : Prop :=
  CursorInv State.reset ∧ StartedInv State.reset ∧ ControlInv State.reset ∧ BalanceInv State.reset

/-- R160: a step with `rst` asserted gives every register its reset value, abandons the command in progress without a
beat or a response, leaves the words not yet consumed in the command stream, at a command position, where every
descriptor word is illegal, and discards the answer of an outstanding read: at once if it has arrived, and when it
arrives if not. That the discarded answer is an event, and which reads are outstanding at a reset, are the model's
choices (log entries 8, 9 and 18). -/
def Obligations.ResetAbandonsTheCommand : Prop :=
  (∀ s : State, s.rst = true → ∃ t, step s = .next t ∧
    t.l = 0x00 ∧ t.v = 0 ∧ t.started = false ∧ t.mode = .idle ∧ t.fi = 0 ∧ t.nf = 0 ∧ t.sc = 0 ∧ t.bc = 0 ∧
    t.acc = 0 ∧ t.nacc = 0 ∧ t.position = some .command ∧ t.cmd = s.cmd ∧
    t.outReady = s.outReady ∧ t.rspReady = s.rspReady ∧
    (s.awaitsRead = false → s.late = false → t.src = s.src ∧ t.late = false ∧ t.trace = s.trace) ∧
    ((s.awaitsRead = true ∨ s.late = true) → s.src = [] → t.src = [] ∧ t.late = true ∧ t.trace = s.trace) ∧
    (∀ a rest, (s.awaitsRead = true ∨ s.late = true) → s.src = a :: rest →
      t.src = rest ∧ t.late = false ∧ t.trace = s.trace ++ [.read a])) ∧
  ∀ d : Word, bitField d 31 28 = 0xD → illegalCommandWord d = true

/-- R160: out of reset, the answer of an abandoned read is discarded when it arrives: a step then is the step from the
state without it, whether the core waits inside a command, is at a word or has no word. Until then no read is made, so a
command that needs a byte waits: the model's reading of R42, by which at most one read is outstanding (log entry 8). That
the discarded answer is an event is the model's choice too (log entry 9). -/
def Obligations.LateAnswerIsDiscarded : Prop :=
  (∀ (s : State) (a : Answer) (rest : List Answer), s.late = true → s.src = a :: rest →
    dropLate s = { s with src := rest, late := false, trace := s.trace ++ [.read a] }) ∧
  (∀ (s : State) (a : Answer) (rest : List Answer), s.rst = false → s.late = true → s.src = a :: rest →
    step s = step { s with src := rest, late := false, trace := s.trace ++ [.read a] }) ∧
  ∀ (s : State) (n : Nat), s.late = true → s.v.toNat < n → p8 n s = (.wait, s)

/-! ### Decoding -/

/-- When the word at the core's position decodes to an instruction, that instruction is well formed and a step runs it,
after the word is consumed and a late answer, if one has arrived, discarded (R56, R79, R121; log entries 8, 9 and 13). -/
def Obligations.StepRunsDecodedInstruction : Prop :=
  ∀ (s : State) (p : Position) (w : Word) (rest : List Word) (i : Instr),
    s.rst = false → s.position = some p → s.cmd = w :: rest → decode w = .ok i →
    i.WellFormed ∧ step s = exec i ((dropLate s).consumed p w rest)

/-- Words written out from the layouts of R63 to R69 decode to the instructions they stand for, one of each row. -/
def Obligations.SampleWordsDecode : Prop :=
  decode 0x10000003 = .ok (.xbits8 3) ∧ decode 0x1100000A = .ok (.xbits16 10) ∧
  decode 0x12000014 = .ok (.xbits32 20) ∧ decode 0x1300007F = .ok (.xbits64 127) ∧
  decode 0x20FFFFFF = .ok (.xbytes 0xFFFFFF) ∧ decode 0x30000009 = .ok (.populate 9) ∧
  decode 0x40000000 = .ok .clear ∧ decode 0xD0000807 = .ok (.fieldU8 true 7) ∧
  decode 0xD000010A = .ok (.fieldU16 false 10) ∧ decode 0xD0000216 = .ok (.fieldU32 false 22) ∧
  decode 0xD0000340 = .ok (.fieldU64 false 64) ∧ decode 0xD0000503 = .ok (.fieldKbad 5 false 3)

/-- Decoding the word of a well-formed instruction gives it back, with every operand at every value. -/
def Obligations.DecodeOfEncodeIsTheInstruction : Prop :=
  ∀ i : Instr, i.WellFormed → decode (encode i) = .ok i

/-- Every word that decodes is the word of the instruction it decodes to, and that instruction is well formed. -/
def Obligations.EncodeOfDecodeIsTheWord : Prop :=
  ∀ (w : Word) (i : Instr), decode w = .ok i → i.WellFormed ∧ encode i = w

/-- R80: a word matches a row of the opcode map exactly when it decodes to an instruction of that row. -/
def Obligations.DecodeFollowsOpcodeMap : Prop :=
  ∀ row ∈ opcodeMap, ∀ w : Word, w &&& row.2.2 = row.2.1 ↔ ∃ i, decode w = .ok i ∧ mnemonic i = row.1

/-- R73: every word is one of the legal forms or illegal by R71 or R72. At a command position a word is legal exactly
when it decodes to a command; at a descriptor position, exactly when it decodes to a descriptor. -/
def Obligations.EveryWordIsLegalOrIllegal : Prop :=
  ∀ w : Word,
    (illegalCommandWord w = false ↔ ∃ i, decode w = .ok i ∧ isDescriptor i = false) ∧
    (illegalDescriptorWord w = false ↔ ∃ i, decode w = .ok i ∧ isDescriptor i = true)

/-- R71: an illegal word at a command position is consumed, and its response is ILLEGAL_COMMAND. No source byte is
read, no beat is emitted and no register changes, and the next word is at a command position. -/
def Obligations.IllegalCommandWordOnlyResponds : Prop :=
  ∀ (s : State) (c : Word) (rest : List Word) (q : Ready),
    s.rst = false → s.late = false → s.position = some .command → s.cmd = c :: rest →
    illegalCommandWord c = true → s.rspReady.take = some q →
    step s = .next { s with
      cmd := rest
      rspReady := q
      trace := s.trace ++ [.command c, .response { status := .illegalCommand }] }

/-- R72: an illegal word at a descriptor position ends its POPULATE with ILLEGAL_COMMAND when the sequencer reaches it,
and the rest of the NFIELDS words are consumed (R130). Nothing else changes. -/
def Obligations.IllegalDescriptorStopsPopulate : Prop :=
  ∀ (s : State) (d : Word) (skipped rest : List Word) (q : Ready),
    s.rst = false → s.late = false → s.position = some .descriptor → s.cmd = d :: (skipped ++ rest) →
    illegalDescriptorWord d = true → skipped.length = s.wordsAfter → s.rspReady.take = some q →
    step s = .next { s with
      mode := .idle
      cmd := rest
      rspReady := q
      trace := s.trace ++
        [.response { status := .illegalCommand, count := s.sc.setWidth 24, field := s.fi }] }

/-! ### P8 -/

/-- R90: when the request is no longer than the pending bits, P8 serves it from L and reads nothing. -/
def Obligations.P8ServesFromLeftover : Prop :=
  ∀ (n : Nat) (s : State), 1 ≤ n → n ≤ 8 → n ≤ s.v.toNat →
    p8 n s = (.ok (BitVec.ofNat 8 (s.l.toNat >>> (8 - n))),
      { s with l := BitVec.ofNat 8 (s.l.toNat <<< n), v := BitVec.ofNat 3 (s.v.toNat - n) })

/-- R91: when the request is longer and the source answers a byte, P8 joins the pending bits with its top k = n − V
bits, keeps its low 8 − k bits, and sets S. -/
def Obligations.P8PullsOneByte : Prop :=
  ∀ (n : Nat) (s : State) (b : Byte) (rest : List Answer), n ≤ 8 → s.v.toNat < n → s.late = false →
    s.src = .byte b :: rest →
    p8 n s =
      (.ok (BitVec.ofNat 8 (((s.l.toNat >>> (8 - s.v.toNat)) <<< (n - s.v.toNat)) |||
          (b.toNat >>> (8 - (n - s.v.toNat))))),
        { s with
          l := BitVec.ofNat 8 (b.toNat <<< (n - s.v.toNat))
          v := BitVec.ofNat 3 (8 - (n - s.v.toNat))
          started := true
          src := rest
          trace := s.trace ++ [.read (.byte b)] })

/-- R92: at end of input P8 returns the pending bits as the top bits of an n-bit value, with their number, and empties
the cursor. S is unchanged. -/
def Obligations.P8EmptiesCursorAtEof : Prop :=
  ∀ (n : Nat) (s : State) (rest : List Answer), n ≤ 8 → s.v.toNat < n → s.late = false → s.src = .eof :: rest →
    p8 n s =
      (.exhausted (BitVec.ofNat 8 (s.l.toNat >>> (8 - n))) (BitVec.ofNat 7 s.v.toNat),
        { s with l := 0, v := 0, src := rest, trace := s.trace ++ [.read .eof] })

/-- R93: on a source error P8 returns the error and empties the cursor. S is unchanged. -/
def Obligations.P8EmptiesCursorOnSourceError : Prop :=
  ∀ (n : Nat) (s : State) (e : SrcErr) (rest : List Answer), n ≤ 8 → s.v.toNat < n → s.late = false →
    s.src = .err e :: rest →
    p8 n s = (.sourceError e, { s with l := 0, v := 0, src := rest, trace := s.trace ++ [.read (.err e)] })

/-- R43: P8 makes no read when the request is no longer than the pending bits, and exactly one, answered by the source's
next answer, when it is. While that read has no answer, nothing happens. Nor does it, whatever answers there are, while a
read that a reset abandoned is unanswered (`late`): that is no part of R43 but the model's choice (log entry 8). -/
def Obligations.P8MakesOneReadWhenShort : Prop :=
  ∀ (n : Nat) (s : State), 1 ≤ n → n ≤ 8 →
    (n ≤ s.v.toNat → (p8 n s).2.trace = s.trace ∧ (p8 n s).2.src = s.src) ∧
    (∀ a rest, s.v.toNat < n → s.late = false → s.src = a :: rest →
      (p8 n s).2.trace = s.trace ++ [.read a] ∧ (p8 n s).2.src = rest) ∧
    (s.v.toNat < n → s.late = true ∨ s.src = [] → p8 n s = (.wait, s))

/-! ### XBITS -/

/-- R95: a size of 0, or above the width, ends SIZE_OVERFLOW before any read, and writes no register. -/
def Obligations.SizeOverflowBeforeAnyRead : Prop :=
  ∀ (w : Width) (size : Size) (s : State) (q : Ready),
    s.position = some .command → s.rspReady.take = some q → size.toNat = 0 ∨ w.bits < size.toNat →
    exec (.xbits w size) s = .next { s with
      rspReady := q
      trace := s.trace ++ [.response { status := .sizeOverflow, value := 0, nvalid := 0 }] }

/-- R102, law 1, for the four XBITS (R96 to R99): when the source answers enough bytes, the extraction ends OK. Its
value is the first `size` bits of the bit string A = P ++ b0 ++ b1 ++ …; it makes ⌈(size − V)/8⌉ reads; the cursor holds
the rest of A; and nothing else changes but S, ACC, NACC and the streams. -/
def Obligations.XbitsReturnsLeadingBits : Prop :=
  ∀ (w : Width) (size : Size) (s : State) (bytes : List Byte) (rest : List Answer) (q : Ready),
    s.position = some .command → CursorInv s → s.late = false → s.rspReady.take = some q →
    1 ≤ size.toNat → size.toNat ≤ w.bits →
    s.src = bytes.map .byte ++ rest → bytes.length = readsFor size.toNat s.v.toNat →
    exec (.xbits w size) s = .next
      { s.holding ((s.available bytes).drop size.toNat) with
        started := s.started || !bytes.isEmpty
        acc := valueOf ((s.available bytes).take size.toNat)
        nacc := size
        src := rest
        rspReady := q
        trace := s.trace ++ readEvents bytes ++
          [.response { status := .ok, value := valueOf ((s.available bytes).take size.toNat), nvalid := size }] }

/-- R102, law 2, for the four XBITS: when an Eof comes first, the extraction ends EXHAUSTED. Its value is the available
bits followed by zero bits, NVALID is their number, and the cursor is left empty. ACC depends on the plan (I8). -/
def Obligations.XbitsExhaustedReturnsAvailableBits : Prop :=
  ∀ (w : Width) (size : Size) (s : State) (bytes : List Byte) (rest : List Answer) (q : Ready),
    s.position = some .command → CursorInv s → s.late = false → s.rspReady.take = some q →
    size.toNat ≤ w.bits → s.src = bytes.map .byte ++ .eof :: rest →
    (s.available bytes).length < size.toNat →
    ∃ acc, exec (.xbits w size) s = .next
      { s with
        l := 0
        v := 0
        started := s.started || !bytes.isEmpty
        acc := acc
        nacc := BitVec.ofNat 7 (s.available bytes).length
        src := rest
        rspReady := q
        trace := s.trace ++ readEvents bytes ++
          [.read .eof, .response {
            status := .exhausted
            value := BitVec.ofNat 64 (bitsVal (s.available bytes) <<< (size.toNat - (s.available bytes).length))
            nvalid := BitVec.ofNat 7 (s.available bytes).length }] }

/-- R102, law 3, for the four XBITS: when an error comes first, the extraction ends SOURCE_ERROR with the source's code,
VALUE and NVALID 0, and the cursor is left empty. ACC and NACC depend on the plan (I8). -/
def Obligations.XbitsSourceErrorLosesPendingBits : Prop :=
  ∀ (w : Width) (size : Size) (s : State) (bytes : List Byte) (e : SrcErr) (rest : List Answer) (q : Ready),
    s.position = some .command → CursorInv s → s.late = false → s.rspReady.take = some q →
    size.toNat ≤ w.bits → s.src = bytes.map .byte ++ .err e :: rest →
    (s.available bytes).length < size.toNat →
    ∃ acc nacc, exec (.xbits w size) s = .next
      { s with
        l := 0
        v := 0
        started := s.started || !bytes.isEmpty
        acc := acc
        nacc := nacc
        src := rest
        rspReady := q
        trace := s.trace ++ readEvents bytes ++
          [.read (.err e), .response { status := .sourceError, value := 0, nvalid := 0, srcerr := e }] }

/-- R169, for the four XBITS: while the source has answered too few bytes the command waits with a read outstanding:
it is not over, and what it did so far stands. So it does while a read that a reset abandoned is unanswered, which is the
model's choice (log entries 8 and 17: no second read is requested then). -/
def Obligations.XbitsWaitsForTheSource : Prop :=
  ∀ (w : Width) (size : Size) (s : State) (bytes : List Byte),
    s.position = some .command → CursorInv s → size.toNat ≤ w.bits →
    (s.late = true ∧ bytes = [] ∨ s.late = false ∧ s.src = bytes.map .byte) →
    (s.available bytes).length < size.toNat →
    ∃ t cs, exec (.xbits w size) s = .next t ∧ t.work = .extract .xbits size cs ∧ t.mode = .xbits ∧
      t.position = none ∧ t.awaitsRead = true ∧ t.srcReq = (!s.late && !s.rst) ∧
      t.trace = s.trace ++ readEvents bytes ∧
      (s.late = false → t.src = []) ∧ t.cmd = s.cmd

/-- R102, law 4: two plans of chunks of 1 to 8 bits for one request give the same result (status, value, NVALID), the
same reads and the same L, V and S, unless both wait for the source, and then after the same reads. -/
def Obligations.ChunkPlanIsUnobservable : Prop :=
  ∀ (cs ds : List Nat) (s : State), CursorInv s →
    (∀ c ∈ cs, 1 ≤ c ∧ c ≤ 8) → (∀ d ∈ ds, 1 ≤ d ∧ d ≤ 8) → cs.sum = ds.sum →
    (xwLoop cs s).2.src = (xwLoop ds s).2.src ∧ (xwLoop cs s).2.trace = (xwLoop ds s).2.trace ∧
      ((∃ left right, (xwLoop cs s).1 = .wait left ∧ (xwLoop ds s).1 = .wait right) ∨
        (xwLoop cs s).1 = (xwLoop ds s).1 ∧ (xwLoop cs s).2.l = (xwLoop ds s).2.l ∧
          (xwLoop cs s).2.v = (xwLoop ds s).2.v ∧ (xwLoop cs s).2.started = (xwLoop ds s).2.started)

/-- R102, law 5: two OK extractions of m and then n bits return values whose composition is the value of one extraction
of m + n bits from the same start, and they end in the same L and V, after the same reads. -/
def Obligations.SplitExtractionsCompose : Prop :=
  ∀ (w₁ w₂ w : Width) (m n k : Size) (s : State) (bytes : List Byte) (rest : List Answer) (q : Ready),
    s.position = some .command → CursorInv s → s.late = false → s.rspReady.takeN 2 = some q →
    1 ≤ m.toNat → m.toNat ≤ w₁.bits → 1 ≤ n.toNat → n.toNat ≤ w₂.bits →
    k.toNat = m.toNat + n.toNat → k.toNat ≤ w.bits →
    s.src = bytes.map .byte ++ rest → bytes.length = readsFor k.toNat s.v.toNat →
    ∃ t₁ t₂ t r₁ r₂ r, exec (.xbits w₁ m) s = .next t₁ ∧ exec (.xbits w₂ n) t₁ = .next t₂ ∧
      exec (.xbits w k) s = .next t ∧
      t₁.trace.getLast? = some (.response r₁) ∧ t₂.trace.getLast? = some (.response r₂) ∧
      t.trace.getLast? = some (.response r) ∧ r₁.status = .ok ∧ r₂.status = .ok ∧ r.status = .ok ∧
      r.value = (r₁.value <<< n.toNat) ||| r₂.value ∧
      t₂.l = t.l ∧ t₂.v = t.v ∧ t₂.src = t.src ∧ t.src = rest

/-- R103, for one XBITS that ends OK or EXHAUSTED: the pending bits and the bits of the bytes it obtained are exactly
the NVALID bits it returns and the bits it leaves pending. -/
def Obligations.XbitsConservesBits : Prop :=
  ∀ (w : Width) (size : Size) (s t : State) (r : Response),
    s.position = some .command → CursorInv s → exec (.xbits w size) s = .next t → t.position = some .command →
    t.trace.getLast? = some (.response r) → r.status = .ok ∨ r.status = .exhausted →
    s.v.toNat + 8 * t.byteReads = r.nvalid.toNat + t.v.toNat + 8 * s.byteReads

/-- R44: an Eof is not remembered. After an XBITS.8 that ends EXHAUSTED, the next one reads again, and if the source then
gives a byte it returns that byte whole (R167: nothing pending is carried over). -/
def Obligations.EofIsNotSticky : Prop :=
  ∀ (n : Size) (s : State) (b : Byte) (rest : List Answer) (q : Ready),
    s.position = some .command → s.late = false → s.rspReady.takeN 2 = some q →
    s.v.toNat < n.toNat → n.toNat ≤ 8 → s.src = .eof :: .byte b :: rest →
    ∃ t u, exec (.xbits8 n) s = .next t ∧ exec (.xbits8 8) t = .next u ∧ t.src = .byte b :: rest ∧ u.src = rest ∧
      u.trace = t.trace ++ [.read (.byte b), .response { status := .ok, value := b.setWidth 64, nvalid := 8 }] ∧
      u.v = 0

/-! ### XBYTES -/

/-- R100, when the source answers every read with a byte: `n` reads, `n` beats, each beat after its read and before the
next, byte i being bits 8i to 8i+7 of A; V is unchanged, and the response is OK with COUNT n. -/
def Obligations.XbytesEmitsEveryByte : Prop :=
  ∀ (n : Count) (s : State) (bytes : List Byte) (rest : List Answer) (q q' : Ready),
    s.position = some .command → CursorInv s → s.late = false → s.outReady.takeN n.toNat = some q →
    s.rspReady.take = some q' → s.src = bytes.map .byte ++ rest → bytes.length = n.toNat →
    exec (.xbytes n) s = .next
      { s.holding ((s.available bytes).drop (8 * n.toNat)) with
        started := s.started || !bytes.isEmpty
        bc := n
        src := rest
        outReady := q
        rspReady := q'
        trace := s.trace ++ byteEvents 0 s.pending bytes ++ [.response { status := .ok, count := n }] }

/-- R100, when an Eof comes after fewer than `n` bytes: the bytes completed before it are emitted, and the response is
EXHAUSTED with their COUNT, the V pending bits at the top of an 8-bit VALUE, and NVALID V. The cursor is left empty. -/
def Obligations.XbytesExhaustedKeepsPrefix : Prop :=
  ∀ (n : Count) (s : State) (bytes : List Byte) (rest : List Answer) (q q' : Ready),
    s.position = some .command → CursorInv s → s.late = false → s.outReady.takeN bytes.length = some q →
    s.rspReady.take = some q' → s.src = bytes.map .byte ++ .eof :: rest → bytes.length < n.toNat →
    exec (.xbytes n) s = .next
      { s with
        l := 0
        v := 0
        started := s.started || !bytes.isEmpty
        bc := BitVec.ofNat 24 bytes.length
        src := rest
        outReady := q
        rspReady := q'
        trace := s.trace ++ byteEvents 0 s.pending bytes ++
          [.read .eof, .response {
            status := .exhausted
            value := BitVec.ofNat 64 (bitsVal ((s.available bytes).drop (8 * bytes.length)) <<< (8 - s.v.toNat))
            nvalid := BitVec.ofNat 7 s.v.toNat
            count := BitVec.ofNat 24 bytes.length }] }

/-- R100, when an error comes after fewer than `n` bytes: the bytes completed before it are emitted, and the response is
SOURCE_ERROR with their COUNT and the source's code. The cursor is left empty. -/
def Obligations.XbytesSourceErrorKeepsPrefix : Prop :=
  ∀ (n : Count) (s : State) (bytes : List Byte) (e : SrcErr) (rest : List Answer) (q q' : Ready),
    s.position = some .command → CursorInv s → s.late = false → s.outReady.takeN bytes.length = some q →
    s.rspReady.take = some q' → s.src = bytes.map .byte ++ .err e :: rest → bytes.length < n.toNat →
    exec (.xbytes n) s = .next
      { s with
        l := 0
        v := 0
        started := s.started || !bytes.isEmpty
        bc := BitVec.ofNat 24 bytes.length
        src := rest
        outReady := q
        rspReady := q'
        trace := s.trace ++ byteEvents 0 s.pending bytes ++
          [.read (.err e), .response {
            status := .sourceError
            count := BitVec.ofNat 24 bytes.length
            srcerr := e }] }

/-- R102, law 6: from V = 0, the beats of one OK XBYTES are the source's bytes, unchanged and in order. -/
def Obligations.AlignedXbytesIsTheIdentity : Prop :=
  ∀ (n : Count) (s : State) (bytes : List Byte) (rest : List Answer) (q q' : Ready),
    s.position = some .command → CursorInv s → s.late = false → s.v = 0 → s.outReady.takeN n.toNat = some q →
    s.rspReady.take = some q' → s.src = bytes.map .byte ++ rest → bytes.length = n.toNat →
    ∃ t, exec (.xbytes n) s = .next t ∧ t.v = 0 ∧
      (t.trace.drop s.trace.length).filter Event.isBeat =
        bytes.mapIdx fun i b => .beat (.byte (BitVec.ofNat 24 i) b)

/-! ### CLEAR -/

/-- R101: CLEAR is the word 0x40000000; it empties the cursor and clears S, makes no read, and responds OK. -/
def Obligations.ClearEmptiesTheCursor : Prop :=
  encode .clear = 0x40000000 ∧
  ∀ (s : State) (q : Ready), s.position = some .command → s.rspReady.take = some q →
    exec .clear s = .next { s with
      l := 0
      v := 0
      started := false
      rspReady := q
      trace := s.trace ++ [.response { status := .ok }] }

/-! ### POPULATE and the FIELD descriptors -/

/-- R120, the header of a POPULATE of at least one field: NF, FI and SC are set, the cursor stays as it is (R133), and
the next word is at a descriptor position. -/
def Obligations.PopulateStartsTheSequencer : Prop :=
  ∀ (n : FieldIndex) (s : State), s.position = some .command → n ≠ 0 →
    exec (.populate n) s = .next { s with mode := .pop, nf := n, fi := 0, sc := 0 } ∧
      ({ s with mode := .pop, nf := n, fi := 0, sc := 0 } : State).position = some .descriptor

/-- R131: a POPULATE of no field makes no read, emits no beat, and responds OK with COUNT 0 and FIELD 0. -/
def Obligations.EmptyPopulateResponds : Prop :=
  ∀ (s : State) (q : Ready), s.position = some .command → s.rspReady.take = some q →
    exec (.populate 0) s = .next { s with
      nf := 0
      fi := 0
      sc := 0
      rspReady := q
      trace := s.trace ++ [.response { status := .ok, count := 0, field := 0 }] }

/-- R121, for the four supported kinds (R122 to R125), when the source answers enough bytes and descriptors follow: the
field takes the first bits of A, a data field emits them as slot SC and advances SC, and FI advances by 1. -/
def Obligations.FieldTakesLeadingBits : Prop :=
  ∀ (k : Width) (skip : Bool) (w : Size) (s : State) (bytes : List Byte) (rest : List Answer) (q : Ready),
    s.position = some .descriptor → CursorInv s → s.late = false → s.fi + 1 < s.nf →
    s.outReady.takeN (if skip then 0 else 1) = some q → 1 ≤ w.toNat → w.toNat ≤ k.bits →
    s.src = bytes.map .byte ++ rest → bytes.length = readsFor w.toNat s.v.toNat →
    exec (.field k skip w) s = .next
      { s.holding ((s.available bytes).drop w.toNat) with
        started := s.started || !bytes.isEmpty
        acc := valueOf ((s.available bytes).take w.toNat)
        nacc := w
        fi := s.fi + 1
        sc := if skip then s.sc else s.sc + 1
        src := rest
        outReady := q
        trace := s.trace ++ readEvents bytes ++
          if skip then [] else [.beat (.slot s.sc k (valueOf ((s.available bytes).take w.toNat)))] }

/-- R120 and R129, the last descriptor of a POPULATE whose fields all end OK: as any field, and then the response is OK
with FIELD NF and COUNT the number of slots. -/
def Obligations.LastFieldEndsPopulate : Prop :=
  ∀ (k : Width) (skip : Bool) (w : Size) (s : State) (bytes : List Byte) (rest : List Answer) (q q' : Ready),
    s.position = some .descriptor → CursorInv s → s.late = false → s.fi + 1 = s.nf →
    s.outReady.takeN (if skip then 0 else 1) = some q → s.rspReady.take = some q' →
    1 ≤ w.toNat → w.toNat ≤ k.bits →
    s.src = bytes.map .byte ++ rest → bytes.length = readsFor w.toNat s.v.toNat →
    exec (.field k skip w) s = .next
      { s.holding ((s.available bytes).drop w.toNat) with
        started := s.started || !bytes.isEmpty
        acc := valueOf ((s.available bytes).take w.toNat)
        nacc := w
        mode := .idle
        fi := s.nf
        sc := if skip then s.sc else s.sc + 1
        src := rest
        outReady := q
        rspReady := q'
        trace := s.trace ++ readEvents bytes ++
          (if skip then [] else [.beat (.slot s.sc k (valueOf ((s.available bytes).take w.toNat)))]) ++
          [.response {
            status := .ok
            count := (if skip then s.sc else s.sc + 1).setWidth 24
            field := s.nf }] }

/-- R121 and R142, a field during which an Eof comes: a data field still gets its partial value as a slot, the response
is EXHAUSTED with FIELD FI and the number of valid bits, and the words after it are consumed (R130). -/
def Obligations.ExhaustedFieldStopsPopulate : Prop :=
  ∀ (k : Width) (skip : Bool) (w : Size) (s : State) (bytes : List Byte) (rest : List Answer)
    (skipped words : List Word) (q q' : Ready),
    s.position = some .descriptor → CursorInv s → s.late = false →
    s.outReady.takeN (if skip then 0 else 1) = some q → s.rspReady.take = some q' → w.toNat ≤ k.bits →
    s.src = bytes.map .byte ++ .eof :: rest → (s.available bytes).length < w.toNat →
    s.cmd = skipped ++ words → skipped.length = s.wordsAfter →
    ∃ acc, exec (.field k skip w) s = .next
      { s with
        l := 0
        v := 0
        started := s.started || !bytes.isEmpty
        acc := acc
        nacc := BitVec.ofNat 7 (s.available bytes).length
        mode := .idle
        sc := if skip then s.sc else s.sc + 1
        cmd := words
        src := rest
        outReady := q
        rspReady := q'
        trace := s.trace ++ readEvents bytes ++ [.read .eof] ++
          (if skip then [] else [.beat (.slot s.sc k
            (BitVec.ofNat 64 (bitsVal (s.available bytes) <<< (w.toNat - (s.available bytes).length))))]) ++
          [.response {
            status := .exhausted
            nvalid := BitVec.ofNat 7 (s.available bytes).length
            count := (if skip then s.sc else s.sc + 1).setWidth 24
            field := s.fi }] }

/-- R121 and R144, a field during which the source fails: no slot, the response is SOURCE_ERROR with the source's code
and FIELD FI, and the words after it are consumed (R130). -/
def Obligations.FieldSourceErrorStopsPopulate : Prop :=
  ∀ (k : Width) (skip : Bool) (w : Size) (s : State) (bytes : List Byte) (e : SrcErr) (rest : List Answer)
    (skipped words : List Word) (q : Ready),
    s.position = some .descriptor → CursorInv s → s.late = false → s.rspReady.take = some q → w.toNat ≤ k.bits →
    s.src = bytes.map .byte ++ .err e :: rest → (s.available bytes).length < w.toNat →
    s.cmd = skipped ++ words → skipped.length = s.wordsAfter →
    ∃ acc nacc, exec (.field k skip w) s = .next
      { s with
        l := 0
        v := 0
        started := s.started || !bytes.isEmpty
        acc := acc
        nacc := nacc
        mode := .idle
        cmd := words
        src := rest
        rspReady := q
        trace := s.trace ++ readEvents bytes ++
          [.read (.err e), .response {
            status := .sourceError
            count := s.sc.setWidth 24
            field := s.fi
            srcerr := e }] }

/-- R121 and R141, a field whose width is 0 or above its kind's capacity, skip fields too: SIZE_OVERFLOW with FIELD FI
before any read, and the words after it are consumed (R130). No other register changes. -/
def Obligations.FieldSizeOverflowStopsPopulate : Prop :=
  ∀ (k : Width) (skip : Bool) (w : Size) (s : State) (skipped words : List Word) (q : Ready),
    s.position = some .descriptor → s.rspReady.take = some q → w.toNat = 0 ∨ k.bits < w.toNat →
    s.cmd = skipped ++ words → skipped.length = s.wordsAfter →
    exec (.field k skip w) s = .next
      { s with
        mode := .idle
        cmd := words
        rspReady := q
        trace := s.trace ++
          [.response { status := .sizeOverflow, count := s.sc.setWidth 24, field := s.fi }] }

/-- R126: a descriptor of an unsupported kind, the word 0xD0000400 | (KIND−4)<<8 | k<<11 | w, ends UNSUPPORTED_KIND,
whatever its width and its skip flag: no read, no slot, and FI, SC and the cursor unchanged. The words after it are
consumed (R130). -/
def Obligations.UnsupportedKindStopsPopulate : Prop :=
  (∀ (kind : BitVec 3) (skip : Bool) (w : Size), 4 ≤ kind.toNat →
    (encode (.fieldKbad kind skip w)).toNat =
      0xD0000400 + (kind.toNat - 4) * 2 ^ 8 + skip.toNat * 2 ^ 11 + w.toNat) ∧
  ∀ (kind : BitVec 3) (skip : Bool) (w : Size) (s : State) (skipped words : List Word) (q : Ready),
    s.position = some .descriptor → s.rspReady.take = some q →
    s.cmd = skipped ++ words → skipped.length = s.wordsAfter →
    exec (.fieldKbad kind skip w) s = .next
      { s with
        mode := .idle
        cmd := words
        rspReady := q
        trace := s.trace ++
          [.response { status := .unsupportedKind, count := s.sc.setWidth 24, field := s.fi }] }

/-- R127: a skip field changes L, V and S and reads exactly as the data field of its kind and width does, whatever the
source answers; it emits no beat and does not advance SC. -/
def Obligations.SkipFieldConsumesAlike : Prop :=
  ∀ (k : Width) (w : Size) (s : State), s.position = some .descriptor →
    ∃ t u, exec (.field k true w) s = .next t ∧ exec (.field k false w) s = .next u ∧
      t.l = u.l ∧ t.v = u.v ∧ t.started = u.started ∧ t.src = u.src ∧
      t.trace.filter Event.isRead = u.trace.filter Event.isRead ∧
      t.trace.filter Event.isBeat = s.trace.filter Event.isBeat ∧ t.sc = s.sc

/-- R29 and R130, for every instruction at a descriptor position, whatever happens: where the POPULATE goes on, FI has
advanced by exactly 1 and no word was consumed; where it has ended, or is done but for its response, exactly the words
after the descriptor were consumed; and where it waits for some of these, all that had been sent. -/
def Obligations.PopulateConsumesExactlyItsWords : Prop :=
  ∀ (i : Instr) (s t : State), s.position = some .descriptor → exec i s = .next t →
    (t.position = some .descriptor → t.fi = s.fi + 1 ∧ t.nf = s.nf ∧ t.cmd = s.cmd) ∧
    (t.position = some .command ∨ (∃ r, t.work = .respond r) →
      s.wordsAfter ≤ s.cmd.length ∧ t.cmd = s.cmd.drop s.wordsAfter) ∧
    (∀ left r, t.work = .drain left r → t.cmd = [] ∧ s.cmd.length + left = s.wordsAfter)

/-- A whole record (R120, R127 to R130): a POPULATE of legal fields, with the bytes they need, emits for each data field
the slice of the bit string that its place in the schema gives, in schema order, each slot after its own reads and
before the next field's, and responds OK with COUNT the number of slots and FIELD NF. -/
def Obligations.PopulateSlicesTheBitString : Prop :=
  ∀ (fs : List FieldSpec) (s : State) (bytes : List Byte) (rest : List Answer) (words : List Word) (q q' : Ready),
    s.position = some .command → s.rst = false → s.late = false → CursorInv s →
    fs.length < 2 ^ 16 → (∀ f ∈ fs, sizeBad f.kind f.width = false) →
    s.cmd = encode (.populate (BitVec.ofNat 16 fs.length)) :: (fs.map FieldSpec.word ++ words) →
    s.src = bytes.map .byte ++ rest → bytes.length = readsFor (schemaBits fs) s.v.toNat →
    s.outReady.takeN (schemaSlots fs) = some q → s.rspReady.take = some q' →
    ∃ acc nacc, core.run (fs.length + 1) s = .next
      { s.holding ((s.available bytes).drop (schemaBits fs)) with
        started := s.started || !bytes.isEmpty
        acc := acc
        nacc := nacc
        fi := BitVec.ofNat 16 fs.length
        nf := BitVec.ofNat 16 fs.length
        sc := BitVec.ofNat 16 (schemaSlots fs)
        cmd := words
        src := rest
        outReady := q
        rspReady := q'
        trace := s.trace ++ [.command (encode (.populate (BitVec.ofNat 16 fs.length)))] ++
          recordEvents fs 0 s.pending bytes ++
          [.response {
            status := .ok
            count := BitVec.ofNat 24 (schemaSlots fs)
            field := BitVec.ofNat 16 fs.length }] }

/-! ### Every step -/

/-- R24: the bits of L below the V valid ones are zero, at every chunk boundary inside a command (P8 keeps it so,
whatever is asked and whatever the source answers) and at every point between steps (every step keeps it so, from every
state that meets it); and the source's answers are taken in order, each once. -/
def Obligations.CursorInvariantIsKept : Prop :=
  (∀ (n : Nat) (s : State), CursorInv s → CursorInv (p8 n s).2) ∧
    ∀ s t : State, CursorInv s → step s = .next t → CursorInv t ∧ t.src <:+ s.src

/-- R25: every step keeps it that no bit is pending while no byte has been read. -/
def Obligations.StepKeepsStartedInvariant : Prop :=
  ∀ s t : State, StartedInv s → step s = .next t → StartedInv t

/-- Every step keeps the control invariant: MODE, FI, NF, SC and BC agree with the place inside the command in progress,
a read is outstanding only for a chunk longer than the pending bits (R42, R43), and no more slots than descriptors have
been emitted (R26, R29, R128). -/
def Obligations.StepKeepsControlInvariant : Prop :=
  ∀ s t : State, ControlInv s → step s = .next t → ControlInv t

/-- R146: nothing traps. From every state that meets the control invariant a step answers a next state: no condition
of the source, of the host or of a word of the command stream stops the machine. -/
def Obligations.NoConditionStopsTheMachine : Prop :=
  ∀ s : State, ControlInv s → ∃ t, step s = .next t

/-- R75: exactly one response per command. While `rst` is low, every step keeps the count of the accepted commands that
are still to be answered: what it adds to the commands it adds to the responses, but for the one in progress before it
and the one in progress after it. This holds after a reset too, which abandons a command for good: a step with `rst` high
accepts none and answers none, and leaves none in progress (R160). So where every accepted command has been answered but
for the one in progress, that stays so. And the core comes back to a command position only by the response of the command
it accepted last, so a run ends (R174) with that response and not with a reset. -/
def Obligations.EveryCommandIsAnsweredOnce : Prop :=
  (∀ s t : State, s.rst = false → ControlInv s → step s = .next t →
    t.commands + s.responses + s.inProgress = s.commands + t.responses + t.inProgress) ∧
  (∀ s t : State, s.rst = true → step s = .next t →
    t.commands = s.commands ∧ t.responses = s.responses ∧ t.inProgress = 0 ∧
      lastAnswered t.trace = lastAnswered s.trace) ∧
  (∀ s t : State, s.rst = false → ControlInv s → BalanceInv s → step s = .next t → BalanceInv t) ∧
  ∀ s t : State, s.rst = false → ControlInv s → step s = .next t → t.position = some .command →
    lastAnswered t.trace = true ∨
      s.position = some .command ∧ s.cmd = [] ∧ lastAnswered t.trace = lastAnswered s.trace

/-- R146: no step undoes anything that was observed: the trace only grows, from every state. -/
def Obligations.StepNeverRewritesTheTrace : Prop :=
  ∀ s t : State, step s = .next t → s.trace <+: t.trace

/-- R164: a step accepts a command exactly when `rst` is low, the core is at a command position, which it is only with
MODE = IDLE, and a word is there; and it accepts one. `cmd_ready` is high exactly where a command word would be taken:
low while a command runs, its descriptor positions among that (log entry 12), and, by the model's choice, low while `rst`
is high (log entry 17). -/
def Obligations.CommandsAreAcceptedOnlyWhenIdle : Prop :=
  ∀ s t : State, step s = .next t →
    t.commands = s.commands + (if s.rst = false ∧ s.position = some .command ∧ s.cmd ≠ [] then 1 else 0) ∧
      (s.cmdReady = true ↔ s.rst = false ∧ s.position = some .command) ∧
      (s.position = some .command → s.mode = .idle)

/-- R169: while the command in progress waits for a read and there is no answer, a step changes nothing: the command never
ends. The instructions reach such a wait: an XBYTES, after the beats of the bytes it got, and each of the four supported
FIELD forms, data and skip, with a read outstanding and nothing of the command stream consumed. So they do while a read
that a reset abandoned is unanswered, which is the model's choice (log entry 8). -/
def Obligations.SilentSourceStallsTheCore : Prop :=
  (∀ s : State, ControlInv s → s.rst = false → s.awaitsRead = true → s.src = [] → step s = .next s) ∧
  (∀ (n : Count) (s : State) (bytes : List Byte) (q : Ready),
    s.position = some .command → CursorInv s → s.late = false → s.outReady.takeN bytes.length = some q →
    s.src = bytes.map .byte → bytes.length < n.toNat →
    exec (.xbytes n) s = .next
      { s.holding ((s.available bytes).drop (8 * bytes.length)) with
        started := s.started || !bytes.isEmpty
        mode := .xbytes
        bc := BitVec.ofNat 24 bytes.length
        src := []
        outReady := q
        work := .byteRead n
        trace := s.trace ++ byteEvents 0 s.pending bytes }) ∧
  (∀ (n : Count) (s : State), s.position = some .command → s.late = true → n ≠ 0 →
    exec (.xbytes n) s = .next { s with mode := .xbytes, bc := 0, work := .byteRead n }) ∧
  ∀ (k : Width) (skip : Bool) (w : Size) (s : State) (bytes : List Byte),
    s.position = some .descriptor → CursorInv s → w.toNat ≤ k.bits →
    (s.late = true ∧ bytes = [] ∨ s.late = false ∧ s.src = bytes.map .byte) →
    (s.available bytes).length < w.toNat →
    ∃ t cs, exec (.field k skip w) s = .next t ∧ t.work = .extract (.field k skip) w cs ∧ t.mode = .pop ∧
      t.fi = s.fi ∧ t.nf = s.nf ∧ t.sc = s.sc ∧ t.position = none ∧ t.awaitsRead = true ∧
      t.trace = s.trace ++ readEvents bytes ∧ (s.late = false → t.src = []) ∧ t.cmd = s.cmd

/-- R170 and R53: while the host does not take a pending beat or response, a step changes nothing, in particular no read
is made. A response that is taken is the last event of its command and leaves the core at a command position. The
instructions reach such a wait: an XBYTES whose host takes `m` beats only stops with the beat of byte `m` pending and
reads no further byte; a data field whose slot is not taken stops with its slot pending, SC not advanced, whether it ended
OK or EXHAUSTED; and every instruction that ends its command, where the host does not take the response, stops with that
response pending, all it does else being done. -/
def Obligations.PendingOutputWaitsForTheHost : Prop :=
  (∀ s : State, s.rst = false → s.late = false →
    (s.outBeat.isSome = true → s.outReady = .upTo 0 → step s = .next s) ∧
    (s.rspData.isSome = true → s.rspReady = .upTo 0 → step s = .next s) ∧
    ∀ r q, s.work = .respond r → s.rspReady.take = some q →
      step s = .next { s with work := .boundary, mode := .idle, rspReady := q, trace := s.trace ++ [.response r] }) ∧
  (∀ (n : Count) (s : State) (bytes : List Byte) (rest : List Answer) (m : Nat),
    s.position = some .command → CursorInv s → s.late = false → s.outReady = .upTo m → m < n.toNat →
    s.src = bytes.map .byte ++ rest → bytes.length = m + 1 →
    ∃ b, (byteEvents 0 s.pending bytes).getLast? = some (.beat (.byte (BitVec.ofNat 24 m) b)) ∧
      exec (.xbytes n) s = .next
        { s.holding ((s.available bytes).drop (8 * bytes.length)) with
          started := true
          mode := .xbytes
          bc := BitVec.ofNat 24 m
          src := rest
          outReady := .upTo 0
          work := .byteBeat n b
          trace := s.trace ++ (byteEvents 0 s.pending bytes).dropLast }) ∧
  (∀ (k : Width) (w : Size) (s : State) (bytes : List Byte) (rest : List Answer),
    s.position = some .descriptor → CursorInv s → s.late = false → s.outReady = .upTo 0 →
    1 ≤ w.toNat → w.toNat ≤ k.bits →
    s.src = bytes.map .byte ++ rest → bytes.length = readsFor w.toNat s.v.toNat →
    exec (.field k false w) s = .next
      { s.holding ((s.available bytes).drop w.toNat) with
        started := s.started || !bytes.isEmpty
        acc := valueOf ((s.available bytes).take w.toNat)
        nacc := w
        src := rest
        work := .slotBeat k (valueOf ((s.available bytes).take w.toNat)) none
        trace := s.trace ++ readEvents bytes }) ∧
  (∀ (k : Width) (w : Size) (s : State) (bytes : List Byte) (rest : List Answer),
    s.position = some .descriptor → CursorInv s → s.late = false → s.outReady = .upTo 0 → w.toNat ≤ k.bits →
    s.src = bytes.map .byte ++ .eof :: rest → (s.available bytes).length < w.toNat →
    ∃ acc, exec (.field k false w) s = .next
      { s with
        l := 0
        v := 0
        started := s.started || !bytes.isEmpty
        acc := acc
        nacc := BitVec.ofNat 7 (s.available bytes).length
        src := rest
        work := .slotBeat k
          (BitVec.ofNat 64 (bitsVal (s.available bytes) <<< (w.toNat - (s.available bytes).length)))
          (some (BitVec.ofNat 7 (s.available bytes).length))
        trace := s.trace ++ readEvents bytes ++ [.read .eof] }) ∧
  ∀ (i : Instr) (s t : State) (r : Response) (q : Ready),
    s.rspReady.take = some q → exec i s = .next t → t.position = some .command →
    t.trace.getLast? = some (.response r) →
    ∃ u, exec i { s with rspReady := .upTo 0 } = .next u ∧ u.work = .respond r ∧ u.position = none ∧
      t = { u with work := .boundary, mode := .idle, rspReady := q, trace := u.trace ++ [.response r] }

/-- R172: the bound on the source reads of every instruction, from every state, however it ends: the reads answered while
`exec` runs it, with those it can still make where it waits, are within its bound; and a step that goes on with a command
that waits stays within the reads that were left to it. So the bound is on the whole instruction, however often it has to
wait. -/
def Obligations.InstructionReadsAreBounded : Prop :=
  (∀ (i : Instr) (s t : State), CursorInv s → exec i s = .next t →
    t.reads + t.readsLeft ≤ s.reads + readBound s.v.toNat i) ∧
  ∀ s t : State, ControlInv s → s.rst = false → s.late = false → s.work ≠ .boundary → step s = .next t →
    t.reads + t.readsLeft ≤ s.reads + s.readsLeft

/-- R25 and R31: S and the scratch registers a command has no use for are unobservable. Two states alike but for them
step alike, whatever instruction is next, so their traces, their reads and their cursors never differ. -/
def Obligations.HiddenStateIsUnobservable : Prop :=
  ∀ s t s' : State, Alike s t → step s = .next s' → ∃ t', step t = .next t' ∧ Alike s' t'

/-- R169 and R173: an instruction ends when the outside world does its duties. If the host takes every beat and
response, the source answers as many reads as the instruction can make (whatever the answers), and the host has sent
the descriptor words, then `exec` of any instruction reaches the boundary after it. -/
def Obligations.InstructionEndsWhenDutiesAreMet : Prop :=
  ∀ (i : Instr) (s : State), s.position ≠ none → CursorInv s → dutiesMet s = true →
    readBound s.v.toNat i ≤ s.src.length → (s.position = some .descriptor → s.wordsAfter ≤ s.cmd.length) →
    ∃ t, exec i s = .next t ∧ t.work = .boundary

/-- R169, R170 and R173: a command that had to wait ends its instruction in one more step once the outside world does
its duties. And a wait changes nothing but when things happen: an instruction given a part of what the outside world
gives (answers, words of the command stream, readiness for beats and for responses) and then, where it waits, a step once
there is more of it, is the instruction given all of it at once, in every field of the state; and so is a command that
goes on and has to wait again. -/
def Obligations.WaitingCommandEndsWhenDutiesAreMet : Prop :=
  (∀ s : State, ControlInv s → s.work ≠ .boundary → dutiesMet s = true →
    ∃ t, step s = .next t ∧ t.work = .boundary) ∧
  (∀ (i : Instr) (s t : State) (as : List Answer) (ws : List Word) (out rsp : Ready),
    s.rst = false → s.late = false → exec i s = .next t →
    (t.work = .boundary → exec i (s.supply as ws out rsp) = .next (t.supply as ws out rsp)) ∧
    (t.work ≠ .boundary → exec i (s.supply as ws out rsp) = step (t.supply as ws out rsp))) ∧
  ∀ (s t : State) (as : List Answer) (ws : List Word) (out rsp : Ready),
    s.rst = false → s.late = false → s.work ≠ .boundary → step s = .next t →
    (t.work = .boundary → step (s.supply as ws out rsp) = .next (t.supply as ws out rsp)) ∧
    (t.work ≠ .boundary → step (s.supply as ws out rsp) = step (t.supply as ws out rsp))

/-! ### Ports and assembly -/

/-- R75: where each field of a response lies in its 128-bit word. -/
def Obligations.ResponseLayout : Prop :=
  ∀ r : Response,
    r.pack.extractLsb' 0 4 = r.status.code ∧ r.pack.extractLsb' 4 7 = r.nvalid ∧ r.pack.extractLsb' 11 5 = 0 ∧
    r.pack.extractLsb' 16 16 = r.field ∧ r.pack.extractLsb' 32 24 = r.count ∧ r.pack.extractLsb' 56 8 = r.srcerr ∧
    r.pack.extractLsb' 64 64 = r.value

/-- R76: where each field of an output beat lies in its 96-bit word. -/
def Obligations.BeatLayout : Prop :=
  (∀ (i : Count) (b : Byte),
    (Beat.byte i b).pack.extractLsb' 0 8 = b ∧ (Beat.byte i b).pack.extractLsb' 8 56 = 0 ∧
    (Beat.byte i b).pack.extractLsb' 64 24 = i ∧ (Beat.byte i b).pack.extractLsb' 88 2 = 0 ∧
    (Beat.byte i b).pack.getLsbD 90 = false ∧ (Beat.byte i b).pack.extractLsb' 91 5 = 0) ∧
  ∀ (j : FieldIndex) (k : Width) (v : Value),
    (Beat.slot j k v).pack.extractLsb' 0 64 = v ∧ (Beat.slot j k v).pack.extractLsb' 64 24 = j.setWidth 24 ∧
    (Beat.slot j k v).pack.extractLsb' 88 2 = BitVec.ofNat 2 k.code ∧ (Beat.slot j k v).pack.getLsbD 90 = true ∧
    (Beat.slot j k v).pack.extractLsb' 91 5 = 0

/-- R140: the status codes, of which 0x6 to 0xF are never produced. R52: the source port's answers; a `src_kind` of 3,
which is never sent, is taken as an error. -/
def Obligations.StatusAndAnswerCodes : Prop :=
  (Status.ok.code = 0x0 ∧ Status.exhausted.code = 0x1 ∧ Status.sizeOverflow.code = 0x2 ∧
    Status.unsupportedKind.code = 0x3 ∧ Status.sourceError.code = 0x4 ∧ Status.illegalCommand.code = 0x5 ∧
    ∀ st : Status, st.code.toNat < 0x6) ∧
  ∀ (b : Byte) (e : SrcErr), Answer.ofPort 0 b e = .byte b ∧ Answer.ofPort 1 b e = .eof ∧
    Answer.ofPort 2 b e = .err e ∧ Answer.ofPort 3 b e = .err e

/-- R77: the word of each form of line, and the refusal of every value that does not fit its field; every SIZE and WIDTH
from 0 to 127 is encoded, the illegal ones too. R78: the expansion of each pseudo-instruction but `record`, with the
smallest width or kind that holds the size, and the refusal of sizes 0 and above 64. A line's word is its expansion's. So
every line that is no raw word assembles to a word that decodes to its instruction. -/
def Obligations.AssembledLinesDecode : Prop :=
  (∀ n, (AsmLine.xbits .w8 n).encodeLine = operandWord 0x10000000 128 n ∧
    (AsmLine.xbits .w16 n).encodeLine = operandWord 0x11000000 128 n ∧
    (AsmLine.xbits .w32 n).encodeLine = operandWord 0x12000000 128 n ∧
    (AsmLine.xbits .w64 n).encodeLine = operandWord 0x13000000 128 n ∧
    (AsmLine.xbytes n).encodeLine = operandWord 0x20000000 16777216 n ∧
    (AsmLine.populate n).encodeLine = operandWord 0x30000000 65536 n) ∧
  (∀ (kind : Fin 8) (w : Nat) (skip : Bool), (AsmLine.field kind w skip).encodeLine =
    operandWord (0xD0000000 + skip.toNat * 2 ^ 11 + kind.val * 2 ^ 8) 128 w) ∧
  AsmLine.clear.encodeLine = some 0x40000000 ∧
  (∀ raw : Word, (AsmLine.word raw).encodeLine = some raw) ∧
  AsmLine.xbit.expand = some (.xbits .w8 1) ∧ AsmLine.xbyte.expand = some (.xbits .w8 8) ∧
  (∀ (n : Nat) (line : AsmLine), (AsmLine.xbitsAuto n).expand = some line ↔
    1 ≤ n ∧ n ≤ 8 ∧ line = .xbits .w8 n ∨ 9 ≤ n ∧ n ≤ 16 ∧ line = .xbits .w16 n ∨
      17 ≤ n ∧ n ≤ 32 ∧ line = .xbits .w32 n ∨ 33 ≤ n ∧ n ≤ 64 ∧ line = .xbits .w64 n) ∧
  (∀ (kind : Fin 8) (w : Nat), (AsmLine.skipLine kind w).expand = some (.field kind w true)) ∧
  (∀ (w : Nat) (line : AsmLine), (AsmLine.pad w).expand = some line ↔
    1 ≤ w ∧ w ≤ 8 ∧ line = .field 0 w true ∨ 9 ≤ w ∧ w ≤ 16 ∧ line = .field 1 w true ∨
      17 ≤ w ∧ w ≤ 32 ∧ line = .field 2 w true ∨ 33 ≤ w ∧ w ≤ 64 ∧ line = .field 3 w true) ∧
  (∀ line : AsmLine, line.encodeLine = line.expand.bind AsmLine.encodeLine) ∧
  ∀ (line : AsmLine) (w : Word), (∀ raw, line ≠ .word raw) → line.encodeLine = some w →
    ∃ base i, line.expand = some base ∧ base.instr = some i ∧ decode w = .ok i

/-- R77, of every program by its first line: the empty one has no words; a field line outside a `populate` is refused; a
line that is neither a field line nor a `populate` has its own word and then those of the rest, refused where either is;
and a `populate n` is accepted exactly when the n lines after it are field lines with words and the rest is accepted, which
does not begin with a field line, and its words are then its own, theirs and those of the rest, in order. R78: `record`
stands for the `populate` of its field lines followed by them, and assembles to the words of these lines in order, if each
has one and their number fits NFIELDS. -/
def Obligations.AssemblerPlacesFieldLines : Prop :=
  assemble [] = some [] ∧
  (∀ (l : AsmLine) (lines : List AsmLine), l.isField = true → assemble (l :: lines) = none) ∧
  (∀ (l : AsmLine) (lines : List AsmLine), l.isField = false → (∀ n, l ≠ .populate n) →
    assemble (l :: lines) = l.encodeLine.bind fun w => (assemble lines).map (w :: ·)) ∧
  (∀ (n : Nat) (lines : List AsmLine) (ws : List Word), assemble (.populate n :: lines) = some ws ↔
    n ≤ lines.length ∧ (∀ l ∈ lines.take n, l.isField = true) ∧
      (∀ l, (lines.drop n).head? = some l → l.isField = false) ∧
      ∃ head ws₁ ws₂, (AsmLine.populate n).encodeLine = some head ∧
        (lines.take n).map AsmLine.encodeLine = ws₁.map some ∧ assemble (lines.drop n) = some ws₂ ∧
        ws = head :: (ws₁ ++ ws₂)) ∧
  (∀ fields : List AsmLine, recordLines fields = .populate fields.length :: fields) ∧
  ∀ (fields : List AsmLine) (ws : List Word), (∀ l ∈ fields, l.isField = true) → fields.length < 65536 →
    fields.map AsmLine.encodeLine = ws.map some →
    assemble (recordLines fields) = some (BitVec.ofNat 32 (0x30000000 + fields.length) :: ws)
end

