-- ==== Sys2Proof/Laws/Bits.lean ====
section
/-!
SUPPORT. Bit strings: what `bitsOf` and `bitsVal` do to lengths, to concatenations and to each other.
-/

namespace Sys2Proof.Machine

@[simp] theorem bitsOf_length (n x : Nat) : (bitsOf n x).length = n := by
  induction n with
  | zero => rfl
  | succ n ih => simp [bitsOf, ih]

@[simp] theorem byteBits_length (b : Byte) : (byteBits b).length = 8 := bitsOf_length 8 _

@[simp] theorem State.pending_length (s : State) : s.pending.length = s.v.toNat := bitsOf_length _ _

theorem flatMap_byteBits_length (bs : List Byte) : (bs.flatMap byteBits).length = 8 * bs.length := by
  induction bs with
  | nil => rfl
  | cons b bs ih => simp [ih]; omega

theorem State.available_length (s : State) (bs : List Byte) :
    (s.available bs).length = s.v.toNat + 8 * bs.length := by
  rw [State.available, List.length_append, pending_length, flatMap_byteBits_length]

theorem bitsVal_lt (bs : List Bool) : bitsVal bs < 2 ^ bs.length := by
  induction bs with
  | nil => simp [bitsVal]
  | cons b bs ih =>
    have hb : b.toNat ≤ 1 := Bool.toNat_le b
    have : b.toNat * 2 ^ bs.length ≤ 1 * 2 ^ bs.length := Nat.mul_le_mul_right _ hb
    simp only [bitsVal, List.length_cons, Nat.pow_succ]
    omega

theorem bitsVal_append (xs ys : List Bool) :
    bitsVal (xs ++ ys) = bitsVal xs * 2 ^ ys.length + bitsVal ys := by
  induction xs with
  | nil => simp [bitsVal]
  | cons b xs ih =>
    simp only [List.cons_append, bitsVal, ih, List.length_append, Nat.pow_add]
    ring

/-- The value of the low `n` bits. -/
theorem bitsVal_bitsOf (n x : Nat) : bitsVal (bitsOf n x) = x % 2 ^ n := by
  induction n with
  | zero => simp [bitsOf, bitsVal, Nat.mod_one]
  | succ n ih =>
    simp only [bitsOf, bitsVal, bitsOf_length, ih]
    have h1 := Nat.testBit_eq_decide_div_mod_eq (x := x) (i := n)
    have h2 : x % 2 ^ (n + 1) = x % 2 ^ n + 2 ^ n * (x / 2 ^ n % 2) := Nat.mod_pow_succ
    rw [h2, h1]
    rcases Nat.mod_two_eq_zero_or_one (x / 2 ^ n) with h | h <;> (simp [h]; try ring)

/-- Bit strings of one length that spell the same number are the same. -/
theorem bitsVal_inj {xs ys : List Bool} (hl : xs.length = ys.length) (h : bitsVal xs = bitsVal ys) : xs = ys := by
  induction xs generalizing ys with
  | nil => cases ys <;> simp_all
  | cons x xs ih =>
    cases ys with
    | nil => simp at hl
    | cons y ys =>
      simp only [List.length_cons, Nat.add_right_cancel_iff] at hl
      have hx := bitsVal_lt xs
      have hy := bitsVal_lt ys
      simp only [bitsVal, hl] at h hx
      have hxy : x = y := by cases x <;> cases y <;> (simp_all; try omega)
      subst hxy
      rw [ih hl (by omega)]

/-- A string is the low bits of the number it spells. -/
theorem bitsOf_bitsVal (bs : List Bool) : bitsOf bs.length (bitsVal bs) = bs :=
  bitsVal_inj (by simp) (by rw [bitsVal_bitsOf, Nat.mod_eq_of_lt (bitsVal_lt bs)])

/-- The first bits spell the number shifted right by the rest. -/
theorem bitsVal_take (bs : List Bool) (n : Nat) : bitsVal (bs.take n) = bitsVal bs / 2 ^ (bs.length - n) := by
  have h := bitsVal_append (bs.take n) (bs.drop n)
  have hd := bitsVal_lt (bs.drop n)
  rw [List.take_append_drop, List.length_drop] at h
  rw [List.length_drop] at hd
  rw [h, Nat.add_comm, Nat.add_mul_div_right _ _ (by positivity), Nat.div_eq_of_lt hd, Nat.zero_add]

/-- The last bits spell the number's remainder. -/
theorem bitsVal_drop (bs : List Bool) (n : Nat) : bitsVal (bs.drop n) = bitsVal bs % 2 ^ (bs.length - n) := by
  have h := bitsVal_append (bs.take n) (bs.drop n)
  have hd := bitsVal_lt (bs.drop n)
  rw [List.take_append_drop, List.length_drop] at h
  rw [List.length_drop] at hd
  rw [h, Nat.add_comm, Nat.add_mul_mod_self_right, Nat.mod_eq_of_lt hd]

end Sys2Proof.Machine
end

