-- ==== Sys2Proof/Laws/State.lean ====
section
/-!
SUPPORT. What each named update of the state does to each field: one lemma per field per update, each true by
definition, so that no proof unfolds a record update.
-/

namespace Sys2Proof.Machine

variable (s : State)

@[simp] theorem State.setCursor_l (l : Byte) (v : BitVec 3) : (s.setCursor l v).l = l := rfl
@[simp] theorem State.setCursor_v (l : Byte) (v : BitVec 3) : (s.setCursor l v).v = v := rfl
@[simp] theorem State.setCursor_started (l : Byte) (v : BitVec 3) : (s.setCursor l v).started = s.started := rfl
@[simp] theorem State.setCursor_mode (l : Byte) (v : BitVec 3) : (s.setCursor l v).mode = s.mode := rfl
@[simp] theorem State.setCursor_fi (l : Byte) (v : BitVec 3) : (s.setCursor l v).fi = s.fi := rfl
@[simp] theorem State.setCursor_nf (l : Byte) (v : BitVec 3) : (s.setCursor l v).nf = s.nf := rfl
@[simp] theorem State.setCursor_sc (l : Byte) (v : BitVec 3) : (s.setCursor l v).sc = s.sc := rfl
@[simp] theorem State.setCursor_bc (l : Byte) (v : BitVec 3) : (s.setCursor l v).bc = s.bc := rfl
@[simp] theorem State.setCursor_acc (l : Byte) (v : BitVec 3) : (s.setCursor l v).acc = s.acc := rfl
@[simp] theorem State.setCursor_nacc (l : Byte) (v : BitVec 3) : (s.setCursor l v).nacc = s.nacc := rfl
@[simp] theorem State.setCursor_work (l : Byte) (v : BitVec 3) : (s.setCursor l v).work = s.work := rfl
@[simp] theorem State.setCursor_rst (l : Byte) (v : BitVec 3) : (s.setCursor l v).rst = s.rst := rfl
@[simp] theorem State.setCursor_cmd (l : Byte) (v : BitVec 3) : (s.setCursor l v).cmd = s.cmd := rfl
@[simp] theorem State.setCursor_src (l : Byte) (v : BitVec 3) : (s.setCursor l v).src = s.src := rfl
@[simp] theorem State.setCursor_late (l : Byte) (v : BitVec 3) : (s.setCursor l v).late = s.late := rfl
@[simp] theorem State.setCursor_outReady (l : Byte) (v : BitVec 3) : (s.setCursor l v).outReady = s.outReady := rfl
@[simp] theorem State.setCursor_rspReady (l : Byte) (v : BitVec 3) : (s.setCursor l v).rspReady = s.rspReady := rfl
@[simp] theorem State.setCursor_trace (l : Byte) (v : BitVec 3) : (s.setCursor l v).trace = s.trace := rfl

@[simp] theorem State.setStarted_l (b : Bool) : (s.setStarted b).l = s.l := rfl
@[simp] theorem State.setStarted_v (b : Bool) : (s.setStarted b).v = s.v := rfl
@[simp] theorem State.setStarted_started (b : Bool) : (s.setStarted b).started = b := rfl
@[simp] theorem State.setStarted_mode (b : Bool) : (s.setStarted b).mode = s.mode := rfl
@[simp] theorem State.setStarted_fi (b : Bool) : (s.setStarted b).fi = s.fi := rfl
@[simp] theorem State.setStarted_nf (b : Bool) : (s.setStarted b).nf = s.nf := rfl
@[simp] theorem State.setStarted_sc (b : Bool) : (s.setStarted b).sc = s.sc := rfl
@[simp] theorem State.setStarted_bc (b : Bool) : (s.setStarted b).bc = s.bc := rfl
@[simp] theorem State.setStarted_acc (b : Bool) : (s.setStarted b).acc = s.acc := rfl
@[simp] theorem State.setStarted_nacc (b : Bool) : (s.setStarted b).nacc = s.nacc := rfl
@[simp] theorem State.setStarted_work (b : Bool) : (s.setStarted b).work = s.work := rfl
@[simp] theorem State.setStarted_rst (b : Bool) : (s.setStarted b).rst = s.rst := rfl
@[simp] theorem State.setStarted_cmd (b : Bool) : (s.setStarted b).cmd = s.cmd := rfl
@[simp] theorem State.setStarted_src (b : Bool) : (s.setStarted b).src = s.src := rfl
@[simp] theorem State.setStarted_late (b : Bool) : (s.setStarted b).late = s.late := rfl
@[simp] theorem State.setStarted_outReady (b : Bool) : (s.setStarted b).outReady = s.outReady := rfl
@[simp] theorem State.setStarted_rspReady (b : Bool) : (s.setStarted b).rspReady = s.rspReady := rfl
@[simp] theorem State.setStarted_trace (b : Bool) : (s.setStarted b).trace = s.trace := rfl

@[simp] theorem State.setMode_l (m : Mode) : (s.setMode m).l = s.l := rfl
@[simp] theorem State.setMode_v (m : Mode) : (s.setMode m).v = s.v := rfl
@[simp] theorem State.setMode_started (m : Mode) : (s.setMode m).started = s.started := rfl
@[simp] theorem State.setMode_mode (m : Mode) : (s.setMode m).mode = m := rfl
@[simp] theorem State.setMode_fi (m : Mode) : (s.setMode m).fi = s.fi := rfl
@[simp] theorem State.setMode_nf (m : Mode) : (s.setMode m).nf = s.nf := rfl
@[simp] theorem State.setMode_sc (m : Mode) : (s.setMode m).sc = s.sc := rfl
@[simp] theorem State.setMode_bc (m : Mode) : (s.setMode m).bc = s.bc := rfl
@[simp] theorem State.setMode_acc (m : Mode) : (s.setMode m).acc = s.acc := rfl
@[simp] theorem State.setMode_nacc (m : Mode) : (s.setMode m).nacc = s.nacc := rfl
@[simp] theorem State.setMode_work (m : Mode) : (s.setMode m).work = s.work := rfl
@[simp] theorem State.setMode_rst (m : Mode) : (s.setMode m).rst = s.rst := rfl
@[simp] theorem State.setMode_cmd (m : Mode) : (s.setMode m).cmd = s.cmd := rfl
@[simp] theorem State.setMode_src (m : Mode) : (s.setMode m).src = s.src := rfl
@[simp] theorem State.setMode_late (m : Mode) : (s.setMode m).late = s.late := rfl
@[simp] theorem State.setMode_outReady (m : Mode) : (s.setMode m).outReady = s.outReady := rfl
@[simp] theorem State.setMode_rspReady (m : Mode) : (s.setMode m).rspReady = s.rspReady := rfl
@[simp] theorem State.setMode_trace (m : Mode) : (s.setMode m).trace = s.trace := rfl

@[simp] theorem State.setFi_l (x : FieldIndex) : (s.setFi x).l = s.l := rfl
@[simp] theorem State.setFi_v (x : FieldIndex) : (s.setFi x).v = s.v := rfl
@[simp] theorem State.setFi_started (x : FieldIndex) : (s.setFi x).started = s.started := rfl
@[simp] theorem State.setFi_mode (x : FieldIndex) : (s.setFi x).mode = s.mode := rfl
@[simp] theorem State.setFi_fi (x : FieldIndex) : (s.setFi x).fi = x := rfl
@[simp] theorem State.setFi_nf (x : FieldIndex) : (s.setFi x).nf = s.nf := rfl
@[simp] theorem State.setFi_sc (x : FieldIndex) : (s.setFi x).sc = s.sc := rfl
@[simp] theorem State.setFi_bc (x : FieldIndex) : (s.setFi x).bc = s.bc := rfl
@[simp] theorem State.setFi_acc (x : FieldIndex) : (s.setFi x).acc = s.acc := rfl
@[simp] theorem State.setFi_nacc (x : FieldIndex) : (s.setFi x).nacc = s.nacc := rfl
@[simp] theorem State.setFi_work (x : FieldIndex) : (s.setFi x).work = s.work := rfl
@[simp] theorem State.setFi_rst (x : FieldIndex) : (s.setFi x).rst = s.rst := rfl
@[simp] theorem State.setFi_cmd (x : FieldIndex) : (s.setFi x).cmd = s.cmd := rfl
@[simp] theorem State.setFi_src (x : FieldIndex) : (s.setFi x).src = s.src := rfl
@[simp] theorem State.setFi_late (x : FieldIndex) : (s.setFi x).late = s.late := rfl
@[simp] theorem State.setFi_outReady (x : FieldIndex) : (s.setFi x).outReady = s.outReady := rfl
@[simp] theorem State.setFi_rspReady (x : FieldIndex) : (s.setFi x).rspReady = s.rspReady := rfl
@[simp] theorem State.setFi_trace (x : FieldIndex) : (s.setFi x).trace = s.trace := rfl

@[simp] theorem State.setNf_l (x : FieldIndex) : (s.setNf x).l = s.l := rfl
@[simp] theorem State.setNf_v (x : FieldIndex) : (s.setNf x).v = s.v := rfl
@[simp] theorem State.setNf_started (x : FieldIndex) : (s.setNf x).started = s.started := rfl
@[simp] theorem State.setNf_mode (x : FieldIndex) : (s.setNf x).mode = s.mode := rfl
@[simp] theorem State.setNf_fi (x : FieldIndex) : (s.setNf x).fi = s.fi := rfl
@[simp] theorem State.setNf_nf (x : FieldIndex) : (s.setNf x).nf = x := rfl
@[simp] theorem State.setNf_sc (x : FieldIndex) : (s.setNf x).sc = s.sc := rfl
@[simp] theorem State.setNf_bc (x : FieldIndex) : (s.setNf x).bc = s.bc := rfl
@[simp] theorem State.setNf_acc (x : FieldIndex) : (s.setNf x).acc = s.acc := rfl
@[simp] theorem State.setNf_nacc (x : FieldIndex) : (s.setNf x).nacc = s.nacc := rfl
@[simp] theorem State.setNf_work (x : FieldIndex) : (s.setNf x).work = s.work := rfl
@[simp] theorem State.setNf_rst (x : FieldIndex) : (s.setNf x).rst = s.rst := rfl
@[simp] theorem State.setNf_cmd (x : FieldIndex) : (s.setNf x).cmd = s.cmd := rfl
@[simp] theorem State.setNf_src (x : FieldIndex) : (s.setNf x).src = s.src := rfl
@[simp] theorem State.setNf_late (x : FieldIndex) : (s.setNf x).late = s.late := rfl
@[simp] theorem State.setNf_outReady (x : FieldIndex) : (s.setNf x).outReady = s.outReady := rfl
@[simp] theorem State.setNf_rspReady (x : FieldIndex) : (s.setNf x).rspReady = s.rspReady := rfl
@[simp] theorem State.setNf_trace (x : FieldIndex) : (s.setNf x).trace = s.trace := rfl

@[simp] theorem State.setSc_l (x : FieldIndex) : (s.setSc x).l = s.l := rfl
@[simp] theorem State.setSc_v (x : FieldIndex) : (s.setSc x).v = s.v := rfl
@[simp] theorem State.setSc_started (x : FieldIndex) : (s.setSc x).started = s.started := rfl
@[simp] theorem State.setSc_mode (x : FieldIndex) : (s.setSc x).mode = s.mode := rfl
@[simp] theorem State.setSc_fi (x : FieldIndex) : (s.setSc x).fi = s.fi := rfl
@[simp] theorem State.setSc_nf (x : FieldIndex) : (s.setSc x).nf = s.nf := rfl
@[simp] theorem State.setSc_sc (x : FieldIndex) : (s.setSc x).sc = x := rfl
@[simp] theorem State.setSc_bc (x : FieldIndex) : (s.setSc x).bc = s.bc := rfl
@[simp] theorem State.setSc_acc (x : FieldIndex) : (s.setSc x).acc = s.acc := rfl
@[simp] theorem State.setSc_nacc (x : FieldIndex) : (s.setSc x).nacc = s.nacc := rfl
@[simp] theorem State.setSc_work (x : FieldIndex) : (s.setSc x).work = s.work := rfl
@[simp] theorem State.setSc_rst (x : FieldIndex) : (s.setSc x).rst = s.rst := rfl
@[simp] theorem State.setSc_cmd (x : FieldIndex) : (s.setSc x).cmd = s.cmd := rfl
@[simp] theorem State.setSc_src (x : FieldIndex) : (s.setSc x).src = s.src := rfl
@[simp] theorem State.setSc_late (x : FieldIndex) : (s.setSc x).late = s.late := rfl
@[simp] theorem State.setSc_outReady (x : FieldIndex) : (s.setSc x).outReady = s.outReady := rfl
@[simp] theorem State.setSc_rspReady (x : FieldIndex) : (s.setSc x).rspReady = s.rspReady := rfl
@[simp] theorem State.setSc_trace (x : FieldIndex) : (s.setSc x).trace = s.trace := rfl

@[simp] theorem State.setBc_l (x : Count) : (s.setBc x).l = s.l := rfl
@[simp] theorem State.setBc_v (x : Count) : (s.setBc x).v = s.v := rfl
@[simp] theorem State.setBc_started (x : Count) : (s.setBc x).started = s.started := rfl
@[simp] theorem State.setBc_mode (x : Count) : (s.setBc x).mode = s.mode := rfl
@[simp] theorem State.setBc_fi (x : Count) : (s.setBc x).fi = s.fi := rfl
@[simp] theorem State.setBc_nf (x : Count) : (s.setBc x).nf = s.nf := rfl
@[simp] theorem State.setBc_sc (x : Count) : (s.setBc x).sc = s.sc := rfl
@[simp] theorem State.setBc_bc (x : Count) : (s.setBc x).bc = x := rfl
@[simp] theorem State.setBc_acc (x : Count) : (s.setBc x).acc = s.acc := rfl
@[simp] theorem State.setBc_nacc (x : Count) : (s.setBc x).nacc = s.nacc := rfl
@[simp] theorem State.setBc_work (x : Count) : (s.setBc x).work = s.work := rfl
@[simp] theorem State.setBc_rst (x : Count) : (s.setBc x).rst = s.rst := rfl
@[simp] theorem State.setBc_cmd (x : Count) : (s.setBc x).cmd = s.cmd := rfl
@[simp] theorem State.setBc_src (x : Count) : (s.setBc x).src = s.src := rfl
@[simp] theorem State.setBc_late (x : Count) : (s.setBc x).late = s.late := rfl
@[simp] theorem State.setBc_outReady (x : Count) : (s.setBc x).outReady = s.outReady := rfl
@[simp] theorem State.setBc_rspReady (x : Count) : (s.setBc x).rspReady = s.rspReady := rfl
@[simp] theorem State.setBc_trace (x : Count) : (s.setBc x).trace = s.trace := rfl

@[simp] theorem State.setAccum_l (a : Value) (n : Size) : (s.setAccum a n).l = s.l := rfl
@[simp] theorem State.setAccum_v (a : Value) (n : Size) : (s.setAccum a n).v = s.v := rfl
@[simp] theorem State.setAccum_started (a : Value) (n : Size) : (s.setAccum a n).started = s.started := rfl
@[simp] theorem State.setAccum_mode (a : Value) (n : Size) : (s.setAccum a n).mode = s.mode := rfl
@[simp] theorem State.setAccum_fi (a : Value) (n : Size) : (s.setAccum a n).fi = s.fi := rfl
@[simp] theorem State.setAccum_nf (a : Value) (n : Size) : (s.setAccum a n).nf = s.nf := rfl
@[simp] theorem State.setAccum_sc (a : Value) (n : Size) : (s.setAccum a n).sc = s.sc := rfl
@[simp] theorem State.setAccum_bc (a : Value) (n : Size) : (s.setAccum a n).bc = s.bc := rfl
@[simp] theorem State.setAccum_acc (a : Value) (n : Size) : (s.setAccum a n).acc = a := rfl
@[simp] theorem State.setAccum_nacc (a : Value) (n : Size) : (s.setAccum a n).nacc = n := rfl
@[simp] theorem State.setAccum_work (a : Value) (n : Size) : (s.setAccum a n).work = s.work := rfl
@[simp] theorem State.setAccum_rst (a : Value) (n : Size) : (s.setAccum a n).rst = s.rst := rfl
@[simp] theorem State.setAccum_cmd (a : Value) (n : Size) : (s.setAccum a n).cmd = s.cmd := rfl
@[simp] theorem State.setAccum_src (a : Value) (n : Size) : (s.setAccum a n).src = s.src := rfl
@[simp] theorem State.setAccum_late (a : Value) (n : Size) : (s.setAccum a n).late = s.late := rfl
@[simp] theorem State.setAccum_outReady (a : Value) (n : Size) : (s.setAccum a n).outReady = s.outReady := rfl
@[simp] theorem State.setAccum_rspReady (a : Value) (n : Size) : (s.setAccum a n).rspReady = s.rspReady := rfl
@[simp] theorem State.setAccum_trace (a : Value) (n : Size) : (s.setAccum a n).trace = s.trace := rfl

@[simp] theorem State.setWork_l (w : Work) : (s.setWork w).l = s.l := rfl
@[simp] theorem State.setWork_v (w : Work) : (s.setWork w).v = s.v := rfl
@[simp] theorem State.setWork_started (w : Work) : (s.setWork w).started = s.started := rfl
@[simp] theorem State.setWork_mode (w : Work) : (s.setWork w).mode = s.mode := rfl
@[simp] theorem State.setWork_fi (w : Work) : (s.setWork w).fi = s.fi := rfl
@[simp] theorem State.setWork_nf (w : Work) : (s.setWork w).nf = s.nf := rfl
@[simp] theorem State.setWork_sc (w : Work) : (s.setWork w).sc = s.sc := rfl
@[simp] theorem State.setWork_bc (w : Work) : (s.setWork w).bc = s.bc := rfl
@[simp] theorem State.setWork_acc (w : Work) : (s.setWork w).acc = s.acc := rfl
@[simp] theorem State.setWork_nacc (w : Work) : (s.setWork w).nacc = s.nacc := rfl
@[simp] theorem State.setWork_work (w : Work) : (s.setWork w).work = w := rfl
@[simp] theorem State.setWork_rst (w : Work) : (s.setWork w).rst = s.rst := rfl
@[simp] theorem State.setWork_cmd (w : Work) : (s.setWork w).cmd = s.cmd := rfl
@[simp] theorem State.setWork_src (w : Work) : (s.setWork w).src = s.src := rfl
@[simp] theorem State.setWork_late (w : Work) : (s.setWork w).late = s.late := rfl
@[simp] theorem State.setWork_outReady (w : Work) : (s.setWork w).outReady = s.outReady := rfl
@[simp] theorem State.setWork_rspReady (w : Work) : (s.setWork w).rspReady = s.rspReady := rfl
@[simp] theorem State.setWork_trace (w : Work) : (s.setWork w).trace = s.trace := rfl

@[simp] theorem State.setCmd_l (ws : List Word) : (s.setCmd ws).l = s.l := rfl
@[simp] theorem State.setCmd_v (ws : List Word) : (s.setCmd ws).v = s.v := rfl
@[simp] theorem State.setCmd_started (ws : List Word) : (s.setCmd ws).started = s.started := rfl
@[simp] theorem State.setCmd_mode (ws : List Word) : (s.setCmd ws).mode = s.mode := rfl
@[simp] theorem State.setCmd_fi (ws : List Word) : (s.setCmd ws).fi = s.fi := rfl
@[simp] theorem State.setCmd_nf (ws : List Word) : (s.setCmd ws).nf = s.nf := rfl
@[simp] theorem State.setCmd_sc (ws : List Word) : (s.setCmd ws).sc = s.sc := rfl
@[simp] theorem State.setCmd_bc (ws : List Word) : (s.setCmd ws).bc = s.bc := rfl
@[simp] theorem State.setCmd_acc (ws : List Word) : (s.setCmd ws).acc = s.acc := rfl
@[simp] theorem State.setCmd_nacc (ws : List Word) : (s.setCmd ws).nacc = s.nacc := rfl
@[simp] theorem State.setCmd_work (ws : List Word) : (s.setCmd ws).work = s.work := rfl
@[simp] theorem State.setCmd_rst (ws : List Word) : (s.setCmd ws).rst = s.rst := rfl
@[simp] theorem State.setCmd_cmd (ws : List Word) : (s.setCmd ws).cmd = ws := rfl
@[simp] theorem State.setCmd_src (ws : List Word) : (s.setCmd ws).src = s.src := rfl
@[simp] theorem State.setCmd_late (ws : List Word) : (s.setCmd ws).late = s.late := rfl
@[simp] theorem State.setCmd_outReady (ws : List Word) : (s.setCmd ws).outReady = s.outReady := rfl
@[simp] theorem State.setCmd_rspReady (ws : List Word) : (s.setCmd ws).rspReady = s.rspReady := rfl
@[simp] theorem State.setCmd_trace (ws : List Word) : (s.setCmd ws).trace = s.trace := rfl

@[simp] theorem State.setSrc_l (as : List Answer) : (s.setSrc as).l = s.l := rfl
@[simp] theorem State.setSrc_v (as : List Answer) : (s.setSrc as).v = s.v := rfl
@[simp] theorem State.setSrc_started (as : List Answer) : (s.setSrc as).started = s.started := rfl
@[simp] theorem State.setSrc_mode (as : List Answer) : (s.setSrc as).mode = s.mode := rfl
@[simp] theorem State.setSrc_fi (as : List Answer) : (s.setSrc as).fi = s.fi := rfl
@[simp] theorem State.setSrc_nf (as : List Answer) : (s.setSrc as).nf = s.nf := rfl
@[simp] theorem State.setSrc_sc (as : List Answer) : (s.setSrc as).sc = s.sc := rfl
@[simp] theorem State.setSrc_bc (as : List Answer) : (s.setSrc as).bc = s.bc := rfl
@[simp] theorem State.setSrc_acc (as : List Answer) : (s.setSrc as).acc = s.acc := rfl
@[simp] theorem State.setSrc_nacc (as : List Answer) : (s.setSrc as).nacc = s.nacc := rfl
@[simp] theorem State.setSrc_work (as : List Answer) : (s.setSrc as).work = s.work := rfl
@[simp] theorem State.setSrc_rst (as : List Answer) : (s.setSrc as).rst = s.rst := rfl
@[simp] theorem State.setSrc_cmd (as : List Answer) : (s.setSrc as).cmd = s.cmd := rfl
@[simp] theorem State.setSrc_src (as : List Answer) : (s.setSrc as).src = as := rfl
@[simp] theorem State.setSrc_late (as : List Answer) : (s.setSrc as).late = s.late := rfl
@[simp] theorem State.setSrc_outReady (as : List Answer) : (s.setSrc as).outReady = s.outReady := rfl
@[simp] theorem State.setSrc_rspReady (as : List Answer) : (s.setSrc as).rspReady = s.rspReady := rfl
@[simp] theorem State.setSrc_trace (as : List Answer) : (s.setSrc as).trace = s.trace := rfl

@[simp] theorem State.setLate_l (b : Bool) : (s.setLate b).l = s.l := rfl
@[simp] theorem State.setLate_v (b : Bool) : (s.setLate b).v = s.v := rfl
@[simp] theorem State.setLate_started (b : Bool) : (s.setLate b).started = s.started := rfl
@[simp] theorem State.setLate_mode (b : Bool) : (s.setLate b).mode = s.mode := rfl
@[simp] theorem State.setLate_fi (b : Bool) : (s.setLate b).fi = s.fi := rfl
@[simp] theorem State.setLate_nf (b : Bool) : (s.setLate b).nf = s.nf := rfl
@[simp] theorem State.setLate_sc (b : Bool) : (s.setLate b).sc = s.sc := rfl
@[simp] theorem State.setLate_bc (b : Bool) : (s.setLate b).bc = s.bc := rfl
@[simp] theorem State.setLate_acc (b : Bool) : (s.setLate b).acc = s.acc := rfl
@[simp] theorem State.setLate_nacc (b : Bool) : (s.setLate b).nacc = s.nacc := rfl
@[simp] theorem State.setLate_work (b : Bool) : (s.setLate b).work = s.work := rfl
@[simp] theorem State.setLate_rst (b : Bool) : (s.setLate b).rst = s.rst := rfl
@[simp] theorem State.setLate_cmd (b : Bool) : (s.setLate b).cmd = s.cmd := rfl
@[simp] theorem State.setLate_src (b : Bool) : (s.setLate b).src = s.src := rfl
@[simp] theorem State.setLate_late (b : Bool) : (s.setLate b).late = b := rfl
@[simp] theorem State.setLate_outReady (b : Bool) : (s.setLate b).outReady = s.outReady := rfl
@[simp] theorem State.setLate_rspReady (b : Bool) : (s.setLate b).rspReady = s.rspReady := rfl
@[simp] theorem State.setLate_trace (b : Bool) : (s.setLate b).trace = s.trace := rfl

@[simp] theorem State.setOutReady_l (q : Ready) : (s.setOutReady q).l = s.l := rfl
@[simp] theorem State.setOutReady_v (q : Ready) : (s.setOutReady q).v = s.v := rfl
@[simp] theorem State.setOutReady_started (q : Ready) : (s.setOutReady q).started = s.started := rfl
@[simp] theorem State.setOutReady_mode (q : Ready) : (s.setOutReady q).mode = s.mode := rfl
@[simp] theorem State.setOutReady_fi (q : Ready) : (s.setOutReady q).fi = s.fi := rfl
@[simp] theorem State.setOutReady_nf (q : Ready) : (s.setOutReady q).nf = s.nf := rfl
@[simp] theorem State.setOutReady_sc (q : Ready) : (s.setOutReady q).sc = s.sc := rfl
@[simp] theorem State.setOutReady_bc (q : Ready) : (s.setOutReady q).bc = s.bc := rfl
@[simp] theorem State.setOutReady_acc (q : Ready) : (s.setOutReady q).acc = s.acc := rfl
@[simp] theorem State.setOutReady_nacc (q : Ready) : (s.setOutReady q).nacc = s.nacc := rfl
@[simp] theorem State.setOutReady_work (q : Ready) : (s.setOutReady q).work = s.work := rfl
@[simp] theorem State.setOutReady_rst (q : Ready) : (s.setOutReady q).rst = s.rst := rfl
@[simp] theorem State.setOutReady_cmd (q : Ready) : (s.setOutReady q).cmd = s.cmd := rfl
@[simp] theorem State.setOutReady_src (q : Ready) : (s.setOutReady q).src = s.src := rfl
@[simp] theorem State.setOutReady_late (q : Ready) : (s.setOutReady q).late = s.late := rfl
@[simp] theorem State.setOutReady_outReady (q : Ready) : (s.setOutReady q).outReady = q := rfl
@[simp] theorem State.setOutReady_rspReady (q : Ready) : (s.setOutReady q).rspReady = s.rspReady := rfl
@[simp] theorem State.setOutReady_trace (q : Ready) : (s.setOutReady q).trace = s.trace := rfl

@[simp] theorem State.setRspReady_l (q : Ready) : (s.setRspReady q).l = s.l := rfl
@[simp] theorem State.setRspReady_v (q : Ready) : (s.setRspReady q).v = s.v := rfl
@[simp] theorem State.setRspReady_started (q : Ready) : (s.setRspReady q).started = s.started := rfl
@[simp] theorem State.setRspReady_mode (q : Ready) : (s.setRspReady q).mode = s.mode := rfl
@[simp] theorem State.setRspReady_fi (q : Ready) : (s.setRspReady q).fi = s.fi := rfl
@[simp] theorem State.setRspReady_nf (q : Ready) : (s.setRspReady q).nf = s.nf := rfl
@[simp] theorem State.setRspReady_sc (q : Ready) : (s.setRspReady q).sc = s.sc := rfl
@[simp] theorem State.setRspReady_bc (q : Ready) : (s.setRspReady q).bc = s.bc := rfl
@[simp] theorem State.setRspReady_acc (q : Ready) : (s.setRspReady q).acc = s.acc := rfl
@[simp] theorem State.setRspReady_nacc (q : Ready) : (s.setRspReady q).nacc = s.nacc := rfl
@[simp] theorem State.setRspReady_work (q : Ready) : (s.setRspReady q).work = s.work := rfl
@[simp] theorem State.setRspReady_rst (q : Ready) : (s.setRspReady q).rst = s.rst := rfl
@[simp] theorem State.setRspReady_cmd (q : Ready) : (s.setRspReady q).cmd = s.cmd := rfl
@[simp] theorem State.setRspReady_src (q : Ready) : (s.setRspReady q).src = s.src := rfl
@[simp] theorem State.setRspReady_late (q : Ready) : (s.setRspReady q).late = s.late := rfl
@[simp] theorem State.setRspReady_outReady (q : Ready) : (s.setRspReady q).outReady = s.outReady := rfl
@[simp] theorem State.setRspReady_rspReady (q : Ready) : (s.setRspReady q).rspReady = q := rfl
@[simp] theorem State.setRspReady_trace (q : Ready) : (s.setRspReady q).trace = s.trace := rfl

@[simp] theorem State.log_l (e : Event) : (s.log e).l = s.l := rfl
@[simp] theorem State.log_v (e : Event) : (s.log e).v = s.v := rfl
@[simp] theorem State.log_started (e : Event) : (s.log e).started = s.started := rfl
@[simp] theorem State.log_mode (e : Event) : (s.log e).mode = s.mode := rfl
@[simp] theorem State.log_fi (e : Event) : (s.log e).fi = s.fi := rfl
@[simp] theorem State.log_nf (e : Event) : (s.log e).nf = s.nf := rfl
@[simp] theorem State.log_sc (e : Event) : (s.log e).sc = s.sc := rfl
@[simp] theorem State.log_bc (e : Event) : (s.log e).bc = s.bc := rfl
@[simp] theorem State.log_acc (e : Event) : (s.log e).acc = s.acc := rfl
@[simp] theorem State.log_nacc (e : Event) : (s.log e).nacc = s.nacc := rfl
@[simp] theorem State.log_work (e : Event) : (s.log e).work = s.work := rfl
@[simp] theorem State.log_rst (e : Event) : (s.log e).rst = s.rst := rfl
@[simp] theorem State.log_cmd (e : Event) : (s.log e).cmd = s.cmd := rfl
@[simp] theorem State.log_src (e : Event) : (s.log e).src = s.src := rfl
@[simp] theorem State.log_late (e : Event) : (s.log e).late = s.late := rfl
@[simp] theorem State.log_outReady (e : Event) : (s.log e).outReady = s.outReady := rfl
@[simp] theorem State.log_rspReady (e : Event) : (s.log e).rspReady = s.rspReady := rfl
@[simp] theorem State.log_trace (e : Event) : (s.log e).trace = s.trace ++ [e] := rfl

end Sys2Proof.Machine
end

