-- ==== Sys2Proof/Laws/Ops.lean ====
section
/-!
SUPPORT. What each shared operation can do, said once: the primitives of the streams, P8 and XW as operations on the
pending bit string, and what each leaves alone.
-/

namespace Sys2Proof.Machine

/-! ### The streams -/

theorem srcRead_of_cons {s : State} {a : Answer} {rest : List Answer} (hl : s.late = false) (hs : s.src = a :: rest) :
    srcRead s = some (a, (s.setSrc rest).log (.read a)) := by
  simp [srcRead, hl, hs]

theorem srcRead_eq_none {s : State} : srcRead s = none ↔ s.late = true ∨ s.src = [] := by
  unfold srcRead
  split
  · rename_i h1 h2; simp [h1, h2]
  · rename_i h
    simp only [true_iff]
    cases hl : s.late
    · cases hs : s.src with
      | nil => simp
      | cons a rest => exact absurd hs (h a rest hl)
    · simp

/-- Everything a read can do. -/
theorem srcRead_eq_some {s t : State} {a : Answer} (h : srcRead s = some (a, t)) :
    s.late = false ∧ ∃ rest, s.src = a :: rest ∧ t = (s.setSrc rest).log (.read a) := by
  unfold srcRead at h
  split at h
  · rename_i hl hs
    simp only [Option.some.injEq, Prod.mk.injEq] at h
    exact ⟨hl, _, h.1 ▸ hs, h.1 ▸ h.2.symm⟩
  · cases h

theorem dropLate_of_not_late {s : State} (h : s.late = false) : dropLate s = s := by
  simp [dropLate, h]

/-- Everything the discarding of a late answer can do. -/
theorem dropLate_cases (s : State) :
    dropLate s = s ∧ (s.late = false ∨ s.src = []) ∨
    ∃ a rest, s.late = true ∧ s.src = a :: rest ∧
      dropLate s = ((s.setSrc rest).setLate false).log (.read a) := by
  cases hl : s.late
  · simp [dropLate, hl]
  · cases hs : s.src with
    | nil => simp [dropLate, hl, hs]
    | cons a rest => exact .inr ⟨a, rest, rfl, rfl, by simp [dropLate, hl, hs]⟩

/-- Everything an output beat can do. -/
theorem takeBeat_eq_some {b : Beat} {s t : State} (h : takeBeat b s = some t) :
    ∃ q, s.outReady.take = some q ∧ t = (s.setOutReady q).log (.beat b) := by
  simpa [takeBeat, eq_comm, and_comm] using h

theorem takeBeat_of_take {b : Beat} {s : State} {q : Ready} (h : s.outReady.take = some q) :
    takeBeat b s = some ((s.setOutReady q).log (.beat b)) := by
  simp [takeBeat, h]

theorem takeBeat_eq_none {b : Beat} {s : State} : takeBeat b s = none ↔ s.outReady.take = none := by
  simp [takeBeat]

theorem respond_of_take {r : Response} {s : State} {q : Ready} (h : s.rspReady.take = some q) :
    respond r s = (((s.setRspReady q).log (.response r)).setMode .idle).setWork .boundary := by
  simp [respond, h]

/-- Everything a response can do. -/
theorem respond_cases (r : Response) (s : State) :
    (∃ q, s.rspReady.take = some q ∧
      respond r s = (((s.setRspReady q).log (.response r)).setMode .idle).setWork .boundary) ∨
    s.rspReady.take = none ∧ respond r s = s.setWork (.respond r) := by
  cases h : s.rspReady.take with
  | some q => exact .inl ⟨q, rfl, respond_of_take h⟩
  | none => exact .inr ⟨rfl, by simp [respond, h]⟩

theorem Ready.take_eq_none {q : Ready} : q.take = none ↔ q = .upTo 0 := by
  cases q with
  | always => simp [Ready.take]
  | upTo n => cases n <;> simp [Ready.take]

/-- Everything the draining of a stopped POPULATE can do. -/
theorem drain_cases (left : Nat) (r : Response) (s : State) :
    left ≤ s.cmd.length ∧ drain left r s = respond r (s.setCmd (s.cmd.drop left)) ∨
    s.cmd.length < left ∧ drain left r s = (s.setCmd []).setWork (.drain (left - s.cmd.length) r) := by
  by_cases h : left ≤ s.cmd.length
  · exact .inl ⟨h, by simp [drain, h]⟩
  · exact .inr ⟨by omega, by simp [drain, h]⟩

/-! ### The cursor as a bit string -/

theorem State.pend_lt (s : State) : s.pend < 2 ^ s.v.toNat := by
  have h1 := s.l.isLt
  have h2 : s.v.toNat ≤ 8 := by have := s.v.isLt; omega
  rw [State.pend, Nat.shiftRight_eq_div_pow, Nat.div_lt_iff_lt_mul (by positivity), ← Nat.pow_add]
  rwa [show s.v.toNat + (8 - s.v.toNat) = 8 by omega]

theorem State.bitsVal_pending (s : State) : bitsVal s.pending = s.pend := by
  rw [State.pending, bitsVal_bitsOf, Nat.mod_eq_of_lt s.pend_lt]

theorem bitsVal_byteBits (b : Byte) : bitsVal (byteBits b) = b.toNat := by
  rw [byteBits, bitsVal_bitsOf, Nat.mod_eq_of_lt b.isLt]

/-- R24 as an equation: L is the pending value, left-aligned. -/
theorem CursorInv.l_eq {s : State} (h : CursorInv s) : s.l.toNat = s.pend * 2 ^ (8 - s.v.toNat) := by
  rw [State.pend, Nat.shiftRight_eq_div_pow]
  exact (Nat.div_mul_cancel (Nat.dvd_of_mod_eq_zero h)).symm

theorem leftAlign_toNat {bits : List Bool} (h : bits.length ≤ 8) :
    (leftAlign bits).toNat = bitsVal bits * 2 ^ (8 - bits.length) := by
  have h1 := bitsVal_lt bits
  rw [leftAlign, BitVec.toNat_ofNat, Nat.shiftLeft_eq, Nat.mod_eq_of_lt]
  calc bitsVal bits * 2 ^ (8 - bits.length) < 2 ^ bits.length * 2 ^ (8 - bits.length) :=
        Nat.mul_lt_mul_of_pos_right h1 (by positivity)
    _ = 2 ^ 8 := by rw [← Nat.pow_add]; congr 1; omega

/-- A cursor made to hold some bits holds those bits. -/
theorem State.holding_pending (s : State) {bits : List Bool} (h : bits.length ≤ 7) :
    (s.holding bits).pending = bits := by
  have hv : (BitVec.ofNat 3 bits.length).toNat = bits.length := by
    rw [BitVec.toNat_ofNat]; exact Nat.mod_eq_of_lt (by omega)
  have hp : (s.holding bits).pend = bitsVal bits := by
    simp only [State.pend, State.holding, hv]
    rw [leftAlign_toNat (by omega), Nat.shiftRight_eq_div_pow, Nat.mul_div_cancel _ (by positivity)]
  rw [State.pending, hp]
  simp only [State.holding, hv, bitsOf_bitsVal]

/-- A cursor made to hold some bits meets R24. -/
theorem State.holding_cursorInv (s : State) {bits : List Bool} (h : bits.length ≤ 7) :
    CursorInv (s.holding bits) := by
  have hv : (BitVec.ofNat 3 bits.length).toNat = bits.length := by
    rw [BitVec.toNat_ofNat]; exact Nat.mod_eq_of_lt (by omega)
  simp only [CursorInv, State.holding, hv]
  rw [leftAlign_toNat (by omega), Nat.mul_mod_left]

/-- A cursor that meets R24 is the one that holds its pending bits. -/
theorem State.holding_self {s : State} (h : CursorInv s) : s.holding s.pending = s := by
  have hl : leftAlign s.pending = s.l := by
    apply BitVec.eq_of_toNat_eq
    rw [leftAlign_toNat (by have := s.v.isLt; simp; omega), State.bitsVal_pending, State.pending_length, ← h.l_eq]
  rw [State.holding, hl, State.pending_length]
  simp

/-! ### P8 -/

/-- The serve path on the pending bit string. -/
theorem p8_serve {s : State} {n : Nat} (hc : CursorInv s) (hn : n ≤ s.v.toNat) :
    p8 n s = (.ok (BitVec.ofNat 8 (bitsVal (s.pending.take n))), s.holding (s.pending.drop n)) := by
  have hv := s.v.isLt
  have hl := hc.l_eq
  have e1 : s.l.toNat >>> (8 - n) = bitsVal (s.pending.take n) := by
    rw [bitsVal_take, State.bitsVal_pending, State.pending_length, Nat.shiftRight_eq_div_pow, State.pend,
      Nat.shiftRight_eq_div_pow, Nat.div_div_eq_div_mul, ← Nat.pow_add]
    congr 2; omega
  have e2 : BitVec.ofNat 8 (s.l.toNat <<< n) = leftAlign (s.pending.drop n) := by
    apply BitVec.eq_of_toNat_eq
    rw [leftAlign_toNat (by simp; omega), bitsVal_drop, State.bitsVal_pending, List.length_drop,
      State.pending_length, BitVec.toNat_ofNat, hl, Nat.shiftLeft_eq, Nat.mul_assoc, ← Nat.pow_add]
    have h8 : 2 ^ 8 = 2 ^ (s.v.toNat - n) * 2 ^ (8 - s.v.toNat + n) := by
      rw [← Nat.pow_add]; congr 1; omega
    rw [h8, Nat.mul_mod_mul_right]
    congr 2; omega
  simp only [p8, if_pos hn, p8Serve, e1, e2, State.holding, State.setCursor, List.length_drop, State.pending_length]

/-- The pull path with a byte, on the pending bit string. -/
theorem p8_pull {s : State} {n : Nat} {b : Byte} {rest : List Answer} (hl : s.late = false)
    (hs : s.src = .byte b :: rest) (hn : s.v.toNat < n) (h8 : n ≤ 8) :
    p8 n s = (.ok (BitVec.ofNat 8 (bitsVal ((s.pending ++ byteBits b).take n))),
      ((((s.setSrc rest).log (.read (.byte b))).holding ((s.pending ++ byteBits b).drop n)).setStarted true)) := by
  have hb : b.toNat < 256 := b.isLt
  have hlen : (s.pending ++ byteBits b).length = s.v.toNat + 8 := by simp
  have hval : bitsVal (s.pending ++ byteBits b) = s.pend * 2 ^ 8 + b.toNat := by
    rw [bitsVal_append, State.bitsVal_pending, bitsVal_byteBits, byteBits_length]
  obtain ⟨k, hk⟩ : ∃ k, n = s.v.toNat + k := ⟨n - s.v.toNat, by omega⟩
  have hk1 : n - s.v.toNat = k := by omega
  have hk8 : k ≤ 8 := by omega
  have hsplit : 2 ^ 8 = 2 ^ k * 2 ^ (8 - k) := by rw [← Nat.pow_add]; congr 1; omega
  have e1 : (s.pend <<< k) ||| (b.toNat >>> (8 - k)) = bitsVal ((s.pending ++ byteBits b).take n) := by
    have hlt : b.toNat >>> (8 - k) < 2 ^ k := by
      rw [Nat.shiftRight_eq_div_pow, Nat.div_lt_iff_lt_mul (by positivity), ← hsplit]; exact hb
    rw [← Nat.shiftLeft_add_eq_or_of_lt hlt, bitsVal_take, hlen, hval,
      show s.v.toNat + 8 - n = 8 - k by omega, hsplit, Nat.shiftLeft_eq, Nat.shiftRight_eq_div_pow, ← Nat.mul_assoc,
      Nat.add_comm (s.pend * 2 ^ k * 2 ^ (8 - k)), Nat.add_mul_div_right _ _ (by positivity), Nat.add_comm]
  have e2 : BitVec.ofNat 8 (b.toNat <<< k) = leftAlign ((s.pending ++ byteBits b).drop n) := by
    apply BitVec.eq_of_toNat_eq
    rw [leftAlign_toNat (by rw [List.length_drop, hlen]; omega), bitsVal_drop, List.length_drop, hlen, hval,
      show s.v.toNat + 8 - n = 8 - k by omega, BitVec.toNat_ofNat, Nat.shiftLeft_eq, hsplit, ← Nat.mul_assoc,
      Nat.mul_add_mod_self_right, Nat.mul_comm (2 ^ k), Nat.mul_mod_mul_right]
    congr 2; omega
  have e3 : ((s.pending ++ byteBits b).drop n).length = 8 - k := by rw [List.length_drop, hlen]; omega
  have hp : ((s.setSrc rest).log (.read (.byte b))).pend = s.pend := rfl
  simp only [p8, if_neg (Nat.not_le.mpr hn), srcRead_of_cons hl hs, p8Byte, hp, State.log_v, State.setSrc_v, hk1, e1,
    e2, State.holding, State.setCursor, e3]

/-- The pull path at end of input, on the pending bit string. -/
theorem p8_eof {s : State} {n : Nat} {rest : List Answer} (hc : CursorInv s) (hl : s.late = false)
    (hs : s.src = .eof :: rest) (hn : s.v.toNat < n) (h8 : n ≤ 8) :
    p8 n s = (.exhausted (BitVec.ofNat 8 (bitsVal s.pending * 2 ^ (n - s.v.toNat))) (s.v.setWidth 7),
      ((s.setSrc rest).log (.read .eof)).holding []) := by
  have e1 : s.l.toNat >>> (8 - n) = bitsVal s.pending * 2 ^ (n - s.v.toNat) := by
    rw [hc.l_eq, State.bitsVal_pending, Nat.shiftRight_eq_div_pow,
      show 8 - s.v.toNat = (n - s.v.toNat) + (8 - n) by omega, Nat.pow_add, ← Nat.mul_assoc,
      Nat.mul_div_cancel _ (by positivity)]
  simp only [p8, if_neg (Nat.not_le.mpr hn), srcRead_of_cons hl hs, p8Eof, State.log_l, State.setSrc_l, e1]
  rfl

/-- The pull path with a source error. -/
theorem p8_err {s : State} {n : Nat} {e : SrcErr} {rest : List Answer} (hl : s.late = false)
    (hs : s.src = .err e :: rest) (hn : s.v.toNat < n) :
    p8 n s = (.sourceError e, ((s.setSrc rest).log (.read (.err e))).holding []) := by
  simp only [p8, if_neg (Nat.not_le.mpr hn), srcRead_of_cons hl hs, p8Err]
  rfl

/-- The pull path with no answer: nothing happens. -/
theorem p8_wait {s : State} {n : Nat} (hr : srcRead s = none) (hn : s.v.toNat < n) : p8 n s = (.wait, s) := by
  simp only [p8, if_neg (Nat.not_le.mpr hn), hr]

/-- Everything P8 can do to the state: it serves the request, or it makes one read, or it waits. -/
theorem p8_cases (n : Nat) (s : State) :
    n ≤ s.v.toNat ∧ p8 n s = p8Serve n s ∨
    s.v.toNat < n ∧
      ((∃ b rest, s.late = false ∧ s.src = .byte b :: rest ∧
          p8 n s = p8Byte n b ((s.setSrc rest).log (.read (.byte b)))) ∨
        (∃ rest, s.late = false ∧ s.src = .eof :: rest ∧ p8 n s = p8Eof n ((s.setSrc rest).log (.read .eof))) ∨
        (∃ e rest, s.late = false ∧ s.src = .err e :: rest ∧
          p8 n s = p8Err e ((s.setSrc rest).log (.read (.err e)))) ∨
        (srcRead s = none ∧ p8 n s = (.wait, s))) := by
  by_cases hn : n ≤ s.v.toNat
  · exact .inl ⟨hn, by simp [p8, hn]⟩
  refine .inr ⟨by omega, ?_⟩
  cases hr : srcRead s with
  | none => exact .inr (.inr (.inr ⟨rfl, p8_wait hr (by omega)⟩))
  | some p =>
    obtain ⟨a, t⟩ := p
    obtain ⟨hl, rest, hs, rfl⟩ := srcRead_eq_some hr
    cases a with
    | byte b => exact .inl ⟨b, rest, hl, hs, by simp [p8, hn, hr]⟩
    | eof => exact .inr (.inl ⟨rest, hl, hs, by simp [p8, hn, hr]⟩)
    | err e => exact .inr (.inr (.inl ⟨e, rest, hl, hs, by simp [p8, hn, hr]⟩))

/-- What P8 leaves alone: it writes L, V and S and takes at most one answer, which it logs. -/
theorem p8_frame (n : Nat) (s : State) :
    ∃ l v b src es, (p8 n s).2 = { s with l := l, v := v, started := b, src := src, trace := s.trace ++ es } := by
  rcases p8_cases n s with ⟨-, h⟩ | ⟨-, ⟨b, rest, -, -, h⟩ | ⟨rest, -, -, h⟩ | ⟨e, rest, -, -, h⟩ | ⟨-, h⟩⟩ <;> rw [h]
  · exact ⟨_, _, s.started, s.src, [], by simp only [p8Serve, State.setCursor, List.append_nil]; rfl⟩
  · exact ⟨_, _, true, rest, [.read (.byte b)], rfl⟩
  · exact ⟨_, _, s.started, rest, [.read .eof], rfl⟩
  · exact ⟨_, _, s.started, rest, [.read (.err e)], rfl⟩
  · exact ⟨s.l, s.v, s.started, s.src, [], by simp⟩

/-- A P8 that waits has done nothing. -/
theorem p8_wait_state {n : Nat} {s t : State} (hp : p8 n s = (.wait, t)) : t = s := by
  rcases p8_cases n s with ⟨-, h⟩ | ⟨-, ⟨b, rest, -, -, h⟩ | ⟨rest, -, -, h⟩ | ⟨e, rest, -, -, h⟩ | ⟨-, h⟩⟩ <;>
    rw [hp] at h
  · exact absurd (congrArg Prod.fst h) (by simp [p8Serve])
  · exact absurd (congrArg Prod.fst h) (by simp [p8Byte])
  · exact absurd (congrArg Prod.fst h) (by simp [p8Eof])
  · exact absurd (congrArg Prod.fst h) (by simp [p8Err])
  · exact congrArg Prod.snd h

end Sys2Proof.Machine
end

