-- ==== Sys2Proof/Laws/Xw.lean ====
section
/-!
SUPPORT. The chunk plan of R94 and the aggregator XW over ANY plan of chunks of 1 to 8 bits: what it returns and leaves
when the source answers bytes only, bytes and then Eof, bytes and then an error, or too few bytes.
-/

namespace Sys2Proof.Machine

/-! ### The chunk plan -/

/-- A list of chunks that P8 can serve. -/
abbrev Plan (cs : List Nat) : Prop := ∀ c ∈ cs, 1 ≤ c ∧ c ≤ 8

theorem chunksAt_plan (level n : Nat) (h1 : 1 ≤ n) (h2 : n ≤ 8 <<< level) :
    Plan (chunksAt level n) ∧ (chunksAt level n).sum = n ∧ chunksAt level n ≠ [] := by
  induction level generalizing n with
  | zero => exact ⟨fun c hc => by simp [chunksAt] at hc; simp at h2; omega, by simp [chunksAt], by simp [chunksAt]⟩
  | succ level ih =>
    have hp : 8 <<< (level + 1) = 2 * 8 <<< level := by simp only [Nat.shiftLeft_eq, Nat.pow_succ]; ring
    have h0 : 1 ≤ 8 <<< level := by rw [Nat.shiftLeft_eq]; have := Nat.one_le_two_pow (n := level); omega
    rw [chunksAt]
    split
    · exact ih n h1 (by assumption)
    · obtain ⟨a1, a2, a3⟩ := ih (8 <<< level) h0 (Nat.le_refl _)
      obtain ⟨b1, b2, -⟩ := ih (n - 8 <<< level) (by omega) (by omega)
      exact ⟨fun c hc => (List.mem_append.mp hc).elim (a1 c) (b1 c), by rw [List.sum_append, a2, b2]; omega, by simp [a3]⟩

/-- The plan of R94 splits the request into chunks of 1 to 8 bits. -/
theorem chunks_plan {w : Width} {n : Nat} (h1 : 1 ≤ n) (h2 : n ≤ w.bits) :
    Plan (chunks w n) ∧ (chunks w n).sum = n ∧ chunks w n ≠ [] :=
  chunksAt_plan w.code n h1 h2

theorem Width.bits_le (w : Width) : w.bits ≤ 64 := by cases w <;> decide

/-! ### The available bits -/

theorem readsFor_le (n v : Nat) (hv : v ≤ 7) : v + 8 * readsFor n v - n ≤ 7 ∧ n ≤ v + 8 * readsFor n v := by
  unfold readsFor; omega

theorem State.available_append (s : State) (xs ys : List Byte) :
    s.available (xs ++ ys) = s.available xs ++ ys.flatMap byteBits := by
  simp [State.available]

/-! ### ACC -/

theorem accumulate_acc_toNat (c : Nat) (value : Byte) (nv : Size) (s : State) (hc : value.toNat < 2 ^ c) :
    (accumulate c value nv s).acc = BitVec.ofNat 64 (s.acc.toNat * 2 ^ c + value.toNat) := by
  rw [accumulate, State.setAccum_acc, ← Nat.shiftLeft_add_eq_or_of_lt hc, Nat.shiftLeft_eq]

/-- What XW leaves when it ends OK: `bits` of the available ones are taken, after `bytes` were read. -/
def xwDone (s : State) (bytes : List Byte) (rest : List Answer) (n : Nat) : State :=
  { s.holding ((s.available bytes).drop n) with
    started := s.started || !bytes.isEmpty
    acc := BitVec.ofNat 64 (s.acc.toNat * 2 ^ n + bitsVal ((s.available bytes).take n))
    nacc := s.nacc + BitVec.ofNat 7 n
    src := rest
    trace := s.trace ++ readEvents bytes }

theorem ofNat_mul_add_ofNat (x y a b c : Nat) :
    BitVec.ofNat 64 ((BitVec.ofNat 64 (x * 2 ^ a + y)).toNat * 2 ^ b + c) =
      BitVec.ofNat 64 (x * 2 ^ (a + b) + (y * 2 ^ b + c)) := by
  apply BitVec.eq_of_toNat_eq
  simp only [BitVec.toNat_ofNat]
  rw [Nat.add_mod, Nat.mul_mod, Nat.mod_mod, ← Nat.mul_mod, ← Nat.add_mod]
  congr 1
  rw [Nat.pow_add]; ring

/-- Two parts of an extraction, one after the other, are the extraction of their sum. -/
theorem xwDone_xwDone (s : State) (pre bytes : List Byte) (mid rest : List Answer) (c m : Nat)
    (h1 : c ≤ (s.available pre).length) (h2 : (s.available pre).length ≤ c + 7)
    (h3 : c + m ≤ (s.available (pre ++ bytes)).length) :
    xwDone (xwDone s pre mid c) bytes rest m = xwDone s (pre ++ bytes) rest (c + m) := by
  have hav : (xwDone s pre mid c).available bytes = (s.available (pre ++ bytes)).drop c := by
    have hp : (xwDone s pre mid c).pending = (s.available pre).drop c :=
      State.holding_pending s (bits := (s.available pre).drop c) (by rw [List.length_drop]; omega)
    rw [State.available, hp, State.available_append, List.drop_append_of_le_length h1]
  have hacc : (xwDone s pre mid c).acc.toNat * 2 ^ m + bitsVal (((s.available (pre ++ bytes)).drop c).take m) =
      (BitVec.ofNat 64 (s.acc.toNat * 2 ^ c + bitsVal ((s.available pre).take c))).toNat * 2 ^ m +
        bitsVal (((s.available (pre ++ bytes)).drop c).take m) := rfl
  have htake : bitsVal ((s.available (pre ++ bytes)).take (c + m)) =
      bitsVal ((s.available pre).take c) * 2 ^ m + bitsVal (((s.available (pre ++ bytes)).drop c).take m) := by
    rw [List.take_add, bitsVal_append, List.length_take, List.length_drop, Nat.min_eq_left (by omega),
      State.available_append, List.take_append_of_le_length h1]
  have hn : s.nacc + BitVec.ofNat 7 c + BitVec.ofNat 7 m = s.nacc + BitVec.ofNat 7 (c + m) := by
    rw [BitVec.add_assoc, ← BitVec.ofNat_add]
  have hst : (s.started || !pre.isEmpty || !bytes.isEmpty) = (s.started || !(pre ++ bytes).isEmpty) := by
    cases s.started <;> cases pre <;> cases bytes <;> rfl
  have htr : s.trace ++ readEvents pre ++ readEvents bytes = s.trace ++ readEvents (pre ++ bytes) := by
    simp [readEvents]
  rw [xwDone, hav, hacc, ofNat_mul_add_ofNat, ← htake, List.drop_drop]
  simp only [xwDone, State.holding, hn, hst, htr]

/-- One chunk served from the pending bits. -/
theorem chunk_serve {s : State} {c : Nat} (hc : CursorInv s) (h8 : c ≤ 8) (hn : c ≤ s.v.toNat) :
    ∃ value, p8 c s = (.ok value, s.holding (s.pending.drop c)) ∧
      accumulate c value (BitVec.ofNat 7 c) (s.holding (s.pending.drop c)) = xwDone s [] s.src c := by
  refine ⟨_, p8_serve hc hn, ?_⟩
  have hlt := bitsVal_lt (s.pending.take c)
  rw [List.length_take, State.pending_length, Nat.min_eq_left hn] at hlt
  have hv : (BitVec.ofNat 8 (bitsVal (s.pending.take c))).toNat = bitsVal (s.pending.take c) := by
    rw [BitVec.toNat_ofNat, Nat.mod_eq_of_lt (Nat.lt_of_lt_of_le hlt (Nat.pow_le_pow_right (by decide) h8))]
  have hacc := accumulate_acc_toNat c _ (BitVec.ofNat 7 c) (s.holding (s.pending.drop c)) (by rw [hv]; exact hlt)
  rw [hv] at hacc
  apply State.ext <;> simp_all [accumulate, xwDone, State.holding, State.available, readEvents]

/-- One chunk that pulls a byte. -/
theorem chunk_pull {s : State} {c : Nat} {b : Byte} {rest : List Answer} (hl : s.late = false)
    (hs : s.src = .byte b :: rest) (hn : s.v.toNat < c) (h8 : c ≤ 8) :
    ∃ value t, p8 c s = (.ok value, t) ∧ accumulate c value (BitVec.ofNat 7 c) t = xwDone s [b] rest c := by
  refine ⟨_, _, p8_pull hl hs hn h8, ?_⟩
  have hlt := bitsVal_lt ((s.pending ++ byteBits b).take c)
  rw [List.length_take, List.length_append, State.pending_length, byteBits_length, Nat.min_eq_left (by omega)] at hlt
  have hv : (BitVec.ofNat 8 (bitsVal ((s.pending ++ byteBits b).take c))).toNat =
      bitsVal ((s.pending ++ byteBits b).take c) := by
    rw [BitVec.toNat_ofNat, Nat.mod_eq_of_lt (Nat.lt_of_lt_of_le hlt (Nat.pow_le_pow_right (by decide) h8))]
  have hacc := accumulate_acc_toNat c _ (BitVec.ofNat 7 c)
    ((((s.setSrc rest).log (.read (.byte b))).holding ((s.pending ++ byteBits b).drop c)).setStarted true)
    (by rw [hv]; exact hlt)
  rw [hv] at hacc
  apply State.ext <;> simp_all [accumulate, xwDone, State.holding, State.available, readEvents]

@[simp] theorem xwDone_late (s : State) (bytes : List Byte) (rest : List Answer) (n : Nat) :
    (xwDone s bytes rest n).late = s.late := rfl

@[simp] theorem xwDone_src (s : State) (bytes : List Byte) (rest : List Answer) (n : Nat) :
    (xwDone s bytes rest n).src = rest := rfl

@[simp] theorem xwDone_nacc (s : State) (bytes : List Byte) (rest : List Answer) (n : Nat) :
    (xwDone s bytes rest n).nacc = s.nacc + BitVec.ofNat 7 n := rfl

theorem xwDone_cursorInv (s : State) (bytes : List Byte) (rest : List Answer) (n : Nat)
    (h : (s.available bytes).length ≤ n + 7) : CursorInv (xwDone s bytes rest n) :=
  State.holding_cursorInv s (bits := (s.available bytes).drop n) (by rw [List.length_drop]; omega)

theorem xwDone_pending (s : State) (bytes : List Byte) (rest : List Answer) (n : Nat)
    (h : (s.available bytes).length ≤ n + 7) : (xwDone s bytes rest n).pending = (s.available bytes).drop n :=
  State.holding_pending s (bits := (s.available bytes).drop n) (by rw [List.length_drop]; omega)

theorem xwDone_v (s : State) (bytes : List Byte) (rest : List Answer) (n : Nat)
    (h : (s.available bytes).length ≤ n + 7) :
    (xwDone s bytes rest n).v.toNat = s.v.toNat + 8 * bytes.length - n := by
  rw [← State.pending_length, xwDone_pending _ _ _ _ h, List.length_drop, State.available_length]

/-- An extraction of no bits does nothing. -/
theorem xwDone_zero {s : State} (hc : CursorInv s) : xwDone s [] s.src 0 = s := by
  have h := State.holding_self hc
  simp only [State.holding] at h
  apply State.ext <;> simp_all [xwDone, State.holding, State.available, readEvents, bitsVal]

/-- XW over any plan, with bytes enough (R102, law 1): it ends OK. -/
theorem xwLoop_ok {cs : List Nat} (hp : Plan cs) {s : State} {bytes : List Byte} {rest : List Answer}
    (hc : CursorInv s) (hl : s.late = false) (hs : s.src = bytes.map .byte ++ rest)
    (hb : bytes.length = readsFor cs.sum s.v.toNat) :
    xwLoop cs s = (.ok (xwDone s bytes rest cs.sum).acc, xwDone s bytes rest cs.sum) := by
  induction cs generalizing s bytes with
  | nil =>
    have hv := s.v.isLt
    have h0 : bytes = [] := List.eq_nil_of_length_eq_zero (by rw [hb, List.sum_nil, readsFor]; omega)
    subst h0
    have hr : rest = s.src := by simpa using hs.symm
    subst hr
    rw [List.sum_nil, xwDone_zero hc, xwLoop]
  | cons c cs ih =>
    have hv := s.v.isLt
    obtain ⟨h1, h8⟩ := hp c (by simp)
    have hp' : Plan cs := fun d hd => hp d (by simp [hd])
    rw [List.sum_cons] at hb ⊢
    by_cases hn : c ≤ s.v.toNat
    · obtain ⟨value, e1, e2⟩ := chunk_serve hc h8 hn
      have hlen : (s.available []).length = s.v.toNat := by simp [State.available_length]
      have hvv := xwDone_v s [] s.src c (by omega)
      simp only [List.length_nil] at hvv
      rw [xwLoop, e1]
      simp only [e2]
      rw [ih hp' (xwDone_cursorInv _ _ _ _ (by omega)) hl hs (by rw [hvv, hb]; unfold readsFor; omega),
        xwDone_xwDone _ _ _ _ _ _ _ (by omega) (by omega)
          (by rw [List.nil_append, State.available_length, hb]; unfold readsFor; omega), List.nil_append]
    · cases bytes with
      | nil => exfalso; rw [List.length_nil, readsFor] at hb; omega
      | cons b bytes =>
        simp only [List.map_cons, List.cons_append, List.length_cons] at hs hb
        obtain ⟨value, t, e1, e2⟩ := chunk_pull hl hs (by omega) h8
        have hlen : (s.available [b]).length = s.v.toNat + 8 := by simp [State.available_length]
        have hvv := xwDone_v s [b] (bytes.map .byte ++ rest) c (by omega)
        simp only [List.length_cons, List.length_nil] at hvv
        rw [xwLoop, e1]
        simp only [e2]
        rw [ih hp' (xwDone_cursorInv _ _ _ _ (by omega)) hl rfl
            (by rw [hvv]; unfold readsFor at hb ⊢; omega),
          xwDone_xwDone _ _ _ _ _ _ _ (by omega) (by omega)
            (by rw [State.available_length]; simp only [List.cons_append, List.nil_append, List.length_cons]
                unfold readsFor at hb; omega)]
        rfl

theorem ofNat_congr_mod (x y a b : Nat) :
    BitVec.ofNat 64 ((BitVec.ofNat 64 x).toNat * a + y) = BitVec.ofNat 64 (x * a + y) ∧
      BitVec.ofNat 64 (((BitVec.ofNat 64 x).toNat * a + y) * b) = BitVec.ofNat 64 ((x * a + y) * b) := by
  have h : (x % 2 ^ 64 * a + y) % 2 ^ 64 = (x * a + y) % 2 ^ 64 := by
    rw [Nat.add_mod, Nat.mul_mod, Nat.mod_mod, ← Nat.mul_mod, ← Nat.add_mod]
  constructor <;> apply BitVec.eq_of_toNat_eq <;> simp only [BitVec.toNat_ofNat]
  · exact h
  · rw [Nat.mul_mod, h, ← Nat.mul_mod]

/-- The first chunk of a plan, when it ends OK: what was read, and what is left to do. -/
theorem xwLoop_chunk_ok {c : Nat} {s : State} (hc : CursorInv s) (hl : s.late = false) (h8 : c ≤ 8)
    (cs : List Nat) {bytes : List Byte} {rest : List Answer} (hs : s.src = bytes.map .byte ++ rest)
    (hn : c ≤ s.v.toNat ∨ bytes ≠ []) :
    ∃ pre post, bytes = pre ++ post ∧ c ≤ (s.available pre).length ∧ (s.available pre).length ≤ c + 7 ∧
      xwLoop (c :: cs) s = xwLoop cs (xwDone s pre (post.map .byte ++ rest) c) := by
  have hv := s.v.isLt
  by_cases h : c ≤ s.v.toNat
  · obtain ⟨value, e1, e2⟩ := chunk_serve hc h8 h
    refine ⟨[], bytes, rfl, by simpa [State.available_length] using h, by simp [State.available_length]; omega, ?_⟩
    rw [xwLoop, e1]
    simp only [e2, hs]
  · cases bytes with
    | nil => exact absurd rfl (hn.resolve_left h)
    | cons b bytes =>
      obtain ⟨value, t, e1, e2⟩ := chunk_pull hl hs (by omega) h8
      refine ⟨[b], bytes, rfl, by simp [State.available_length]; omega, by simp [State.available_length]; omega, ?_⟩
      rw [xwLoop, e1]
      simp only [e2]
      rfl

/-- XW over any plan when an Eof comes first (R102, law 2): it ends EXHAUSTED, its value the available bits followed by
zeros, and leaves the cursor empty. What ACC holds depends on the plan. -/
theorem xwLoop_eof {cs : List Nat} (hp : Plan cs) {s : State} {bytes : List Byte} {rest : List Answer}
    (hc : CursorInv s) (hl : s.late = false) (hs : s.src = bytes.map .byte ++ .eof :: rest)
    (hb : (s.available bytes).length < cs.sum) :
    ∃ acc, xwLoop cs s =
      (.exhausted
          (BitVec.ofNat 64 ((s.acc.toNat * 2 ^ (s.available bytes).length + bitsVal (s.available bytes)) *
            2 ^ (cs.sum - (s.available bytes).length)))
          (s.nacc + BitVec.ofNat 7 (s.available bytes).length),
        { s.holding [] with
          started := s.started || !bytes.isEmpty
          acc := acc
          nacc := s.nacc + BitVec.ofNat 7 (s.available bytes).length
          src := rest
          trace := s.trace ++ readEvents bytes ++ [.read .eof] }) := by
  induction cs generalizing s bytes with
  | nil => simp at hb
  | cons c cs ih =>
    have hv := s.v.isLt
    obtain ⟨h1, h8⟩ := hp c (by simp)
    rw [List.sum_cons] at hb ⊢
    by_cases hn : c ≤ s.v.toNat ∨ bytes ≠ []
    · obtain ⟨pre, post, rfl, a1, a2, e⟩ := xwLoop_chunk_ok hc hl h8 cs hs hn
      have hpend := xwDone_pending s pre (post.map .byte ++ .eof :: rest) c a2
      have hav : (xwDone s pre (post.map .byte ++ .eof :: rest) c).available post =
          (s.available (pre ++ post)).drop c := by
        rw [State.available, hpend, State.available_append, List.drop_append_of_le_length a1]
      have hlen : (s.available (pre ++ post)).length = (s.available pre).length + 8 * post.length := by
        rw [State.available_length, State.available_length, List.length_append]; omega
      have hlen' : ((s.available (pre ++ post)).drop c).length = (s.available (pre ++ post)).length - c :=
        List.length_drop
      obtain ⟨acc, e'⟩ := ih (fun d hd => hp d (by simp [hd]))
        (s := xwDone s pre (post.map .byte ++ .eof :: rest) c) (bytes := post)
        (xwDone_cursorInv _ _ _ _ a2) hl rfl (by rw [hav, hlen']; omega)
      refine ⟨acc, ?_⟩
      rw [e, e', hav]
      have hval : (s.acc.toNat * 2 ^ c + bitsVal ((s.available pre).take c)) *
            2 ^ ((s.available (pre ++ post)).drop c).length + bitsVal ((s.available (pre ++ post)).drop c) =
          s.acc.toNat * 2 ^ (s.available (pre ++ post)).length + bitsVal (s.available (pre ++ post)) := by
        have h := bitsVal_append ((s.available (pre ++ post)).take c) ((s.available (pre ++ post)).drop c)
        rw [List.take_append_drop] at h
        rw [h, State.available_append, List.take_append_of_le_length a1, ← State.available_append, Nat.add_mul,
          Nat.mul_assoc, ← Nat.pow_add, hlen', show c + ((s.available (pre ++ post)).length - c) =
            (s.available (pre ++ post)).length by omega, Nat.add_assoc]
      have hacc : (xwDone s pre (post.map .byte ++ .eof :: rest) c).acc =
          BitVec.ofNat 64 (s.acc.toNat * 2 ^ c + bitsVal ((s.available pre).take c)) := rfl
      have hnn : s.nacc + BitVec.ofNat 7 c + BitVec.ofNat 7 ((s.available (pre ++ post)).length - c) =
          s.nacc + BitVec.ofNat 7 (s.available (pre ++ post)).length := by
        rw [BitVec.add_assoc, ← BitVec.ofNat_add]; congr 2; omega
      rw [hacc, (ofNat_congr_mod _ _ _ _).2, hval, xwDone_nacc, hlen', hnn]
      have hst : (s.started || !pre.isEmpty || !post.isEmpty) = (s.started || !(pre ++ post).isEmpty) := by
        cases s.started <;> cases pre <;> cases post <;> rfl
      congr 2
      · congr 3; omega
      · simp only [xwDone, State.holding, hst, readEvents, List.map_append, List.append_assoc]
    · push Not at hn
      obtain ⟨hn, rfl⟩ := hn
      have e := p8_eof hc hl hs hn h8
      have hlen : (s.available []).length = s.v.toNat := by simp [State.available_length]
      have hpend : bitsVal (s.available []) = bitsVal s.pending := by simp [State.available]
      have hplt := bitsVal_lt s.pending
      rw [State.pending_length] at hplt
      have hlt : bitsVal s.pending * 2 ^ (c - s.v.toNat) < 2 ^ c := by
        calc _ < 2 ^ s.v.toNat * 2 ^ (c - s.v.toNat) := Nat.mul_lt_mul_of_pos_right hplt (by positivity)
          _ = 2 ^ c := by rw [← Nat.pow_add]; congr 1; omega
      have hv8 : (BitVec.ofNat 8 (bitsVal s.pending * 2 ^ (c - s.v.toNat))).toNat =
          bitsVal s.pending * 2 ^ (c - s.v.toNat) := by
        rw [BitVec.toNat_ofNat, Nat.mod_eq_of_lt (Nat.lt_of_lt_of_le hlt (Nat.pow_le_pow_right (by decide) h8))]
      have hacc := accumulate_acc_toNat c (BitVec.ofNat 8 (bitsVal s.pending * 2 ^ (c - s.v.toNat)))
        (s.v.setWidth 7) (((s.setSrc rest).log (.read .eof)).holding []) (by rw [hv8]; exact hlt)
      rw [hv8] at hacc
      have hvw : s.v.setWidth 7 = BitVec.ofNat 7 s.v.toNat := by
        apply BitVec.eq_of_toNat_eq; simp
      refine ⟨BitVec.ofNat 64 (s.acc.toNat * 2 ^ c + bitsVal s.pending * 2 ^ (c - s.v.toNat)), ?_⟩
      rw [xwLoop, e]
      simp only [hacc, hlen, hpend]
      have hsacc : (((s.setSrc rest).log (.read .eof)).holding []).acc = s.acc := rfl
      rw [hsacc, Nat.shiftLeft_eq]
      have := (ofNat_congr_mod (s.acc.toNat * 2 ^ c + bitsVal s.pending * 2 ^ (c - s.v.toNat)) 0 1 (2 ^ cs.sum)).2
      simp only [Nat.mul_one, Nat.add_zero] at this
      rw [this]
      have hpow : 2 ^ c = 2 ^ s.v.toNat * 2 ^ (c - s.v.toNat) := by
        rw [← Nat.pow_add]; congr 1; omega
      have hval : (s.acc.toNat * 2 ^ c + bitsVal s.pending * 2 ^ (c - s.v.toNat)) * 2 ^ cs.sum =
          (s.acc.toNat * 2 ^ s.v.toNat + bitsVal s.pending) * 2 ^ (c + cs.sum - s.v.toNat) := by
        rw [show c + cs.sum - s.v.toNat = (c - s.v.toNat) + cs.sum by omega, Nat.pow_add, hpow]; ring
      rw [hval]
      have hna : (accumulate c (BitVec.ofNat 8 (bitsVal s.pending * 2 ^ (c - s.v.toNat))) (s.v.setWidth 7)
          (((s.setSrc rest).log (.read .eof)).holding [])).nacc = s.nacc + BitVec.ofNat 7 s.v.toNat := by
        rw [← hvw]; rfl
      rw [hna]
      congr 1
      apply State.ext
      all_goals first
        | rfl
        | exact hacc
        | exact hna
        | simp [accumulate, State.holding, readEvents]

/-- XW over any plan when a source error comes first (R102, law 3): it ends SOURCE_ERROR and leaves the cursor empty.
What ACC and NACC hold depends on the plan. -/
theorem xwLoop_err {cs : List Nat} (hp : Plan cs) {s : State} {bytes : List Byte} {e : SrcErr} {rest : List Answer}
    (hc : CursorInv s) (hl : s.late = false) (hs : s.src = bytes.map .byte ++ .err e :: rest)
    (hb : (s.available bytes).length < cs.sum) :
    ∃ acc nacc, xwLoop cs s =
      (.sourceError e,
        { s.holding [] with
          started := s.started || !bytes.isEmpty
          acc := acc
          nacc := nacc
          src := rest
          trace := s.trace ++ readEvents bytes ++ [.read (.err e)] }) := by
  induction cs generalizing s bytes with
  | nil => simp at hb
  | cons c cs ih =>
    obtain ⟨h1, h8⟩ := hp c (by simp)
    rw [List.sum_cons] at hb
    by_cases hn : c ≤ s.v.toNat ∨ bytes ≠ []
    · obtain ⟨pre, post, rfl, a1, a2, h⟩ := xwLoop_chunk_ok hc hl h8 cs hs hn
      have hlen : ((xwDone s pre (post.map .byte ++ .err e :: rest) c).available post).length + c =
          (s.available (pre ++ post)).length := by
        rw [State.available_length] at a1 a2
        rw [State.available_length, State.available_length, xwDone_v _ _ _ _ (by rw [State.available_length]; omega),
          List.length_append]
        omega
      obtain ⟨acc, nacc, h'⟩ := ih (fun d hd => hp d (by simp [hd]))
        (s := xwDone s pre (post.map .byte ++ .err e :: rest) c) (bytes := post)
        (xwDone_cursorInv _ _ _ _ a2) hl rfl (by omega)
      refine ⟨acc, nacc, ?_⟩
      have hst : (s.started || !pre.isEmpty || !post.isEmpty) = (s.started || !(pre ++ post).isEmpty) := by
        cases s.started <;> cases pre <;> cases post <;> rfl
      rw [h, h']
      simp only [xwDone, State.holding, hst, readEvents, List.map_append, List.append_assoc]
    · push Not at hn
      obtain ⟨hn, rfl⟩ := hn
      refine ⟨s.acc, s.nacc, ?_⟩
      rw [xwLoop, p8_err hl hs hn]
      simp only [Prod.mk.injEq, true_and]
      apply State.ext <;> simp [State.holding, readEvents]

/-- XW over any plan when the source has given too few bytes (R169): it waits at a chunk that asks for more than is
pending, and the extraction is done up to it. -/
theorem xwLoop_wait {cs : List Nat} (hp : Plan cs) {s : State} {bytes : List Byte}
    (hc : CursorInv s) (hl : s.late = false) (hs : s.src = bytes.map .byte)
    (hb : (s.available bytes).length < cs.sum) :
    ∃ left, left <:+ cs ∧ xwLoop cs s = (.wait left, xwDone s bytes [] (cs.sum - left.sum)) ∧
      cs.sum - left.sum ≤ (s.available bytes).length ∧
      (xwDone s bytes [] (cs.sum - left.sum)).v.toNat < left.headD 0 := by
  induction cs generalizing s bytes with
  | nil => simp at hb
  | cons c cs ih =>
    have hv := s.v.isLt
    obtain ⟨h1, h8⟩ := hp c (by simp)
    rw [List.sum_cons] at hb ⊢
    by_cases hn : c ≤ s.v.toNat ∨ bytes ≠ []
    · obtain ⟨pre, post, rfl, a1, a2, h⟩ := xwLoop_chunk_ok hc hl h8 cs (rest := []) (by simpa using hs) hn
      rw [List.append_nil] at h
      have hlen : ((xwDone s pre (post.map .byte) c).available post).length + c =
          (s.available (pre ++ post)).length := by
        rw [State.available_length] at a1 a2
        rw [State.available_length, State.available_length, xwDone_v _ _ _ _ (by rw [State.available_length]; omega),
          List.length_append]
        omega
      obtain ⟨left, b1, b2, b4, b3⟩ := ih (fun d hd => hp d (by simp [hd]))
        (s := xwDone s pre (post.map .byte) c) (bytes := post) (xwDone_cursorInv _ _ _ _ a2) hl rfl (by omega)
      have hle : left.sum ≤ cs.sum := by obtain ⟨front, rfl⟩ := b1; rw [List.sum_append]; omega
      have hpos : c ≤ c + cs.sum - left.sum := by omega
      have hcomb : xwDone (xwDone s pre (post.map .byte) c) post [] (cs.sum - left.sum) =
          xwDone s (pre ++ post) [] (c + cs.sum - left.sum) := by
        have hfin : c + (cs.sum - left.sum) ≤ (s.available (pre ++ post)).length := by
          omega
        rw [xwDone_xwDone _ _ _ _ _ _ _ a1 a2 hfin]
        congr 1; omega
      refine ⟨left, b1.trans (List.suffix_cons c cs), ?_, ?_, ?_⟩
      · rw [h, b2, hcomb]
      · omega
      · rw [← hcomb]; exact b3
    · push Not at hn
      obtain ⟨hn, rfl⟩ := hn
      have hsrc : s.src = [] := hs
      have h0 : xwDone s [] [] (c + cs.sum - (c :: cs).sum) = s := by
        rw [List.sum_cons, Nat.sub_self]
        conv_lhs => rw [← hsrc]
        exact xwDone_zero hc
      refine ⟨c :: cs, List.suffix_refl _, ?_, ?_, ?_⟩
      · rw [h0, xwLoop, p8_wait (srcRead_eq_none.mpr (.inr hsrc)) hn]
      · rw [List.sum_cons]; omega
      · rw [h0]; exact hn

end Sys2Proof.Machine
end

