-- ==== Sys2Proof/Laws/Frames.lean ====
section
/-!
SUPPORT. What the operations that end or suspend an instruction leave alone, field by field, and where each can leave
the core: `respond`, `drain`, `popStop`, `popNext`, `fieldEnd`, `fieldSlot`, `extractEnd` touch neither the cursor nor
the source, and P8 and XW touch nothing but the cursor, the accumulator, the source and the trace.
-/

namespace Sys2Proof.Machine

/-! ### Positions -/

theorem position_eq_command {s : State} : s.position = some .command ↔ s.work = .boundary ∧ s.mode = .idle := by
  unfold State.position
  split
  · rename_i h; cases hm : s.mode <;> simp [h]
  · rename_i h; simpa using fun h' => absurd h' h

theorem position_eq_descriptor {s : State} :
    s.position = some .descriptor ↔ s.work = .boundary ∧ s.mode = .pop ∧ s.fi < s.nf := by
  unfold State.position
  split
  · rename_i h; cases hm : s.mode <;> simp [h]
  · rename_i h; simpa using fun h' => absurd h' h

theorem atCommand_of_command {s : State} (h : s.position = some .command) (run : State → State) :
    atCommand s run = .next (run s) := by
  simp [atCommand, h]

theorem atDescriptor_of_descriptor {s : State} (h : s.position = some .descriptor) (run : State → State) :
    atDescriptor s run = .next (run s) := by
  simp [atDescriptor, h]

/-- Everything a format-C word can do. -/
theorem atCommand_cases {s t : State} {run : State → State} (h : atCommand s run = .next t) :
    s.position = some .command ∧ t = run s ∨ s.position = some .descriptor ∧ t = illegalDescriptor s := by
  unfold atCommand at h
  split at h
  · cases h; exact .inl ⟨by assumption, rfl⟩
  · cases h; exact .inr ⟨by assumption, rfl⟩
  · cases h

/-- Everything a format-D word can do. -/
theorem atDescriptor_cases {s t : State} {run : State → State} (h : atDescriptor s run = .next t) :
    s.position = some .command ∧ t = illegalCommand s ∨ s.position = some .descriptor ∧ t = run s := by
  unfold atDescriptor at h
  split at h
  · cases h; exact .inl ⟨by assumption, rfl⟩
  · cases h; exact .inr ⟨by assumption, rfl⟩
  · cases h

/-- Everything an illegal word can do. -/
theorem illegalWord_cases {s t : State} (h : illegalWord s = .next t) :
    s.position = some .command ∧ t = illegalCommand s ∨ s.position = some .descriptor ∧ t = illegalDescriptor s := by
  unfold illegalWord at h
  split at h
  · cases h; exact .inl ⟨by assumption, rfl⟩
  · cases h; exact .inr ⟨by assumption, rfl⟩
  · cases h

/-! ### What the end of an instruction leaves alone -/

/-- From `s` to `t` nothing but MODE, FI, SC, the place in the command, the command stream and the host's readiness
changes, and only beats and responses are logged. -/
structure TailFrame (s t : State) : Prop where
  l : t.l = s.l
  v : t.v = s.v
  started : t.started = s.started
  nf : t.nf = s.nf
  bc : t.bc = s.bc
  acc : t.acc = s.acc
  nacc : t.nacc = s.nacc
  rst : t.rst = s.rst
  src : t.src = s.src
  late : t.late = s.late
  trace : ∃ es, t.trace = s.trace ++ es ∧ ∀ e ∈ es, e.isBeat = true ∨ e.isResponse = true

theorem TailFrame.refl (s : State) : TailFrame s s :=
  ⟨rfl, rfl, rfl, rfl, rfl, rfl, rfl, rfl, rfl, rfl, [], by simp, by simp⟩

theorem TailFrame.trans {s t u : State} (h : TailFrame s t) (k : TailFrame t u) : TailFrame s u := by
  obtain ⟨es, e1, e2⟩ := h.trace
  obtain ⟨fs, f1, f2⟩ := k.trace
  exact ⟨k.l.trans h.l, k.v.trans h.v, k.started.trans h.started, k.nf.trans h.nf, k.bc.trans h.bc, k.acc.trans h.acc,
    k.nacc.trans h.nacc, k.rst.trans h.rst, k.src.trans h.src, k.late.trans h.late, es ++ fs,
    by rw [f1, e1, List.append_assoc], fun e he => (List.mem_append.mp he).elim (e2 e) (f2 e)⟩

theorem setCmd_tail (ws : List Word) (s : State) : TailFrame s (s.setCmd ws) :=
  ⟨rfl, rfl, rfl, rfl, rfl, rfl, rfl, rfl, rfl, rfl, [], by simp, by simp⟩

theorem setFi_tail (fi : FieldIndex) (s : State) : TailFrame s (s.setFi fi) :=
  ⟨rfl, rfl, rfl, rfl, rfl, rfl, rfl, rfl, rfl, rfl, [], by simp, by simp⟩

theorem setSc_tail (sc : FieldIndex) (s : State) : TailFrame s (s.setSc sc) :=
  ⟨rfl, rfl, rfl, rfl, rfl, rfl, rfl, rfl, rfl, rfl, [], by simp, by simp⟩

theorem setWork_tail (w : Work) (s : State) : TailFrame s (s.setWork w) :=
  ⟨rfl, rfl, rfl, rfl, rfl, rfl, rfl, rfl, rfl, rfl, [], by simp, by simp⟩

theorem setMode_tail (m : Mode) (s : State) : TailFrame s (s.setMode m) :=
  ⟨rfl, rfl, rfl, rfl, rfl, rfl, rfl, rfl, rfl, rfl, [], by simp, by simp⟩

theorem respond_tail (r : Response) (s : State) : TailFrame s (respond r s) := by
  rcases respond_cases r s with ⟨q, -, h⟩ | ⟨-, h⟩ <;> rw [h]
  · exact ⟨rfl, rfl, rfl, rfl, rfl, rfl, rfl, rfl, rfl, rfl, [.response r], rfl, by simp [Event.isResponse]⟩
  · exact setWork_tail _ _

theorem drain_tail (left : Nat) (r : Response) (s : State) : TailFrame s (drain left r s) := by
  rcases drain_cases left r s with ⟨-, h⟩ | ⟨-, h⟩ <;> rw [h]
  · exact (setCmd_tail _ s).trans (respond_tail _ _)
  · exact (setCmd_tail _ s).trans (setWork_tail _ _)

theorem popStop_tail (st : Status) (n : Size) (e : SrcErr) (s : State) : TailFrame s (popStop st n e s) :=
  drain_tail _ _ s

theorem popNext_tail (s : State) : TailFrame s (popNext s) := by
  unfold popNext
  split
  · exact setWork_tail _ _
  · exact respond_tail _ s

theorem fieldEnd_tail (stop : Option Size) (s : State) : TailFrame s (fieldEnd stop s) := by
  cases stop with
  | none =>
    exact (setFi_tail _ s).trans (popNext_tail _)
  | some n => exact popStop_tail _ _ _ s

theorem takeBeat_tail {b : Beat} {s t : State} (h : takeBeat b s = some t) : TailFrame s t := by
  obtain ⟨q, -, rfl⟩ := takeBeat_eq_some h
  exact ⟨rfl, rfl, rfl, rfl, rfl, rfl, rfl, rfl, rfl, rfl, [.beat b], rfl, by simp [Event.isBeat]⟩

theorem fieldSlot_tail (k : Width) (skip : Bool) (value : Value) (stop : Option Size) (s : State) :
    TailFrame s (fieldSlot k skip value stop s) := by
  unfold fieldSlot
  split
  · exact fieldEnd_tail stop s
  · split
    · rename_i t h
      exact ((takeBeat_tail h).trans (setSc_tail _ t)).trans (fieldEnd_tail stop _)
    · exact setWork_tail _ _

theorem extractEnd_tail (sink : Sink) (size : Size) (r : XwResult) (s : State) :
    TailFrame s (extractEnd sink size r s) := by
  unfold extractEnd
  split
  · exact respond_tail _ s
  · exact respond_tail _ s
  · exact respond_tail _ s
  · exact fieldSlot_tail _ _ _ _ s
  · exact fieldSlot_tail _ _ _ _ s
  · exact popStop_tail _ _ _ s
  · exact setWork_tail _ _

/-! ### What an extraction leaves alone -/

/-- From `s` to `t` nothing but the cursor, the accumulator, the source and the trace changes, and every answer taken is
logged as a read, in order. -/
structure ReadFrame (s t : State) : Prop where
  mode : t.mode = s.mode
  fi : t.fi = s.fi
  nf : t.nf = s.nf
  sc : t.sc = s.sc
  bc : t.bc = s.bc
  work : t.work = s.work
  rst : t.rst = s.rst
  cmd : t.cmd = s.cmd
  late : t.late = s.late
  outReady : t.outReady = s.outReady
  rspReady : t.rspReady = s.rspReady
  reads : ∃ as, s.src = as ++ t.src ∧ t.trace = s.trace ++ as.map .read

theorem ReadFrame.refl (s : State) : ReadFrame s s :=
  ⟨rfl, rfl, rfl, rfl, rfl, rfl, rfl, rfl, rfl, rfl, rfl, [], by simp, by simp⟩

theorem ReadFrame.trans {s t u : State} (h : ReadFrame s t) (k : ReadFrame t u) : ReadFrame s u := by
  obtain ⟨as, a1, a2⟩ := h.reads
  obtain ⟨bs, b1, b2⟩ := k.reads
  exact ⟨k.mode.trans h.mode, k.fi.trans h.fi, k.nf.trans h.nf, k.sc.trans h.sc, k.bc.trans h.bc, k.work.trans h.work,
    k.rst.trans h.rst, k.cmd.trans h.cmd, k.late.trans h.late, k.outReady.trans h.outReady,
    k.rspReady.trans h.rspReady, as ++ bs, by rw [a1, b1, List.append_assoc], by rw [b2, a2]; simp⟩

theorem p8_reads (n : Nat) (s : State) : ReadFrame s (p8 n s).2 := by
  rcases p8_cases n s with ⟨-, h⟩ | ⟨-, ⟨b, rest, -, hs, h⟩ | ⟨rest, -, hs, h⟩ | ⟨e, rest, -, hs, h⟩ | ⟨-, h⟩⟩ <;> rw [h]
  · exact ⟨rfl, rfl, rfl, rfl, rfl, rfl, rfl, rfl, rfl, rfl, rfl, [], rfl, by simp [p8Serve]⟩
  · exact ⟨rfl, rfl, rfl, rfl, rfl, rfl, rfl, rfl, rfl, rfl, rfl, [.byte b], hs, rfl⟩
  · exact ⟨rfl, rfl, rfl, rfl, rfl, rfl, rfl, rfl, rfl, rfl, rfl, [.eof], hs, rfl⟩
  · exact ⟨rfl, rfl, rfl, rfl, rfl, rfl, rfl, rfl, rfl, rfl, rfl, [.err e], hs, rfl⟩
  · exact ReadFrame.refl s

theorem accumulate_reads (c : Nat) (value : Byte) (n : Size) (s : State) : ReadFrame s (accumulate c value n s) :=
  ⟨rfl, rfl, rfl, rfl, rfl, rfl, rfl, rfl, rfl, rfl, rfl, [], rfl, by simp [accumulate]⟩

theorem xwLoop_reads (cs : List Nat) (s : State) : ReadFrame s (xwLoop cs s).2 := by
  induction cs generalizing s with
  | nil => exact ReadFrame.refl s
  | cons c cs ih =>
    have hp := p8_reads c s
    rw [xwLoop]
    split <;> rename_i h <;> rw [h] at hp
    · exact (hp.trans (accumulate_reads _ _ _ _)).trans (ih _)
    · exact hp.trans (accumulate_reads _ _ _ _)
    · exact hp
    · exact hp

end Sys2Proof.Machine
end

