-- ==== Sys2Proof/Laws/Exec.lean ====
section
/-!
SUPPORT. One lemma per shared operation of the commands and the sequencer: what it answers at its position, and what an
extraction from its start does when the source answers enough bytes, an Eof, an error, or too little.
-/

namespace Sys2Proof.Machine

/-! ### The cursor holds what it is given, and nothing else changes -/

@[simp] theorem State.holding_started (s : State) (bits : List Bool) : (s.holding bits).started = s.started := rfl
@[simp] theorem State.holding_mode (s : State) (bits : List Bool) : (s.holding bits).mode = s.mode := rfl
@[simp] theorem State.holding_fi (s : State) (bits : List Bool) : (s.holding bits).fi = s.fi := rfl
@[simp] theorem State.holding_nf (s : State) (bits : List Bool) : (s.holding bits).nf = s.nf := rfl
@[simp] theorem State.holding_sc (s : State) (bits : List Bool) : (s.holding bits).sc = s.sc := rfl
@[simp] theorem State.holding_bc (s : State) (bits : List Bool) : (s.holding bits).bc = s.bc := rfl
@[simp] theorem State.holding_acc (s : State) (bits : List Bool) : (s.holding bits).acc = s.acc := rfl
@[simp] theorem State.holding_nacc (s : State) (bits : List Bool) : (s.holding bits).nacc = s.nacc := rfl
@[simp] theorem State.holding_work (s : State) (bits : List Bool) : (s.holding bits).work = s.work := rfl
@[simp] theorem State.holding_rst (s : State) (bits : List Bool) : (s.holding bits).rst = s.rst := rfl
@[simp] theorem State.holding_cmd (s : State) (bits : List Bool) : (s.holding bits).cmd = s.cmd := rfl
@[simp] theorem State.holding_src (s : State) (bits : List Bool) : (s.holding bits).src = s.src := rfl
@[simp] theorem State.holding_late (s : State) (bits : List Bool) : (s.holding bits).late = s.late := rfl
@[simp] theorem State.holding_outReady (s : State) (bits : List Bool) : (s.holding bits).outReady = s.outReady := rfl
@[simp] theorem State.holding_rspReady (s : State) (bits : List Bool) : (s.holding bits).rspReady = s.rspReady := rfl
@[simp] theorem State.holding_trace (s : State) (bits : List Bool) : (s.holding bits).trace = s.trace := rfl

/-! ### What the pending bits depend on -/

@[simp] theorem State.pending_setMode (s : State) (m : Mode) : (s.setMode m).pending = s.pending := rfl

@[simp] theorem State.pending_setAccum (s : State) (acc : Value) (nacc : Size) :
    (s.setAccum acc nacc).pending = s.pending := rfl

@[simp] theorem State.available_setMode (s : State) (m : Mode) (bytes : List Byte) :
    (s.setMode m).available bytes = s.available bytes := rfl

@[simp] theorem State.available_setAccum (s : State) (acc : Value) (nacc : Size) (bytes : List Byte) :
    (s.setAccum acc nacc).available bytes = s.available bytes := rfl

/-! ### The instructions at their positions -/

theorem exec_xbits {w : Width} {size : Size} {s : State} (h : s.position = some .command) :
    exec (.xbits w size) s = .next (xbits w size s) := by
  cases w <;> exact atCommand_of_command h _

theorem exec_xbytes {n : Count} {s : State} (h : s.position = some .command) :
    exec (.xbytes n) s = .next (bytesRun n ((s.setMode .xbytes).setBc 0)) :=
  atCommand_of_command h fun s => bytesRun n ((s.setMode .xbytes).setBc 0)

theorem exec_populate {n : FieldIndex} {s : State} (h : s.position = some .command) :
    exec (.populate n) s = .next (popNext ((((s.setMode .pop).setNf n).setFi 0).setSc 0)) :=
  atCommand_of_command h fun s => popNext ((((s.setMode .pop).setNf n).setFi 0).setSc 0)

theorem exec_clear {s : State} (h : s.position = some .command) :
    exec .clear s = .next (respond okResponse ((s.setCursor 0 0).setStarted false)) :=
  atCommand_of_command h fun s => respond okResponse ((s.setCursor 0 0).setStarted false)

theorem exec_field {k : Width} {skip : Bool} {w : Size} {s : State} (h : s.position = some .descriptor) :
    exec (.field k skip w) s = .next (fieldStep k skip w s) := by
  cases k <;> exact atDescriptor_of_descriptor h _

theorem exec_fieldKbad {kind : BitVec 3} {skip : Bool} {w : Size} {s : State} (h : s.position = some .descriptor) :
    exec (.fieldKbad kind skip w) s = .next (popStop .unsupportedKind 0 0 s) := atDescriptor_of_descriptor h _

/-! ### The size check -/

theorem sizeBad_eq_false {w : Width} {size : Size} (h1 : 1 ≤ size.toNat) (h2 : size.toNat ≤ w.bits) :
    sizeBad w size = false := by
  simp only [sizeBad, Bool.or_eq_false_iff, decide_eq_false_iff_not]; omega

theorem sizeBad_eq_true {w : Width} {size : Size} : sizeBad w size = true ↔ size.toNat = 0 ∨ w.bits < size.toNat := by
  simp [sizeBad]

/-! ### The end of a command -/

@[simp] theorem Ready.takeN_zero (q : Ready) : q.takeN 0 = some q := rfl

@[simp] theorem Ready.takeN_one (q : Ready) : q.takeN 1 = q.take := by
  simp [Ready.takeN]

theorem Ready.takeN_succ_eq_some {n : Nat} {q q' : Ready} :
    q.takeN (n + 1) = some q' ↔ ∃ r, q.take = some r ∧ r.takeN n = some q' := by
  simp [Ready.takeN, Option.bind_eq_some_iff]

/-- A stopped POPULATE whose descriptor words are all there ends. -/
theorem popStop_of_words {st : Status} {n : Size} {e : SrcErr} {s : State} {skipped words : List Word} {q : Ready}
    (hc : s.cmd = skipped ++ words) (hl : skipped.length = s.wordsAfter) (hq : s.rspReady.take = some q) :
    popStop st n e s =
      ((((s.setCmd words).setRspReady q).log (.response (populateResponse st n e s.sc s.fi))).setMode .idle).setWork
        .boundary := by
  have h : s.nf.toNat - s.fi.toNat - 1 = skipped.length := hl.symm
  rw [popStop, h, drain, if_pos (by rw [hc, List.length_append]; omega), hc, List.drop_left,
    respond_of_take (s := s.setCmd words) hq]

/-- The slot of a field whose beat, if it has one, the host takes. -/
theorem fieldSlot_of_take {k : Width} {skip : Bool} {value : Value} {stop : Option Size} {s : State} {q : Ready}
    (hq : s.outReady.takeN (if skip then 0 else 1) = some q) :
    fieldSlot k skip value stop s = fieldEnd stop
      { s with
        sc := if skip then s.sc else s.sc + 1
        outReady := q
        trace := s.trace ++ if skip then [] else [.beat (.slot s.sc k value)] } := by
  cases skip
  · rw [if_neg (by decide), Ready.takeN_one] at hq
    rw [fieldSlot, if_neg (by decide), takeBeat_of_take hq]
    rfl
  · rw [if_pos rfl, Ready.takeN_zero] at hq
    cases hq
    rw [fieldSlot, if_pos rfl]
    simp

/-! ### An extraction from its start -/

/-- With bytes enough it ends OK (R102, law 1). -/
theorem extractStart_ok {w : Width} {size : Size} (sink : Sink) {s : State} {bytes : List Byte} {rest : List Answer}
    (hc : CursorInv s) (hl : s.late = false) (h1 : 1 ≤ size.toNat) (h2 : size.toNat ≤ w.bits)
    (hs : s.src = bytes.map .byte ++ rest) (hb : bytes.length = readsFor size.toNat s.v.toNat) :
    extractStart w sink size s = extractEnd sink size (.ok (valueOf ((s.available bytes).take size.toNat)))
      { s.holding ((s.available bytes).drop size.toNat) with
        started := s.started || !bytes.isEmpty
        acc := valueOf ((s.available bytes).take size.toNat)
        nacc := size
        src := rest
        trace := s.trace ++ readEvents bytes } := by
  obtain ⟨p1, p2, -⟩ := chunks_plan h1 h2
  have hx := xwLoop_ok p1 (s := s.setAccum 0 0) (bytes := bytes) (rest := rest) hc hl hs (by rw [p2]; exact hb)
  rw [extractStart, extractRun]
  simp only [hx, p2]
  have e : xwDone (s.setAccum 0 0) bytes rest size.toNat =
      { s.holding ((s.available bytes).drop size.toNat) with
        started := s.started || !bytes.isEmpty
        acc := valueOf ((s.available bytes).take size.toNat)
        nacc := size
        src := rest
        trace := s.trace ++ readEvents bytes } := by
    apply State.ext <;> simp only [xwDone, State.available_setAccum, State.setAccum_acc, State.setAccum_nacc] <;>
      first | rfl | simp [valueOf]
  rw [e]

/-- At an Eof it ends EXHAUSTED (R102, law 2). -/
theorem extractStart_eof {w : Width} {size : Size} (sink : Sink) {s : State} {bytes : List Byte} {rest : List Answer}
    (hc : CursorInv s) (hl : s.late = false) (h2 : size.toNat ≤ w.bits)
    (hs : s.src = bytes.map .byte ++ .eof :: rest) (hb : (s.available bytes).length < size.toNat) :
    ∃ acc, extractStart w sink size s = extractEnd sink size
      (.exhausted
        (BitVec.ofNat 64 (bitsVal (s.available bytes) <<< (size.toNat - (s.available bytes).length)))
        (BitVec.ofNat 7 (s.available bytes).length))
      { s with
        l := 0
        v := 0
        started := s.started || !bytes.isEmpty
        acc := acc
        nacc := BitVec.ofNat 7 (s.available bytes).length
        src := rest
        trace := s.trace ++ readEvents bytes ++ [.read .eof] } := by
  obtain ⟨p1, p2, -⟩ := chunks_plan (w := w) (n := size.toNat) (by omega) h2
  obtain ⟨acc, hx⟩ :=
    xwLoop_eof p1 (s := s.setAccum 0 0) (bytes := bytes) (rest := rest) hc hl hs (by rw [p2]; exact hb)
  refine ⟨acc, ?_⟩
  rw [extractStart, extractRun, hx]
  simp only [p2, State.available_setAccum, State.setAccum_acc, State.setAccum_nacc]
  congr 1
  · simp [Nat.shiftLeft_eq]
  · apply State.ext <;> first | rfl | simp

/-- At a source error it ends SOURCE_ERROR (R102, law 3). -/
theorem extractStart_err {w : Width} {size : Size} (sink : Sink) {s : State} {bytes : List Byte} {e : SrcErr}
    {rest : List Answer} (hc : CursorInv s) (hl : s.late = false) (h2 : size.toNat ≤ w.bits)
    (hs : s.src = bytes.map .byte ++ .err e :: rest) (hb : (s.available bytes).length < size.toNat) :
    ∃ acc nacc, extractStart w sink size s = extractEnd sink size (.sourceError e)
      { s with
        l := 0
        v := 0
        started := s.started || !bytes.isEmpty
        acc := acc
        nacc := nacc
        src := rest
        trace := s.trace ++ readEvents bytes ++ [.read (.err e)] } := by
  obtain ⟨p1, p2, -⟩ := chunks_plan (w := w) (n := size.toNat) (by omega) h2
  obtain ⟨acc, nacc, hx⟩ :=
    xwLoop_err p1 (s := s.setAccum 0 0) (bytes := bytes) (rest := rest) hc hl hs (by rw [p2]; exact hb)
  refine ⟨acc, nacc, ?_⟩
  rw [extractStart, extractRun, hx]
  congr 1

end Sys2Proof.Machine
end

