-- ==== Sys2Proof/Laws/PerInstr.lean ====
section
/-!
SUPPORT. The family of statements made of each instruction as syntax: `OpcodeRow`, the word of a well-formed instruction
matches the row of the opcode map (spec/30_encoding.md R80) that bears the instruction's mnemonic.
-/

namespace Sys2Proof.Laws.OpcodeRow

open Sys2Proof.Machine

/-- The word of the instruction has the match value of its row under the row's mask. -/
def Statement (i : Instr) : Prop :=
  i.WellFormed → ∃ row ∈ opcodeMap, row.1 = mnemonic i ∧ encode i &&& row.2.2 = row.2.1

/-- A mask of ones over a fixed field above an operand keeps the fixed field. -/
theorem append_masked {m n : Nat} (x : BitVec m) (y : BitVec n) :
    (x ++ y) &&& (BitVec.allOnes m ++ 0#n) = x ++ 0#n := by
  apply BitVec.eq_of_getLsbD_eq
  intro k hk
  simp only [BitVec.getLsbD_and, BitVec.getLsbD_append]
  split
  · simp
  · simp [show k - n < m by omega]

theorem xbits8 (size : Size) : Statement (.xbits8 size) := fun _ =>
  ⟨("XBITS.8", 0x10000000, 0xFFFFFF80), by decide, rfl,
    append_masked (0x1#4 ++ 0#2 ++ 0#2 ++ 0#17) size⟩

theorem xbits16 (size : Size) : Statement (.xbits16 size) := fun _ =>
  ⟨("XBITS.16", 0x11000000, 0xFFFFFF80), by decide, rfl,
    append_masked (0x1#4 ++ 0#2 ++ 1#2 ++ 0#17) size⟩

theorem xbits32 (size : Size) : Statement (.xbits32 size) := fun _ =>
  ⟨("XBITS.32", 0x12000000, 0xFFFFFF80), by decide, rfl,
    append_masked (0x1#4 ++ 0#2 ++ 2#2 ++ 0#17) size⟩

theorem xbits64 (size : Size) : Statement (.xbits64 size) := fun _ =>
  ⟨("XBITS.64", 0x13000000, 0xFFFFFF80), by decide, rfl,
    append_masked (0x1#4 ++ 0#2 ++ 3#2 ++ 0#17) size⟩

theorem xbytes (count : Count) : Statement (.xbytes count) := fun _ =>
  ⟨("XBYTES", 0x20000000, 0xFF000000), by decide, rfl, append_masked (0x2#4 ++ 0#4) count⟩

theorem populate (nfields : FieldIndex) : Statement (.populate nfields) := fun _ =>
  ⟨("POPULATE", 0x30000000, 0xFFFF0000), by decide, rfl, append_masked (0x3#4 ++ 0#12) nfields⟩

theorem clear : Statement .clear := fun _ =>
  ⟨("CLEAR", 0x40000000, 0xFFFFFFFF), by decide, rfl, by decide⟩

theorem fieldU8 (skip : Bool) (width : Size) : Statement (.fieldU8 skip width) := fun _ =>
  ⟨("FIELD.U8", 0xD0000000, 0xFFFFF780), by decide, rfl, by revert skip width; decide⟩

theorem fieldU16 (skip : Bool) (width : Size) : Statement (.fieldU16 skip width) := fun _ =>
  ⟨("FIELD.U16", 0xD0000100, 0xFFFFF780), by decide, rfl, by revert skip width; decide⟩

theorem fieldU32 (skip : Bool) (width : Size) : Statement (.fieldU32 skip width) := fun _ =>
  ⟨("FIELD.U32", 0xD0000200, 0xFFFFF780), by decide, rfl, by revert skip width; decide⟩

theorem fieldU64 (skip : Bool) (width : Size) : Statement (.fieldU64 skip width) := fun _ =>
  ⟨("FIELD.U64", 0xD0000300, 0xFFFFF780), by decide, rfl, by revert skip width; decide⟩

/-- An unsupported kind code has its top bit set (R70), which is all that the row of FIELD.KBAD fixes of it. -/
theorem fieldKbad (kind : BitVec 3) (skip : Bool) (width : Size) : Statement (.fieldKbad kind skip width) := by
  intro h
  refine ⟨("FIELD.KBAD", 0xD0000400, 0xFFFFF480), by decide, rfl, ?_⟩
  revert h
  revert kind skip width
  decide

end Sys2Proof.Laws.OpcodeRow
end

