-- ==== Sys2Proof/Laws/Step.lean ====
section
/-!
SUPPORT. What one pass of each loop, and one step of the machine, can do: every case once.
-/

namespace Sys2Proof.Machine

/-! ### The sequencer and the loop of XBYTES -/

/-- Everything the loop test of the sequencer can do (R120). -/
theorem popNext_cases (s : State) :
    s.fi < s.nf ∧ popNext s = s.setWork .boundary ∨
    ¬ s.fi < s.nf ∧ popNext s = respond (populateResponse .ok 0 0 s.sc s.fi) s := by
  by_cases h : s.fi < s.nf
  · exact .inl ⟨h, if_pos h⟩
  · exact .inr ⟨h, if_neg h⟩

/-- Everything an XBITS can do (R95, R96). -/
theorem xbits_cases (w : Width) (size : Size) (s : State) :
    sizeBad w size = true ∧ xbits w size s = respond sizeOverflowResponse (s.setMode .xbits) ∨
    sizeBad w size = false ∧ xbits w size s = extractStart w .xbits size (s.setMode .xbits) := by
  cases h : sizeBad w size <;> simp [xbits, h]

/-- Everything FIELDSTEP can do (R121). -/
theorem fieldStep_cases (k : Width) (skip : Bool) (w : Size) (s : State) :
    sizeBad k w = true ∧ fieldStep k skip w s = popStop .sizeOverflow 0 0 s ∨
    sizeBad k w = false ∧ fieldStep k skip w s = extractStart k (.field k skip) w s := by
  cases h : sizeBad k w <;> simp [fieldStep, h]

/-- Everything one pass of the loop of XBYTES can do (R100): the byte's beat is taken and the loop goes on; or its beat
waits; or the source gave no byte; or it has not answered. -/
theorem bytesLoop_cases (n : Count) (left : Nat) (s : State) :
    (∃ b t u, p8 8 s = (.ok b, t) ∧ takeBeat (.byte t.bc b) t = some u ∧
      bytesLoop n (left + 1) s = bytesLoop n left (u.setBc (u.bc + 1))) ∨
    (∃ b t, p8 8 s = (.ok b, t) ∧ t.outReady = .upTo 0 ∧ bytesLoop n (left + 1) s = t.setWork (.byteBeat n b)) ∨
    (∃ value nvalid t, p8 8 s = (.exhausted value nvalid, t) ∧ bytesLoop n (left + 1) s =
      respond { status := .exhausted, value := value.setWidth 64, nvalid := nvalid, count := t.bc } t) ∨
    (∃ e t, p8 8 s = (.sourceError e, t) ∧ bytesLoop n (left + 1) s =
      respond { status := .sourceError, count := t.bc, srcerr := e } t) ∨
    (p8 8 s = (.wait, s) ∧ bytesLoop n (left + 1) s = s.setWork (.byteRead n)) := by
  rcases hp : p8 8 s with ⟨r, t⟩
  cases r with
  | ok b =>
    cases hb : takeBeat (.byte t.bc b) t with
    | some u => exact .inl ⟨b, t, u, rfl, hb, by simp [bytesLoop, hp, hb]⟩
    | none =>
      exact .inr (.inl ⟨b, t, rfl, Ready.take_eq_none.mp (takeBeat_eq_none.mp hb), by simp [bytesLoop, hp, hb]⟩)
  | exhausted value nvalid => exact .inr (.inr (.inl ⟨value, nvalid, t, rfl, by simp [bytesLoop, hp]⟩))
  | sourceError e => exact .inr (.inr (.inr (.inl ⟨e, t, rfl, by simp [bytesLoop, hp]⟩)))
  | wait =>
    obtain rfl := p8_wait_state hp
    exact .inr (.inr (.inr (.inr ⟨rfl, by simp [bytesLoop, hp]⟩)))

/-! ### The step -/

/-- A late answer does not move the core. -/
@[simp] theorem dropLate_position (s : State) : (dropLate s).position = s.position := by
  rcases dropLate_cases s with ⟨h, -⟩ | ⟨a, rest, -, -, h⟩ <;> rw [h]
  rfl

@[simp] theorem dropLate_work (s : State) : (dropLate s).work = s.work := by
  rcases dropLate_cases s with ⟨h, -⟩ | ⟨a, rest, -, -, h⟩ <;> rw [h]
  rfl

@[simp] theorem dropLate_cmd (s : State) : (dropLate s).cmd = s.cmd := by
  rcases dropLate_cases s with ⟨h, -⟩ | ⟨a, rest, -, -, h⟩ <;> rw [h]
  rfl

/-- What the consumption of a word leaves. -/
theorem fetch_eq_some {p : Position} {s t : State} {w : Word} (h : fetch p s = some (w, t)) :
    ∃ rest, s.cmd = w :: rest ∧
      t = match p with
        | .command => (s.setCmd rest).log (.command w)
        | .descriptor => s.setCmd rest := by
  unfold fetch at h
  split at h
  · cases h
  · rename_i w' rest hc
    cases p <;> (simp only [Option.some.injEq, Prod.mk.injEq] at h; obtain ⟨rfl, rfl⟩ := h; exact ⟨rest, hc, rfl⟩)

theorem fetch_eq_none {p : Position} {s : State} : fetch p s = none ↔ s.cmd = [] := by
  unfold fetch
  split
  · rename_i h; simp [h]
  · rename_i h; cases p <;> simp [h]

/-- Everything one step can do: a reset; a word that decodes, run; a word that does not, reported; nothing, where no word
is there; or the command in progress goes on. -/
theorem step_cases {s t : State} (h : step s = .next t) :
    (s.rst = true ∧ t = dropLate (applyReset s)) ∨
    (s.rst = false ∧
      ((∃ p w u i, s.position = some p ∧ fetch p (dropLate s) = some (w, u) ∧ decode w = .ok i ∧ exec i u = .next t) ∨
       (∃ p w u e, s.position = some p ∧ fetch p (dropLate s) = some (w, u) ∧ decode w = .error e ∧
          illegalWord u = .next t) ∨
       (∃ p, s.position = some p ∧ s.cmd = [] ∧ t = dropLate s) ∨
       (s.position = none ∧ s.work ≠ .boundary ∧ t = resume (dropLate s)))) := by
  unfold step at h
  split at h
  · rename_i hr; cases h; exact .inl ⟨hr, rfl⟩
  · rename_i hr
    refine .inr ⟨by simpa using hr, ?_⟩
    rw [dropLate_position] at h
    split at h
    · rename_i p hp
      split at h
      · rename_i w u hf
        split at h
        · rename_i i hd; exact .inl ⟨p, w, u, i, hp, hf, hd, h⟩
        · rename_i e hd; exact .inr (.inl ⟨p, w, u, e, hp, hf, hd, h⟩)
      · rename_i hf; cases h
        exact .inr (.inr (.inl ⟨p, hp, by simpa using fetch_eq_none.mp hf, rfl⟩))
    · rename_i hp
      rw [dropLate_work] at h
      split at h
      · cases h
      · rename_i hw; cases h; exact .inr (.inr (.inr ⟨hp, hw, rfl⟩))

end Sys2Proof.Machine
end

