-- ==== Sys2Proof/Laws/Supply.lean ====
section
/-!
SUPPORT. What more supply from the outside world (`State.supply`) changes: an operation that did not have to wait does the
same with it, and what it did not need is left over. And what each event does to `lastAnswered`.
-/

namespace Sys2Proof.Machine

/-! ### The fields -/

variable (s : State) (as : List Answer) (ws : List Word) (out rsp : Ready)

@[simp] theorem State.supply_l : (s.supply as ws out rsp).l = s.l := rfl
@[simp] theorem State.supply_v : (s.supply as ws out rsp).v = s.v := rfl
@[simp] theorem State.supply_started : (s.supply as ws out rsp).started = s.started := rfl
@[simp] theorem State.supply_mode : (s.supply as ws out rsp).mode = s.mode := rfl
@[simp] theorem State.supply_fi : (s.supply as ws out rsp).fi = s.fi := rfl
@[simp] theorem State.supply_nf : (s.supply as ws out rsp).nf = s.nf := rfl
@[simp] theorem State.supply_sc : (s.supply as ws out rsp).sc = s.sc := rfl
@[simp] theorem State.supply_bc : (s.supply as ws out rsp).bc = s.bc := rfl
@[simp] theorem State.supply_acc : (s.supply as ws out rsp).acc = s.acc := rfl
@[simp] theorem State.supply_nacc : (s.supply as ws out rsp).nacc = s.nacc := rfl
@[simp] theorem State.supply_work : (s.supply as ws out rsp).work = s.work := rfl
@[simp] theorem State.supply_rst : (s.supply as ws out rsp).rst = s.rst := rfl
@[simp] theorem State.supply_late : (s.supply as ws out rsp).late = s.late := rfl
@[simp] theorem State.supply_trace : (s.supply as ws out rsp).trace = s.trace := rfl
@[simp] theorem State.supply_src : (s.supply as ws out rsp).src = s.src ++ as := rfl
@[simp] theorem State.supply_cmd : (s.supply as ws out rsp).cmd = s.cmd ++ ws := rfl
@[simp] theorem State.supply_outReady : (s.supply as ws out rsp).outReady = s.outReady.add out := rfl
@[simp] theorem State.supply_rspReady : (s.supply as ws out rsp).rspReady = s.rspReady.add rsp := rfl
@[simp] theorem State.supply_position : (s.supply as ws out rsp).position = s.position := rfl
@[simp] theorem State.supply_pend : (s.supply as ws out rsp).pend = s.pend := rfl

/-! ### The streams -/

variable {s as ws out rsp}

/-- A host that takes an item takes it too when it is ready for more. -/
theorem Ready.take_add {q r : Ready} (d : Ready) (h : q.take = some r) : (q.add d).take = some (r.add d) := by
  cases q with
  | always => cases h; rfl
  | upTo n =>
    cases n with
    | zero => cases h
    | succ n =>
      cases h
      cases d with
      | always => rfl
      | upTo m => simp only [Ready.add, Nat.succ_add, Ready.take]

theorem srcRead_supply {a : Answer} {t : State} (h : srcRead s = some (a, t)) :
    srcRead (s.supply as ws out rsp) = some (a, t.supply as ws out rsp) := by
  obtain ⟨hl, rest, hs, rfl⟩ := srcRead_eq_some h
  exact srcRead_of_cons hl (by rw [State.supply_src, hs]; rfl)

theorem takeBeat_supply {b : Beat} {t : State} (h : takeBeat b s = some t) :
    takeBeat b (s.supply as ws out rsp) = some (t.supply as ws out rsp) := by
  obtain ⟨q, hq, rfl⟩ := takeBeat_eq_some h
  exact takeBeat_of_take (Ready.take_add out hq)

/-- A response that is taken is taken alike, and nothing of the supply is used up. -/
theorem respond_supply {r : Response} {q : Ready} (h : s.rspReady.take = some q) :
    respond r (s.supply as ws out rsp) = (respond r s).supply as ws out rsp := by
  rw [respond_of_take h, respond_of_take (s := s.supply as ws out rsp) (Ready.take_add rsp h)]
  rfl

/-! ### P8 and XW -/

/-- A P8 that does not wait does the same with more supply. -/
theorem p8_supply {n : Nat} (h : (p8 n s).1 ≠ .wait) :
    p8 n (s.supply as ws out rsp) = ((p8 n s).1, (p8 n s).2.supply as ws out rsp) := by
  by_cases hn : n ≤ s.v.toNat
  · rw [p8, p8, if_pos hn, if_pos (by exact hn)]; rfl
  · cases hr : srcRead s with
    | none => exact absurd (by rw [p8_wait hr (by omega)]) h
    | some r =>
      obtain ⟨a, t⟩ := r
      rw [p8, p8, if_neg hn, if_neg (by exact hn), hr, srcRead_supply hr]
      cases a <;> rfl

/-- An XW that does not wait does the same with more supply. -/
theorem xwLoop_supply {cs : List Nat} (h : ∀ left, (xwLoop cs s).1 ≠ .wait left) :
    xwLoop cs (s.supply as ws out rsp) = ((xwLoop cs s).1, (xwLoop cs s).2.supply as ws out rsp) := by
  induction cs generalizing s with
  | nil => rfl
  | cons c cs ih =>
    rcases hp : p8 c s with ⟨r, t⟩
    have hs : r ≠ .wait → p8 c (s.supply as ws out rsp) = (r, t.supply as ws out rsp) := by
      intro hr
      have := p8_supply (n := c) (s := s) (as := as) (ws := ws) (out := out) (rsp := rsp) (by rw [hp]; exact hr)
      rwa [hp] at this
    cases r with
    | ok value =>
      simp only [xwLoop, hp] at h
      simp only [xwLoop, hp, hs (by simp)]
      exact ih h
    | exhausted value nvalid => simp only [xwLoop, hp, hs (by simp)]; rfl
    | sourceError e => simp only [xwLoop, hp, hs (by simp)]
    | wait => exact absurd (by simp only [xwLoop, hp]) (h (c :: cs))

/-- An XW that waits and one that goes on from there with more supply make one XW. -/
theorem xwLoop_resume {cs left : List Nat} {t : State} (h : xwLoop cs s = (.wait left, t)) :
    xwLoop cs (s.supply as ws out rsp) = xwLoop left (t.supply as ws out rsp) := by
  induction cs generalizing s with
  | nil => simp [xwLoop] at h
  | cons c cs ih =>
    rcases hp : p8 c s with ⟨r, u⟩
    cases r with
    | ok value =>
      have hs := p8_supply (n := c) (s := s) (as := as) (ws := ws) (out := out) (rsp := rsp) (by rw [hp]; simp)
      rw [hp] at hs
      simp only [xwLoop, hp] at h
      rw [← ih h, xwLoop, hs]
      rfl
    | exhausted value nvalid => simp [xwLoop, hp] at h
    | sourceError e => simp [xwLoop, hp] at h
    | wait =>
      simp only [xwLoop, hp, Prod.mk.injEq, XwResult.wait.injEq] at h
      obtain ⟨rfl, rfl⟩ := h
      rw [p8_wait_state hp]

/-! ### The last command -/

@[simp] theorem lastAnswered_response (es : List Event) (r : Response) : lastAnswered (es ++ [.response r]) = true := by
  simp [lastAnswered, Event.isCommand, Event.isResponse]

@[simp] theorem lastAnswered_command (es : List Event) (w : Word) : lastAnswered (es ++ [.command w]) = false := by
  simp [lastAnswered, Event.isCommand, Event.isResponse]

@[simp] theorem lastAnswered_read (es : List Event) (a : Answer) :
    lastAnswered (es ++ [.read a]) = lastAnswered es := by
  simp [lastAnswered, Event.isCommand, Event.isResponse]

@[simp] theorem lastAnswered_beat (es : List Event) (b : Beat) : lastAnswered (es ++ [.beat b]) = lastAnswered es := by
  simp [lastAnswered, Event.isCommand, Event.isResponse]

end Sys2Proof.Machine
end

