-- ==== Sys2Proof/Tests/Slice0.lean ====
section
/-!
SUPPORT. Tests: the words of spec/30_encoding.md, the vectors of spec/95_test_vectors.md (each test names its vector), and
for every statement with hypotheses a state and operands that meet them all.
-/

namespace Sys2Proof.Tests

open Sys2Proof.Machine

/-! ### Well-formedness -/

theorem test_supported_kind_is_no_kbad : ∀ kind ∈ [0#3, 1#3, 2#3, 3#3], (Instr.fieldKbad kind false 1).wellFormed = false := by
  decide

theorem test_unsupported_kind_is_kbad : ∀ kind ∈ [4#3, 5#3, 6#3, 7#3], (Instr.fieldKbad kind true 0).wellFormed = true := by
  decide

/-! ### Decoding: words written out from R63 to R69 -/

/-- V-E1, and the least and the greatest SIZE. -/
theorem test_decode_xbits8 : decode 0x10000003 = .ok (.xbits8 3) ∧ decode 0x10000000 = .ok (.xbits8 0) ∧
    decode 0x1000007F = .ok (.xbits8 127) := ⟨rfl, rfl, rfl⟩

/-- V-E2. -/
theorem test_decode_xbits16 : decode 0x1100000A = .ok (.xbits16 10) := rfl

/-- V-E3. -/
theorem test_decode_xbits32 : decode 0x12000014 = .ok (.xbits32 20) := rfl

/-- V-E4 and V-E5. -/
theorem test_decode_xbits64 : decode 0x13000025 = .ok (.xbits64 37) ∧ decode 0x1300007F = .ok (.xbits64 127) := ⟨rfl, rfl⟩

/-- V-E6 and V-E7. -/
theorem test_decode_xbytes : decode 0x20000003 = .ok (.xbytes 3) ∧ decode 0x20FFFFFF = .ok (.xbytes 16777215) :=
  ⟨rfl, rfl⟩

/-- V-E8, and the greatest NFIELDS. -/
theorem test_decode_populate : decode 0x30000009 = .ok (.populate 9) ∧ decode 0x3000FFFF = .ok (.populate 65535) :=
  ⟨rfl, rfl⟩

/-- V-E9. -/
theorem test_decode_clear : decode 0x40000000 = .ok .clear := rfl

/-- V-E11, and WIDTH 127. -/
theorem test_decode_fieldU8 : decode 0xD0000807 = .ok (.fieldU8 true 7) ∧ decode 0xD000007F = .ok (.fieldU8 false 127) :=
  ⟨rfl, rfl⟩

/-- V-E10 and V-E16. -/
theorem test_decode_fieldU16 : decode 0xD000010A = .ok (.fieldU16 false 10) ∧ decode 0xD000090C = .ok (.fieldU16 true 12) :=
  ⟨rfl, rfl⟩

/-- The fifth descriptor of V-EX2. -/
theorem test_decode_fieldU32 : decode 0xD0000216 = .ok (.fieldU32 false 22) := rfl

/-- V-E12. -/
theorem test_decode_fieldU64 : decode 0xD0000340 = .ok (.fieldU64 false 64) := rfl

/-- V-E13, and the least and the greatest unsupported kind. -/
theorem test_decode_fieldKbad : decode 0xD0000503 = .ok (.fieldKbad 5 false 3) ∧
    decode 0xD0000400 = .ok (.fieldKbad 4 false 0) ∧ decode 0xD0000F7F = .ok (.fieldKbad 7 true 127) :=
  ⟨rfl, rfl, rfl⟩

/-- V-E17, V-E18 and V-E20: a reserved operation. -/
theorem test_decode_reserved : decode 0x00000000 = .error .reservedOp ∧ decode 0x50000000 = .error .reservedOp ∧
    decode 0xF0000000 = .error .reservedOp := ⟨rfl, rfl, rfl⟩

/-- V-E21 to V-E26: a RES0 bit that is set. -/
theorem test_decode_res0 :
    decode 0x14000003 = .error .res0Set ∧
    decode 0x10000083 = .error .res0Set ∧
    decode 0x1000FF80 = .error .res0Set ∧
    decode 0x21000000 = .error .res0Set ∧
    decode 0x30010000 = .error .res0Set ∧
    decode 0x40000001 = .error .res0Set ∧
    decode 0xD0001001 = .error .res0Set ∧
    decode 0xD0000080 = .error .res0Set :=
  ⟨rfl, rfl, rfl, rfl, rfl, rfl, rfl, rfl⟩

/-! ### One step of each instruction: the vectors of spec/95 -/

/-- The next state of an outcome. -/
def nextOf : Host.Outcome State Fault Refusal → Option State
  | .next s => some s
  | _ => none

/-- The trace and the cursor after an instruction. -/
def seen (o : Host.Outcome State Fault Refusal) : Option (List Event × Byte × BitVec 3) :=
  (nextOf o).map fun s => (s.trace, s.l, s.v)

/-- A start of the vectors: L, V and the source's answers, at a command position. -/
def start (l : Byte) (v : BitVec 3) (src : List Answer) : State :=
  { State.reset with l := l, v := v, started := v ≠ 0, src := src }

/-- The same at descriptor `fi` of a POPULATE of `nf`, with `sc` slots written. -/
def startField (fi nf sc : FieldIndex) (l : Byte) (v : BitVec 3) (src : List Answer) : State :=
  { start l v src with mode := .pop, fi := fi, nf := nf, sc := sc }

/-- V-X8-4. -/
theorem test_xbits8_joins_pending_bits : seen (exec (.xbits8 8) (start 0xE0 3 [.byte 0x5A])) =
    some ([.read (.byte 0x5A), .response { status := .ok, value := 0xEB, nvalid := 8 }], 0x40, 3) := by decide

/-- V-X8-7. -/
theorem test_xbits8_exhausted : seen (exec (.xbits8 5) (start 0xE0 3 [.eof])) =
    some ([.read .eof, .response { status := .exhausted, value := 0x1C, nvalid := 3 }], 0x00, 0) := by decide

/-- V-X16-4. -/
theorem test_xbits16_is_big_endian : seen (exec (.xbits16 16) (start 0xA0 3 [.byte 0x12, .byte 0x34])) =
    some ([.read (.byte 0x12), .read (.byte 0x34), .response { status := .ok, value := 0xA246, nvalid := 16 }],
      0x80, 3) := by decide

/-- V-X16-10. -/
theorem test_xbits16_size_overflow : seen (exec (.xbits16 17) (start 0 0 [.byte 0x12])) =
    some ([.response { status := .sizeOverflow }], 0x00, 0) := by decide

/-- V-X32-1. -/
theorem test_xbits32_three_chunks : seen (exec (.xbits32 20) (start 0 0 [.byte 0x12, .byte 0x34, .byte 0x56])) =
    some ([.read (.byte 0x12), .read (.byte 0x34), .read (.byte 0x56),
      .response { status := .ok, value := 0x12345, nvalid := 20 }], 0x60, 4) := by decide

/-- V-X32-6. -/
theorem test_xbits32_source_error : seen (exec (.xbits32 20) (start 0xC0 2 [.err 0x01])) =
    some ([.read (.err 0x01), .response { status := .sourceError, srcerr := 0x01 }], 0x00, 0) := by decide

/-- V-X64-2. -/
theorem test_xbits64_37 :
    seen (exec (.xbits64 37) (start 0 0 [.byte 0x11, .byte 0x22, .byte 0x33, .byte 0x44, .byte 0x55])) =
      some ([.read (.byte 0x11), .read (.byte 0x22), .read (.byte 0x33), .read (.byte 0x44), .read (.byte 0x55),
        .response { status := .ok, value := 0x22446688A, nvalid := 37 }], 0xA0, 3) := by decide

/-- V-X64-3. -/
theorem test_xbits64_exhausted :
    seen (exec (.xbits64 37) (start 0 0 [.byte 0x11, .byte 0x22, .byte 0x33, .eof])) =
      some ([.read (.byte 0x11), .read (.byte 0x22), .read (.byte 0x33), .read .eof,
        .response { status := .exhausted, value := 0x224466000, nvalid := 24 }], 0x00, 0) := by decide

/-- V-XB-4. -/
theorem test_xbytes_unaligned : seen (exec (.xbytes 2) (start 0xA0 3 [.byte 0x12, .byte 0x34])) =
    some ([.read (.byte 0x12), .beat (.byte 0 0xA2), .read (.byte 0x34), .beat (.byte 1 0x46),
      .response { status := .ok, count := 2 }], 0x80, 3) := by decide

/-- V-XB-1. -/
theorem test_xbytes_exhausted : seen (exec (.xbytes 3) (start 0xB0 4 [.byte 0x12, .eof])) =
    some ([.read (.byte 0x12), .beat (.byte 0 0xB1), .read .eof,
      .response { status := .exhausted, value := 0x20, nvalid := 4, count := 1 }], 0x00, 0) := by decide

/-- V-CL-1, its first command. -/
theorem test_clear : nextOf (exec .clear (start 0x80 1 [.byte 0xC3])) =
    some { start 0 0 [.byte 0xC3] with trace := [.response { status := .ok }] } := by decide

/-- V-PO-21, its first command. -/
theorem test_populate_empty : seen (exec (.populate 0) (start 0 0 [.byte 0x80])) =
    some ([.response { status := .ok }], 0x00, 0) := by decide

/-- V-PO-1, its header (R120). -/
theorem test_populate_header : (nextOf (exec (.populate 3) (start 0xA0 3 []))).map (fun s => (s.nf, s.fi, s.sc, s.mode, s.l)) =
    some (3, 0, 0, .pop, 0xA0) := by decide

/-- V-PO-2. -/
theorem test_fieldU8 : seen (exec (.fieldU8 false 8) (startField 0 1 0 0 0 [.byte 0x9C])) =
    some ([.read (.byte 0x9C), .beat (.slot 0 .w8 0x9C), .response { status := .ok, count := 1, field := 1 }],
      0x00, 0) := by decide

/-- V-PO-3, its second descriptor. -/
theorem test_fieldU8_exhausted : seen (exec (.fieldU8 false 6) (startField 1 2 1 0x00 4 [.eof])) =
    some ([.read .eof, .beat (.slot 1 .w8 0x00),
      .response { status := .exhausted, nvalid := 4, count := 2, field := 1 }], 0x00, 0) := by decide

/-- V-PO-4. -/
theorem test_fieldU16 : seen (exec (.fieldU16 false 10) (startField 0 1 0 0 0 [.byte 0xFF, .byte 0xC0])) =
    some ([.read (.byte 0xFF), .read (.byte 0xC0), .beat (.slot 0 .w16 0x3FF),
      .response { status := .ok, count := 1, field := 1 }], 0x00, 6) := by decide

/-- V-PO-22, its second descriptor: a skip field emits no slot, and the third descriptor is consumed. -/
theorem test_fieldU16_skip_exhausted : (nextOf (exec (.fieldU16 true 12)
      { startField 1 3 1 0xB0 4 [.eof] with cmd := [0xD0000001] })).map (fun s => (s.trace, s.cmd)) =
    some ([.read .eof, .response { status := .exhausted, nvalid := 4, count := 1, field := 1 }], []) := by decide

/-- V-PO-6. -/
theorem test_fieldU32 : seen (exec (.fieldU32 false 22) (startField 0 1 0 0 0 [.byte 0xFF, .byte 0xFF, .byte 0xFF])) =
    some ([.read (.byte 0xFF), .read (.byte 0xFF), .read (.byte 0xFF), .beat (.slot 0 .w32 0x3FFFFF),
      .response { status := .ok, count := 1, field := 1 }], 0xC0, 2) := by decide

/-- V-PO-7, its second descriptor. -/
theorem test_fieldU32_source_error : seen (exec (.fieldU32 false 32) (startField 1 2 0 0 0 [.byte 0xBB, .err 0x10])) =
    some ([.read (.byte 0xBB), .read (.err 0x10),
      .response { status := .sourceError, field := 1, srcerr := 0x10 }], 0x00, 0) := by decide

/-- V-PO-8. -/
theorem test_fieldU64 :
    seen (exec (.fieldU64 false 37) (startField 0 1 0 0 0 [.byte 0xFF, .byte 0xFF, .byte 0xFF, .byte 0xFF, .byte 0xF8])) =
      some ([.read (.byte 0xFF), .read (.byte 0xFF), .read (.byte 0xFF), .read (.byte 0xFF), .read (.byte 0xF8),
        .beat (.slot 0 .w64 0x1FFFFFFFFF), .response { status := .ok, count := 1, field := 1 }], 0x00, 3) := by decide

/-- V-PO-11. -/
theorem test_fieldU64_size_overflow : seen (exec (.fieldU64 false 65) (startField 0 1 0 0 0 [])) =
    some ([.response { status := .sizeOverflow }], 0x00, 0) := by decide

/-- V-PO-15, its second descriptor. -/
theorem test_fieldKbad : seen (exec (.fieldKbad 5 false 3) (startField 1 2 1 0x00 7 [])) =
    some ([.response { status := .unsupportedKind, count := 1, field := 1 }], 0x00, 7) := by decide

/-- V-PO-17. -/
theorem test_fieldKbad_before_the_width_check : seen (exec (.fieldKbad 4 false 0) (startField 0 1 0 0 0 [])) =
    some ([.response { status := .unsupportedKind }], 0x00, 0) := by decide

/-- V-E19: a descriptor at a command position. -/
theorem test_step_descriptor_at_command : seen (step { start 0 0 [.byte 0xAA] with cmd := [0xD0000001] }) =
    some ([.command 0xD0000001, .response { status := .illegalCommand }], 0x00, 0) := by decide

/-- V-PO-18, its second descriptor word, which no row matches. -/
theorem test_step_illegal_descriptor :
    (nextOf (step { startField 1 3 1 0x00 7 [] with cmd := [0x12345678, 0xD0000001, 0x10000007] })).map
      (fun s => (s.trace, s.cmd)) =
    some ([.response { status := .illegalCommand, count := 1, field := 1 }], [0x10000007]) := by decide

/-- V-E14, V-E15 and V-E16. -/
theorem test_assembler : AsmLine.xbit.encodeLine = some 0x10000001 ∧ AsmLine.xbyte.encodeLine = some 0x10000008 ∧
    (AsmLine.xbitsAuto 20).encodeLine = some 0x12000014 ∧ (AsmLine.pad 12).encodeLine = some 0xD000090C := by decide

/-- The host's two questions, on one word of each format. -/
theorem test_withFetchWord :
    seen (step (State.reset.withFetchWord 32 0x20000000)) =
      some ([.command 0x20000000, .response { status := .ok }], 0, 0) ∧
    seen (step (State.reset.withFetchWord 32 0xD0000503)) =
      some ([.response { status := .unsupportedKind }], 0, 0) := by decide

/-! ### Witnesses: the hypotheses of every statement that has any, met together -/

/-- Inside an XBYTES of 3, waiting for byte BC = 0. -/
def reading (src : List Answer) : State := { start 0xA0 3 src with mode := .xbytes, work := .byteRead 3 }

/-- The reset input is high: with a read outstanding, unanswered and answered, and with none. -/
theorem witness_ResetAbandonsTheCommand :
    (({ reading [] with rst := true } : State).rst = true ∧ (reading []).awaitsRead = true ∧ (reading []).src = []) ∧
    ((reading [.eof]).awaitsRead = true ∧ (reading [.eof]).src = .eof :: []) ∧
    (({ start 0 0 [] with rst := true } : State).awaitsRead = false ∧ ({ start 0 0 [] with rst := true } : State).late = false) ∧
    bitField 0xD0000001 31 28 = 0xD := by decide

theorem witness_LateAnswerIsDiscarded :
    (({ start 0x80 1 [.eof] with late := true } : State).late = true ∧
      ({ start 0x80 1 [.eof] with late := true } : State).src = .eof :: [] ∧
      ({ start 0x80 1 [.eof] with late := true } : State).rst = false) ∧
    (({ reading [.eof] with late := true } : State).rst = false ∧
      ({ reading [.eof] with late := true } : State).late = true ∧
      ({ reading [.eof] with late := true } : State).src = .eof :: []) ∧
    ({ start 0x80 1 [] with late := true } : State).v.toNat < 2 := by decide

/-- R160: a late answer that comes while no word is there is read and lost, and the one after it is not. -/
theorem test_late_answer_is_lost : nextOf (step { start 0 0 [.byte 1, .byte 2] with late := true }) =
    some { start 0 0 [.byte 2] with trace := [.read (.byte 1)] } := by decide

theorem witness_StepRunsDecodedInstruction :
    ((start 0 0 []).rst = false ∧ (start 0 0 []).position = some .command ∧
      ({ start 0 0 [] with cmd := [0x40000000] } : State).cmd = 0x40000000 :: [] ∧ decode 0x40000000 = .ok .clear) ∧
    ((startField 0 1 0 0 0 []).rst = false ∧ (startField 0 1 0 0 0 []).position = some .descriptor ∧
      ({ startField 0 1 0 0 0 [] with cmd := [0xD0000400] } : State).cmd = 0xD0000400 :: [] ∧
      decode 0xD0000400 = .ok (.fieldKbad 4 false 0)) := ⟨⟨rfl, rfl, rfl, rfl⟩, rfl, rfl, rfl, rfl⟩

theorem witness_DecodeOfEncodeIsTheInstruction : (Instr.fieldKbad 4 false 0).WellFormed ∧
    (Instr.fieldKbad 7 true 127).WellFormed ∧ (Instr.xbytes 0xFFFFFF).WellFormed := by decide

theorem witness_EncodeOfDecodeIsTheWord : decode 0xD0000F7F = .ok (.fieldKbad 7 true 127) := rfl

theorem witness_DecodeFollowsOpcodeMap : ("CLEAR", 0x40000000, 0xFFFFFFFF) ∈ opcodeMap := by decide

theorem witness_IllegalCommandWordOnlyResponds :
    (start 0x80 1 []).rst = false ∧ (start 0x80 1 []).late = false ∧ (start 0x80 1 []).position = some .command ∧
    ({ start 0x80 1 [] with cmd := [0x40000001] } : State).cmd = 0x40000001 :: [] ∧
    illegalCommandWord 0x40000001 = true ∧ (start 0x80 1 []).rspReady.take = some .always := by decide

theorem witness_IllegalDescriptorStopsPopulate :
    (startField 1 3 1 0x80 1 []).rst = false ∧ (startField 1 3 1 0x80 1 []).late = false ∧
    (startField 1 3 1 0x80 1 []).position = some .descriptor ∧
    ({ startField 1 3 1 0x80 1 [] with cmd := [0xD0000081, 0, 0x40000000] } : State).cmd =
      0xD0000081 :: ([0] ++ [0x40000000]) ∧
    illegalDescriptorWord 0xD0000081 = true ∧ [0#32].length = (startField 1 3 1 0x80 1 []).wordsAfter ∧
    (startField 1 3 1 0x80 1 []).rspReady.take = some .always := by decide

theorem witness_P8ServesFromLeftover :
    (1 ≤ 1 ∧ 1 ≤ 8 ∧ 1 ≤ (start 0x80 1 []).v.toNat) ∧ (1 ≤ 7 ∧ 7 ≤ 8 ∧ 7 ≤ (start 0xFE 7 []).v.toNat) := by decide

theorem witness_P8PullsOneByte :
    (8 ≤ 8 ∧ (start 0xFE 7 [.byte 0x5A]).v.toNat < 8 ∧ (start 0xFE 7 [.byte 0x5A]).late = false ∧
      (start 0xFE 7 [.byte 0x5A]).src = .byte 0x5A :: []) ∧ (1 ≤ 8 ∧ (start 0 0 []).v.toNat < 1) := by decide

theorem witness_P8EmptiesCursorAtEof :
    8 ≤ 8 ∧ (start 0xFE 7 [.eof]).v.toNat < 8 ∧ (start 0xFE 7 [.eof]).late = false ∧
    (start 0xFE 7 [.eof]).src = .eof :: [] := by decide

theorem witness_P8EmptiesCursorOnSourceError :
    1 ≤ 8 ∧ (start 0 0 [.err 0x42]).v.toNat < 1 ∧ (start 0 0 [.err 0x42]).late = false ∧
    (start 0 0 [.err 0x42]).src = .err 0x42 :: [] := by decide

theorem witness_P8MakesOneReadWhenShort :
    (1 ≤ 3 ∧ 3 ≤ 8 ∧ 3 ≤ (start 0xE0 3 []).v.toNat) ∧
    (1 ≤ 4 ∧ 4 ≤ 8 ∧ (start 0xE0 3 [.eof]).v.toNat < 4 ∧ (start 0xE0 3 [.eof]).late = false ∧
      (start 0xE0 3 [.eof]).src = .eof :: []) ∧
    ((start 0xE0 3 []).v.toNat < 4 ∧ ((start 0xE0 3 []).late = true ∨ (start 0xE0 3 []).src = [])) := by decide

theorem witness_SizeOverflowBeforeAnyRead :
    (start 0 0 []).position = some .command ∧ (start 0 0 []).rspReady.take = some .always ∧
    ((0#7).toNat = 0 ∨ Width.w8.bits < (0#7).toNat) ∧ ((65#7).toNat = 0 ∨ Width.w64.bits < (65#7).toNat) := by decide

/-- At V = 3: a request served from L, and the widest one, which needs eight bytes. -/
theorem witness_XbitsReturnsLeadingBits :
    (start 0xE0 3 []).position = some .command ∧ CursorInv (start 0xE0 3 []) ∧ (start 0xE0 3 []).late = false ∧
    (start 0xE0 3 []).rspReady.take = some .always ∧
    (1 ≤ (3#7).toNat ∧ (3#7).toNat ≤ Width.w8.bits ∧ (start 0xE0 3 [.eof]).src = ([] : List Byte).map .byte ++ [.eof] ∧
      ([] : List Byte).length = readsFor (3#7).toNat (start 0xE0 3 []).v.toNat) ∧
    (1 ≤ (64#7).toNat ∧ (64#7).toNat ≤ Width.w64.bits ∧
      (start 0xE0 3 ([1, 2, 3, 4, 5, 6, 7, 8].map .byte)).src = [1, 2, 3, 4, 5, 6, 7, 8].map .byte ++ [] ∧
      [1#8, 2, 3, 4, 5, 6, 7, 8].length = readsFor (64#7).toNat (start 0xE0 3 []).v.toNat) := by decide

/-- One bit short of the request: V-X16-7 and an empty source. -/
theorem witness_XbitsExhaustedReturnsAvailableBits :
    (start 0xE0 3 [.byte 0xAB, .eof]).position = some .command ∧ CursorInv (start 0xE0 3 [.byte 0xAB, .eof]) ∧
    (start 0xE0 3 [.byte 0xAB, .eof]).late = false ∧ (start 0xE0 3 [.byte 0xAB, .eof]).rspReady.take = some .always ∧
    (12#7).toNat ≤ Width.w16.bits ∧
    (start 0xE0 3 [.byte 0xAB, .eof]).src = [0xAB].map .byte ++ .eof :: [] ∧
    ((start 0xE0 3 [.byte 0xAB, .eof]).available [0xAB]).length < (12#7).toNat ∧
    ((start 0 0 [.eof]).available []).length < (1#7).toNat := by decide

theorem witness_XbitsSourceErrorLosesPendingBits :
    (start 0xC0 2 [.err 1]).position = some .command ∧ CursorInv (start 0xC0 2 [.err 1]) ∧
    (start 0xC0 2 [.err 1]).late = false ∧ (start 0xC0 2 [.err 1]).rspReady.take = some .always ∧
    (20#7).toNat ≤ Width.w32.bits ∧ (start 0xC0 2 [.err 1]).src = ([] : List Byte).map .byte ++ .err 1 :: [] ∧
    ((start 0xC0 2 [.err 1]).available []).length < (20#7).toNat := by decide

theorem witness_XbitsWaitsForTheSource :
    (start 0xC0 2 [.byte 1]).position = some .command ∧ CursorInv (start 0xC0 2 [.byte 1]) ∧
    (20#7).toNat ≤ Width.w32.bits ∧
    ((start 0xC0 2 [.byte 1]).late = false ∧ (start 0xC0 2 [.byte 1]).src = [1].map .byte ∧
      ((start 0xC0 2 [.byte 1]).available [1]).length < (20#7).toNat) ∧
    (({ start 0xC0 2 [] with late := true } : State).late = true ∧
      (({ start 0xC0 2 [] with late := true } : State).available []).length < (20#7).toNat) := by decide

theorem witness_ChunkPlanIsUnobservable :
    CursorInv (start 0xC0 2 []) ∧ (∀ c ∈ [8, 2], 1 ≤ c ∧ c ≤ 8) ∧ (∀ d ∈ [1, 1, 8], 1 ≤ d ∧ d ≤ 8) ∧
    [8, 2].sum = [1, 1, 8].sum := by decide

theorem witness_SplitExtractionsCompose :
    (start 0xC0 2 [.byte 1]).position = some .command ∧ CursorInv (start 0xC0 2 [.byte 1]) ∧
    (start 0xC0 2 [.byte 1]).late = false ∧ (start 0xC0 2 [.byte 1]).rspReady.takeN 2 = some .always ∧
    1 ≤ (3#7).toNat ∧ (3#7).toNat ≤ Width.w8.bits ∧ 1 ≤ (7#7).toNat ∧ (7#7).toNat ≤ Width.w8.bits ∧
    (10#7).toNat = (3#7).toNat + (7#7).toNat ∧ (10#7).toNat ≤ Width.w16.bits ∧
    (start 0xC0 2 [.byte 1]).src = [1].map .byte ++ [] ∧
    [1#8].length = readsFor (10#7).toNat (start 0xC0 2 [.byte 1]).v.toNat := by decide

/-- One that ends OK and one that ends EXHAUSTED. -/
theorem witness_XbitsConservesBits :
    (∃ t r, (start 0xE0 3 [.byte 0x5A]).position = some .command ∧ CursorInv (start 0xE0 3 [.byte 0x5A]) ∧
      exec (.xbits .w8 8) (start 0xE0 3 [.byte 0x5A]) = .next t ∧ t.position = some .command ∧
      t.trace.getLast? = some (.response r) ∧ r.status = .ok) ∧
    ∃ t r, (start 0xE0 3 [.eof]).position = some .command ∧ CursorInv (start 0xE0 3 [.eof]) ∧
      exec (.xbits .w8 5) (start 0xE0 3 [.eof]) = .next t ∧ t.position = some .command ∧
      t.trace.getLast? = some (.response r) ∧ r.status = .exhausted :=
  ⟨⟨_, _, rfl, by decide, rfl, rfl, rfl, rfl⟩, _, _, rfl, by decide, rfl, rfl, rfl, rfl⟩

theorem witness_EofIsNotSticky :
    (start 0xFE 7 [.eof, .byte 1]).position = some .command ∧ (start 0xFE 7 [.eof, .byte 1]).late = false ∧
    (start 0xFE 7 [.eof, .byte 1]).rspReady.takeN 2 = some .always ∧
    (start 0xFE 7 [.eof, .byte 1]).v.toNat < (8#7).toNat ∧ (8#7).toNat ≤ 8 ∧
    (start 0xFE 7 [.eof, .byte 1]).src = .eof :: .byte 1 :: [] := by decide

/-- A COUNT of 2, with a host that takes just as many beats, and a COUNT of 0. -/
theorem witness_XbytesEmitsEveryByte :
    (start 0xA0 3 [.byte 1, .byte 2]).position = some .command ∧ CursorInv (start 0xA0 3 [.byte 1, .byte 2]) ∧
    (start 0xA0 3 [.byte 1, .byte 2]).late = false ∧
    ({ start 0xA0 3 [] with outReady := .upTo 2 } : State).outReady.takeN (2#24).toNat = some (.upTo 0) ∧
    (start 0xA0 3 []).rspReady.take = some .always ∧
    (start 0xA0 3 [.byte 1, .byte 2]).src = [1, 2].map .byte ++ [] ∧ [1#8, 2].length = (2#24).toNat ∧
    (Ready.upTo 0).takeN (0#24).toNat = some (.upTo 0) ∧ ([] : List Byte).length = (0#24).toNat := by decide

theorem witness_XbytesExhaustedKeepsPrefix :
    (start 0xB0 4 [.byte 0x12, .eof]).position = some .command ∧ CursorInv (start 0xB0 4 [.byte 0x12, .eof]) ∧
    (start 0xB0 4 [.byte 0x12, .eof]).late = false ∧
    (start 0xB0 4 [.byte 0x12, .eof]).outReady.takeN [0x12#8].length = some .always ∧
    (start 0xB0 4 [.byte 0x12, .eof]).rspReady.take = some .always ∧
    (start 0xB0 4 [.byte 0x12, .eof]).src = [0x12].map .byte ++ .eof :: [] ∧ [0x12#8].length < (2#24).toNat := by decide

theorem witness_XbytesSourceErrorKeepsPrefix :
    (start 0xF0 4 [.err 0x55]).position = some .command ∧ CursorInv (start 0xF0 4 [.err 0x55]) ∧
    (start 0xF0 4 [.err 0x55]).late = false ∧
    (start 0xF0 4 [.err 0x55]).outReady.takeN ([] : List Byte).length = some .always ∧
    (start 0xF0 4 [.err 0x55]).rspReady.take = some .always ∧
    (start 0xF0 4 [.err 0x55]).src = ([] : List Byte).map .byte ++ .err 0x55 :: [] ∧
    ([] : List Byte).length < (1#24).toNat := by decide

theorem witness_AlignedXbytesIsTheIdentity :
    (start 0 0 [.byte 1, .byte 2]).position = some .command ∧ CursorInv (start 0 0 [.byte 1, .byte 2]) ∧
    (start 0 0 [.byte 1, .byte 2]).late = false ∧ (start 0 0 [.byte 1, .byte 2]).v = 0 ∧
    (start 0 0 [.byte 1, .byte 2]).outReady.takeN (2#24).toNat = some .always ∧
    (start 0 0 [.byte 1, .byte 2]).rspReady.take = some .always ∧
    (start 0 0 [.byte 1, .byte 2]).src = [1, 2].map .byte ++ [] ∧ [1#8, 2].length = (2#24).toNat := by decide

theorem witness_ClearEmptiesTheCursor :
    (start 0x80 1 []).position = some .command ∧ (start 0x80 1 []).rspReady.take = some .always := by decide

theorem witness_PopulateStartsTheSequencer :
    (start 0x80 1 []).position = some .command ∧ (1 : FieldIndex) ≠ 0 ∧ (0xFFFF : FieldIndex) ≠ 0 := by decide

theorem witness_EmptyPopulateResponds :
    (start 0x80 1 []).position = some .command ∧ ({ start 0x80 1 [] with rspReady := .upTo 1 } : State).rspReady.take =
      some (.upTo 0) := by decide

/-- A data field, which needs one beat, and a skip field, which needs none; at the last index before the last. -/
theorem witness_FieldTakesLeadingBits :
    (startField 0xFFFD 0xFFFF 0 0xC0 2 [.byte 1]).position = some .descriptor ∧
    CursorInv (startField 0xFFFD 0xFFFF 0 0xC0 2 [.byte 1]) ∧ (startField 0xFFFD 0xFFFF 0 0xC0 2 [.byte 1]).late = false ∧
    (startField 0xFFFD 0xFFFF 0 0xC0 2 []).fi + 1 < (startField 0xFFFD 0xFFFF 0 0xC0 2 []).nf ∧
    (Ready.upTo 1).takeN (if false then 0 else 1) = some (.upTo 0) ∧
    (Ready.upTo 0).takeN (if true then 0 else 1) = some (.upTo 0) ∧
    1 ≤ (8#7).toNat ∧ (8#7).toNat ≤ Width.w8.bits ∧
    (startField 0xFFFD 0xFFFF 0 0xC0 2 [.byte 1]).src = [1].map .byte ++ [] ∧
    [1#8].length = readsFor (8#7).toNat (startField 0xFFFD 0xFFFF 0 0xC0 2 []).v.toNat := by decide

theorem witness_LastFieldEndsPopulate :
    (startField 0xFFFE 0xFFFF 0 0xC0 2 [.byte 1]).position = some .descriptor ∧
    CursorInv (startField 0xFFFE 0xFFFF 0 0xC0 2 [.byte 1]) ∧ (startField 0xFFFE 0xFFFF 0 0xC0 2 [.byte 1]).late = false ∧
    (startField 0xFFFE 0xFFFF 0 0xC0 2 []).fi + 1 = (startField 0xFFFE 0xFFFF 0 0xC0 2 []).nf ∧
    (startField 0xFFFE 0xFFFF 0 0xC0 2 []).outReady.takeN (if false then 0 else 1) = some .always ∧
    (startField 0xFFFE 0xFFFF 0 0xC0 2 []).rspReady.take = some .always ∧
    1 ≤ (10#7).toNat ∧ (10#7).toNat ≤ Width.w16.bits ∧
    (startField 0xFFFE 0xFFFF 0 0xC0 2 [.byte 1]).src = [1].map .byte ++ [] ∧
    [1#8].length = readsFor (10#7).toNat (startField 0xFFFE 0xFFFF 0 0xC0 2 []).v.toNat := by decide

/-- Descriptor 1 of 3: the words of one descriptor are consumed after it. -/
def fieldStopping (src : List Answer) : State :=
  { startField 1 3 1 0xC0 2 src with cmd := [0xD0000001, 0x40000000] }

theorem witness_ExhaustedFieldStopsPopulate :
    (fieldStopping [.eof]).position = some .descriptor ∧ CursorInv (fieldStopping [.eof]) ∧
    (fieldStopping [.eof]).late = false ∧ (fieldStopping [.eof]).outReady.takeN (if false then 0 else 1) = some .always ∧
    (fieldStopping [.eof]).outReady.takeN (if true then 0 else 1) = some .always ∧
    (fieldStopping [.eof]).rspReady.take = some .always ∧ (3#7).toNat ≤ Width.w8.bits ∧
    (fieldStopping [.eof]).src = ([] : List Byte).map .byte ++ .eof :: [] ∧
    ((fieldStopping [.eof]).available []).length < (3#7).toNat ∧
    (fieldStopping [.eof]).cmd = [0xD0000001] ++ [0x40000000] ∧
    [0xD0000001#32].length = (fieldStopping [.eof]).wordsAfter := by decide

theorem witness_FieldSourceErrorStopsPopulate :
    (fieldStopping [.byte 1, .err 2]).position = some .descriptor ∧ CursorInv (fieldStopping [.byte 1, .err 2]) ∧
    (fieldStopping [.byte 1, .err 2]).late = false ∧ (fieldStopping [.byte 1, .err 2]).rspReady.take = some .always ∧
    (64#7).toNat ≤ Width.w64.bits ∧ (fieldStopping [.byte 1, .err 2]).src = [1].map .byte ++ .err 2 :: [] ∧
    ((fieldStopping [.byte 1, .err 2]).available [1]).length < (64#7).toNat ∧
    (fieldStopping [.byte 1, .err 2]).cmd = [0xD0000001] ++ [0x40000000] ∧
    [0xD0000001#32].length = (fieldStopping [.byte 1, .err 2]).wordsAfter := by decide

theorem witness_FieldSizeOverflowStopsPopulate :
    (fieldStopping []).position = some .descriptor ∧ (fieldStopping []).rspReady.take = some .always ∧
    ((0#7).toNat = 0 ∨ Width.w16.bits < (0#7).toNat) ∧ ((9#7).toNat = 0 ∨ Width.w8.bits < (9#7).toNat) ∧
    (fieldStopping []).cmd = [0xD0000001] ++ [0x40000000] ∧
    [0xD0000001#32].length = (fieldStopping []).wordsAfter := by decide

theorem witness_UnsupportedKindStopsPopulate : 4 ≤ (4#3).toNat ∧ 4 ≤ (7#3).toNat ∧
    (fieldStopping []).position = some .descriptor ∧ (fieldStopping []).rspReady.take = some .always ∧
    (fieldStopping []).cmd = [0xD0000001] ++ [0x40000000] ∧
    [0xD0000001#32].length = (fieldStopping []).wordsAfter := by decide

theorem witness_SkipFieldConsumesAlike : (fieldStopping [.byte 1]).position = some .descriptor := by decide

/-- A field after which the POPULATE goes on, one that ends it, one whose response waits, and one that waits for
words. -/
theorem witness_PopulateConsumesExactlyItsWords :
    (fieldStopping [.byte 1]).position = some .descriptor ∧
    (∃ t, exec (.fieldU8 false 8) (fieldStopping [.byte 1]) = .next t ∧ t.position = some .descriptor) ∧
    (∃ t, exec (.fieldU8 false 0) (fieldStopping []) = .next t ∧ t.position = some .command) ∧
    (∃ t r, exec (.fieldU8 false 0) { fieldStopping [] with rspReady := .upTo 0 } = .next t ∧ t.work = .respond r) ∧
    ∃ t left r, exec (.fieldU8 false 0) { fieldStopping [] with cmd := [] } = .next t ∧ t.work = .drain left r :=
  ⟨rfl, ⟨_, rfl, rfl⟩, ⟨_, rfl, rfl⟩, ⟨_, _, rfl, rfl⟩, _, _, _, rfl, rfl⟩

/-- V-PO-1. -/
def recordSpec : List FieldSpec := [⟨.w8, false, 1⟩, ⟨.w8, true, 7⟩, ⟨.w16, false, 10⟩]

/-- V-PO-1, with its words and its bytes. -/
def recordStart : State :=
  { start 0 0 [.byte 0x80, .byte 0xFF, .byte 0xC0] with cmd := [0x30000003, 0xD0000001, 0xD0000807, 0xD000010A] }

theorem witness_PopulateSlicesTheBitString :
    recordStart.position = some .command ∧ recordStart.rst = false ∧ recordStart.late = false ∧ CursorInv recordStart ∧
    recordSpec.length < 2 ^ 16 ∧ (∀ f ∈ recordSpec, sizeBad f.kind f.width = false) ∧
    recordStart.cmd = encode (.populate (BitVec.ofNat 16 recordSpec.length)) :: (recordSpec.map FieldSpec.word ++ []) ∧
    recordStart.src = [0x80, 0xFF, 0xC0].map .byte ++ [] ∧
    [0x80#8, 0xFF, 0xC0].length = readsFor (schemaBits recordSpec) recordStart.v.toNat ∧
    recordStart.outReady.takeN (schemaSlots recordSpec) = some .always ∧ recordStart.rspReady.take = some .always := by
  decide

/-- Every field at a step that runs a command. -/
def commandStart : State := { start 0xC0 2 [.byte 1] with started := true, cmd := [0x1200000A] }

theorem witness_CursorInvariantIsKept : CursorInv commandStart ∧ ∃ t, step commandStart = .next t :=
  ⟨by decide, _, rfl⟩

theorem witness_StepKeepsStartedInvariant : StartedInv State.reset ∧ ∃ t, step State.reset = .next t :=
  ⟨fun _ => rfl, _, rfl⟩

/-- The control invariant in each of the places in a command. -/
theorem witness_StepKeepsControlInvariant :
    (ControlInv commandStart ∧ ∃ t, step commandStart = .next t) ∧ ControlInv (reading []) ∧
    ControlInv (fieldStopping []) ∧
    ControlInv { start 0xC0 2 [] with mode := .xbits, work := .extract .xbits 20 [8, 4] } ∧
    ControlInv { startField 1 3 1 0xC0 2 [] with work := .extract (.field .w32 true) 20 [8, 4] } ∧
    ControlInv { reading [] with work := .byteBeat 3 0xAA } ∧
    ControlInv { startField 1 3 1 0xC0 2 [] with work := .slotBeat .w8 3 (some 2) } ∧
    ControlInv { startField 1 3 2 0 0 [] with work := .drain 1 { status := .exhausted } } ∧
    ControlInv { start 0 0 [] with work := .respond { status := .ok } } :=
  ⟨⟨by decide, _, rfl⟩, by decide, by decide, by decide, by decide, by decide, by decide, by decide, by decide⟩

theorem witness_NoConditionStopsTheMachine : ControlInv (reading [.err 1]) := by decide

/-- A command that waits, after its acceptance; a reset that abandons it; and a command that runs to its end. -/
theorem witness_EveryCommandIsAnsweredOnce :
    (({ reading [.eof] with trace := [.command 0x20000003] } : State).rst = false ∧
      ControlInv { reading [.eof] with trace := [.command 0x20000003] } ∧
      BalanceInv { reading [.eof] with trace := [.command 0x20000003] } ∧
      ∃ t, step { reading [.eof] with trace := [.command 0x20000003] } = .next t ∧ t.position = some .command) ∧
    (({ reading [] with rst := true } : State).rst = true ∧ ∃ t, step { reading [] with rst := true } = .next t) ∧
    (State.reset.rst = false ∧ ControlInv State.reset ∧ ∃ t, step State.reset = .next t ∧ t.position = some .command) :=
  ⟨⟨rfl, by decide, by decide, _, rfl, rfl⟩, ⟨rfl, _, rfl⟩, rfl, by decide, _, rfl, rfl⟩

/-- After a command that a reset abandoned the run has not ended (R174); after an answered one it has. -/
theorem test_runEnded : ¬ RunEnded { State.reset with trace := [.command 0x20000003] } ∧
    RunEnded { State.reset with trace := [.command 0x20000003, .read .eof, .response okResponse] } := by decide

theorem witness_StepNeverRewritesTheTrace : ∃ t, step (reading [.eof]) = .next t := ⟨_, rfl⟩

theorem witness_CommandsAreAcceptedOnlyWhenIdle : commandStart.position = some .command ∧
    ∃ t, step commandStart = .next t := ⟨rfl, _, rfl⟩

/-- The levels of the port outputs (R52): a request while a read is awaited, none while an abandoned one is unanswered,
and nothing offered or accepted while the reset input is high (log entry 17). -/
theorem test_ports : (reading []).srcReq = true ∧ ({ reading [] with late := true } : State).srcReq = false ∧
    ({ reading [] with rst := true } : State).srcReq = false ∧ State.reset.cmdReady = true ∧
    ({ State.reset with rst := true } : State).cmdReady = false ∧ (reading []).cmdReady = false ∧
    ({ reading [] with work := .byteBeat 3 0xAA, rst := true } : State).outBeat = none := by decide

/-- A wait; an XBYTES that comes to one after a byte, and after none; one behind an abandoned read; and a field in both. -/
theorem witness_SilentSourceStallsTheCore :
    (ControlInv (reading []) ∧ (reading []).rst = false ∧ (reading []).awaitsRead = true ∧ (reading []).src = []) ∧
    ((start 0xA0 3 [.byte 1]).position = some .command ∧ CursorInv (start 0xA0 3 [.byte 1]) ∧
      (start 0xA0 3 [.byte 1]).late = false ∧ (start 0xA0 3 [.byte 1]).outReady.takeN [1#8].length = some .always ∧
      (start 0xA0 3 [.byte 1]).src = [1].map .byte ∧ [1#8].length < (2#24).toNat ∧
      ([] : List Byte).length < (1#24).toNat) ∧
    (({ start 0xA0 3 [.eof] with late := true } : State).position = some .command ∧
      ({ start 0xA0 3 [.eof] with late := true } : State).late = true ∧ (1 : Count) ≠ 0) ∧
    ((fieldStopping [.byte 1]).position = some .descriptor ∧ CursorInv (fieldStopping [.byte 1]) ∧
      (11#7).toNat ≤ Width.w16.bits ∧ (fieldStopping [.byte 1]).late = false ∧
      (fieldStopping [.byte 1]).src = [1].map .byte ∧ ((fieldStopping [.byte 1]).available [1]).length < (11#7).toNat ∧
      ({ fieldStopping [] with late := true } : State).late = true ∧
      (({ fieldStopping [] with late := true } : State).available []).length < (3#7).toNat) := by decide

/-- A beat that waits, a response that waits, and a response that is taken. -/
theorem witness_PendingOutputWaitsForTheHost :
    (({ reading [] with work := .byteBeat 3 0xAA, outReady := .upTo 0 } : State).outBeat.isSome = true ∧
      ({ reading [] with work := .byteBeat 3 0xAA, outReady := .upTo 0 } : State).outReady = .upTo 0) ∧
    (({ reading [] with work := .respond okResponse, rspReady := .upTo 0 } : State).rspData.isSome = true ∧
      ({ reading [] with work := .respond okResponse, rspReady := .upTo 0 } : State).rspReady = .upTo 0) ∧
    (({ reading [] with work := .respond okResponse, rspReady := .upTo 1 } : State).work = .respond okResponse ∧
      ({ reading [] with work := .respond okResponse, rspReady := .upTo 1 } : State).rspReady.take = some (.upTo 0)) := by
  decide

/-- An XBYTES of 2 whose host takes one beat, and one of 1 whose host takes none. -/
theorem witness_PendingOutputWaitsForTheHost_beats :
    (start 0xA0 3 [.byte 1, .byte 2]).position = some .command ∧ CursorInv (start 0xA0 3 [.byte 1, .byte 2]) ∧
    (start 0xA0 3 [.byte 1, .byte 2]).late = false ∧
    ({ start 0xA0 3 [.byte 1, .byte 2] with outReady := .upTo 1 } : State).outReady = .upTo 1 ∧ 1 < (2#24).toNat ∧
    (start 0xA0 3 [.byte 1, .byte 2]).src = [1, 2].map .byte ++ [] ∧ [1#8, 2].length = 1 + 1 ∧
    0 < (1#24).toNat ∧ [1#8].length = 0 + 1 := by decide

/-- A data field that ends OK, and one that ends EXHAUSTED, whose slot is not taken. -/
theorem witness_PendingOutputWaitsForTheHost_slots :
    (fieldStopping [.byte 1]).position = some .descriptor ∧ CursorInv (fieldStopping [.byte 1]) ∧
    (fieldStopping [.byte 1]).late = false ∧
    ({ fieldStopping [.byte 1] with outReady := .upTo 0 } : State).outReady = .upTo 0 ∧
    1 ≤ (10#7).toNat ∧ (10#7).toNat ≤ Width.w16.bits ∧ (fieldStopping [.byte 1]).src = [1].map .byte ++ [] ∧
    [1#8].length = readsFor (10#7).toNat (fieldStopping [.byte 1]).v.toNat ∧
    (fieldStopping [.byte 1, .eof]).src = [1].map .byte ++ .eof :: [] ∧
    ((fieldStopping [.byte 1, .eof]).available [1]).length < (11#7).toNat ∧ (11#7).toNat ≤ Width.w16.bits := by decide

/-- An instruction that ends its command. -/
theorem witness_PendingOutputWaitsForTheHost_response :
    ∃ t r, (start 0 0 []).rspReady.take = some .always ∧ exec .clear (start 0 0 []) = .next t ∧
      t.position = some .command ∧ t.trace.getLast? = some (.response r) := ⟨_, _, rfl, rfl, rfl, rfl⟩

/-- An instruction, and a command that waits and goes on. -/
theorem witness_InstructionReadsAreBounded : (CursorInv (start 0xC0 2 [.byte 1]) ∧
      ∃ t, exec (.xbits32 10) (start 0xC0 2 [.byte 1]) = .next t) ∧
    ControlInv (reading [.byte 1]) ∧ (reading [.byte 1]).rst = false ∧ (reading [.byte 1]).late = false ∧
      (reading [.byte 1]).work ≠ .boundary ∧ ∃ t, step (reading [.byte 1]) = .next t :=
  ⟨⟨by decide, _, rfl⟩, by decide, rfl, rfl, by decide, _, rfl⟩

/-- At a command position: S and every scratch register differ. -/
theorem witness_HiddenStateIsUnobservable :
    Alike commandStart { commandStart with started := false, acc := 5, nacc := 1, fi := 2, nf := 3, sc := 1, bc := 9 } ∧
    ∃ t, step commandStart = .next t :=
  ⟨⟨rfl, fun h => by cases h⟩, _, rfl⟩

theorem witness_InstructionEndsWhenDutiesAreMet :
    (start 0xC0 2 [.byte 1]).position ≠ none ∧ CursorInv (start 0xC0 2 [.byte 1]) ∧ dutiesMet (start 0xC0 2 [.byte 1]) = true ∧
    readBound (start 0xC0 2 [.byte 1]).v.toNat (.xbits32 10) ≤ (start 0xC0 2 [.byte 1]).src.length ∧
    ((start 0xC0 2 [.byte 1]).position = some .descriptor →
      (start 0xC0 2 [.byte 1]).wordsAfter ≤ (start 0xC0 2 [.byte 1]).cmd.length) ∧
    ((fieldStopping [.byte 1]).position = some .descriptor →
      (fieldStopping [.byte 1]).wordsAfter ≤ (fieldStopping [.byte 1]).cmd.length) := by decide

theorem witness_WaitingCommandEndsWhenDutiesAreMet :
    ControlInv (reading [.byte 1, .err 2, .eof]) ∧ (reading [.byte 1, .err 2, .eof]).work ≠ .boundary ∧
    dutiesMet (reading [.byte 1, .err 2, .eof]) = true := by decide

/-- An instruction that ends and one that has to wait; and a command that goes on, ends, or has to wait again. -/
theorem witness_WaitingCommandEndsWhenDutiesAreMet_resumed :
    (∃ t, exec (.xbits8 8) (start 0xE0 3 [.byte 0x5A]) = .next t ∧ t.work = .boundary) ∧
    (∃ t, exec (.xbits16 16) (start 0xA0 3 [.byte 0x12]) = .next t ∧ t.work ≠ .boundary) ∧
    (reading [.eof]).rst = false ∧ (reading [.eof]).late = false ∧ (reading [.eof]).work ≠ .boundary ∧
    (∃ t, step (reading [.eof]) = .next t ∧ t.work = .boundary) ∧
    ∃ t, step (reading [.byte 1]) = .next t ∧ t.work ≠ .boundary :=
  ⟨⟨_, rfl, rfl⟩, ⟨_, rfl, by decide⟩, rfl, rfl, by decide, ⟨_, rfl, rfl⟩, _, rfl, by decide⟩

/-- V-X16-4, its second byte answered only later. -/
theorem test_xbits16_resumed :
    seen (match exec (.xbits16 16) (start 0xA0 3 [.byte 0x12]) with
      | .next t => step (t.answer (.byte 0x34))
      | o => o) =
    some ([.read (.byte 0x12), .read (.byte 0x34), .response { status := .ok, value := 0xA246, nvalid := 16 }],
      0x80, 3) := by decide

theorem witness_AssembledLinesDecode :
    (∀ raw, AsmLine.pad 12 ≠ .word raw) ∧ (AsmLine.pad 12).encodeLine = some 0xD000090C :=
  ⟨fun _ h => by (cases h), by decide⟩

/-- R78 at its boundary sizes. -/
theorem test_xbitsAuto_boundaries : [0, 8, 9, 16, 17, 32, 33, 64, 65].map (fun n => (AsmLine.xbitsAuto n).encodeLine) =
    [none, some 0x10000008, some 0x11000009, some 0x11000010, some 0x12000011, some 0x12000020, some 0x13000021,
      some 0x13000040, none] := by decide

/-- R78 at its boundary capacities. -/
theorem test_pad_boundaries : [0, 8, 9, 16, 17, 32, 33, 64, 65].map (fun n => (AsmLine.pad n).encodeLine) =
    [none, some 0xD0000808, some 0xD0000909, some 0xD0000910, some 0xD0000A11, some 0xD0000A20, some 0xD0000B21,
      some 0xD0000B40, none] := by decide

/-- R77: the greatest operand that fits, and the least that does not. -/
theorem test_assembler_refusals : (AsmLine.xbits .w8 127).encodeLine = some 0x1000007F ∧
    (AsmLine.xbits .w8 128).encodeLine = none ∧ (AsmLine.field 7 127 true).encodeLine = some 0xD0000F7F ∧
    (AsmLine.field 7 128 true).encodeLine = none ∧ (AsmLine.xbytes 16777216).encodeLine = none ∧
    (AsmLine.populate 65536).encodeLine = none := by decide

theorem witness_AssemblerPlacesFieldLines :
    assemble (.populate 1 :: [.pad 3, .clear]) = some [0x30000001, 0xD0000803, 0x40000000] ∧
    assemble (.populate 0 :: []) = some [0x30000000] ∧ (AsmLine.pad 3).isField = true ∧
    AsmLine.clear.isField = false ∧ (∀ l ∈ [AsmLine.pad 3, .skipLine 1 9], l.isField = true) ∧
    [AsmLine.pad 3, .skipLine 1 9].length < 65536 ∧
    [AsmLine.pad 3, .skipLine 1 9].map AsmLine.encodeLine = [0xD0000803#32, 0xD0000909].map some := by decide

theorem witness_AssemblerPlacesFieldLines_command : ∀ n, AsmLine.clear ≠ .populate n := fun _ h => by cases h

/-- R77: a field line, or a populate with too few or too many of them, is refused after a command too. -/
theorem test_assembler_places : assemble [.clear, .field 0 1 false] = none ∧
    assemble [.clear, .populate 2, .field 0 1 false] = none ∧
    assemble [.clear, .populate 1, .field 0 1 false, .field 0 1 false] = none ∧
    assemble [.clear, .populate 1, .field 0 1 false, .xbyte] =
      some [0x40000000, 0x30000001, 0xD0000001, 0x10000008] := by decide

end Sys2Proof.Tests
end

section
/-!
PROOFS. The state after reset (spec/10_state.md R30, spec/70_reset_and_hazards.md R161).
-/

namespace Sys2Proof.Machine

/-- R161: reset leaves no command in progress. -/
@[simp] theorem State.reset_position : State.reset.position = some .command :=
  position_eq_command.mpr ⟨rfl, rfl⟩

/-- Settles O1: each register is read off the definition of `State.reset`, and the position from its work and MODE. -/
theorem resetGivesStatedValues : Obligations.ResetGivesStatedValues :=
  ⟨rfl, rfl, rfl, rfl, rfl, rfl, rfl, rfl, rfl, rfl, State.reset_position⟩

end Sys2Proof.Machine
end

section
/-!
PROOFS. The words of the encoding: an output beat's layout (spec/30_encoding.md R76), and what an illegal word does at
a command position and at a descriptor position (R71, R72).
-/

namespace Sys2Proof.Machine

/-! ### The beat word -/

/-- The 96-bit word of R76 with TAG, KIND, INDEX and DATA given. -/
def beatWord (tag : BitVec 1) (kind : BitVec 2) (index : Count) (data : Value) : BitVec 96 :=
  0#5 ++ tag ++ kind ++ index ++ data

theorem Beat.pack_byte (i : Count) (b : Byte) : (Beat.byte i b).pack = beatWord 0 0 i (b.setWidth 64) := rfl

theorem Beat.pack_slot (j : FieldIndex) (k : Width) (v : Value) :
    (Beat.slot j k v).pack = beatWord 1 k.kindCode (j.setWidth 24) v := rfl

section
variable (tag : BitVec 1) (kind : BitVec 2) (index : Count) (data : Value)

/-- Bits below 64 are bits of DATA. -/
theorem beatWord_extract_data {start len : Nat} (h : start + len ≤ 64) :
    (beatWord tag kind index data).extractLsb' start len = data.extractLsb' start len :=
  BitVec.extractLsb'_append_eq_of_add_le h

theorem beatWord_index : (beatWord tag kind index data).extractLsb' 64 24 = index :=
  (BitVec.extractLsb'_append_eq_of_le (Nat.le_refl 64)).trans BitVec.extractLsb'_append_eq_right

/-- Bits from 88 on are those of TAG and KIND below five zeros. -/
theorem beatWord_extract_top {start : Nat} (len : Nat) (h : 88 ≤ start) :
    (beatWord tag kind index data).extractLsb' start len = (0#5 ++ tag ++ kind).extractLsb' (start - 64 - 24) len :=
  (BitVec.extractLsb'_append_eq_of_le (by omega)).trans (BitVec.extractLsb'_append_eq_of_le (by omega))

theorem beatWord_kind : (beatWord tag kind index data).extractLsb' 88 2 = kind :=
  (beatWord_extract_top tag kind index data 2 (by omega)).trans BitVec.extractLsb'_append_eq_right

theorem beatWord_zeros : (beatWord tag kind index data).extractLsb' 91 5 = 0 := by
  rw [beatWord_extract_top tag kind index data 5 (by omega), BitVec.extractLsb'_append_eq_of_le (by omega)]
  exact BitVec.extractLsb'_append_eq_left

theorem beatWord_tag : (beatWord tag kind index data).getLsbD 90 = tag.getLsbD 0 := by
  simp only [beatWord, BitVec.getLsbD_append, Nat.reduceLT, Nat.reduceSub, if_true, if_false]

end

/-- Settles O57: both beats are `beatWord`s, whose fields are read off one by one; a byte leaves bits [63:8] of its
DATA zero. -/
theorem beatLayout : Obligations.BeatLayout := by
  refine ⟨fun i b => ?_, fun j k v => ?_⟩
  · rw [Beat.pack_byte]
    have hlow : (b.setWidth 64).extractLsb' 0 8 = b := by
      rw [BitVec.extractLsb'_setWidth_of_le (by omega), BitVec.extractLsb'_eq_self]
    have hhigh : (b.setWidth 64).extractLsb' 8 56 = 0 := by
      rw [BitVec.setWidth_eq_append (show 8 ≤ 64 by omega)]
      exact BitVec.extractLsb'_append_eq_left
    exact ⟨(beatWord_extract_data _ _ _ _ (by omega)).trans hlow,
      (beatWord_extract_data _ _ _ _ (by omega)).trans hhigh,
      beatWord_index _ _ _ _, beatWord_kind _ _ _ _, beatWord_tag _ _ _ _, beatWord_zeros _ _ _ _⟩
  · rw [Beat.pack_slot]
    exact ⟨(beatWord_extract_data _ _ _ _ (by omega)).trans BitVec.extractLsb'_eq_self, beatWord_index _ _ _ _,
      beatWord_kind _ _ _ _, beatWord_tag _ _ _ _, beatWord_zeros _ _ _ _⟩

/-! ### What the decoder has checked of a word it accepts -/

/-- The slice `w[hi:lo]` is the bit field the decoder extracts. -/
theorem bitField_eq_extract (w : Word) (hi lo : Nat) : bitField w hi lo = (w.extractLsb' lo (hi - lo + 1)).toNat := by
  rw [bitField, BitVec.extractLsb'_toNat, Nat.shiftRight_eq_div_pow]

theorem bitField_opField (w : Word) : bitField w 31 28 = (opField w).toNat := bitField_eq_extract w 31 28

/-- A field that holds zero is a zero slice. -/
theorem bitField_eq_zero {w : Word} {hi lo : Nat} (h : w.extractLsb' lo (hi - lo + 1) = 0) : bitField w hi lo = 0 := by
  rw [bitField_eq_extract, h]; rfl

/-- Everything an accepted OP = 0x1 word can be (R63, R64). -/
theorem decodeXbits_eq_ok {w : Word} {i : Instr} (h : decodeXbits w = .ok i) :
    bitField w 27 26 = 0 ∧ bitField w 23 7 = 0 ∧ ∃ k, i = .xbits k (sizeField w) := by
  unfold decodeXbits at h
  split at h
  · rename_i hz
    obtain ⟨hmid, hlow⟩ := hz
    refine ⟨bitField_eq_zero hmid, bitField_eq_zero hlow, ?_⟩
    split_ifs at h <;> cases h
    exacts [⟨.w8, rfl⟩, ⟨.w16, rfl⟩, ⟨.w32, rfl⟩, ⟨.w64, rfl⟩]
  · cases h

theorem decodeXbytes_eq_ok {w : Word} {i : Instr} (h : decodeXbytes w = .ok i) :
    bitField w 27 24 = 0 ∧ i = .xbytes (countField w) := by
  unfold decodeXbytes at h
  split at h <;> cases h
  exact ⟨bitField_eq_zero ‹_›, rfl⟩

theorem decodePopulate_eq_ok {w : Word} {i : Instr} (h : decodePopulate w = .ok i) :
    bitField w 27 16 = 0 ∧ i = .populate (nfieldsField w) := by
  unfold decodePopulate at h
  split at h <;> cases h
  exact ⟨bitField_eq_zero ‹_›, rfl⟩

theorem decodeClear_eq_ok {w : Word} {i : Instr} (h : decodeClear w = .ok i) :
    bitField w 27 0 = 0 ∧ i = .clear := by
  unfold decodeClear at h
  split at h <;> cases h
  exact ⟨bitField_eq_zero ‹_›, rfl⟩

/-- Everything an accepted TAG = 0xD word can be (R69, R70). -/
theorem decodeField_eq_ok {w : Word} {i : Instr} (h : decodeField w = .ok i) :
    bitField w 27 12 = 0 ∧ bitField w 7 7 = 0 ∧ isDescriptor i = true := by
  unfold decodeField at h
  split at h
  · rename_i hz
    obtain ⟨hmid, hbit⟩ := hz
    have h7 : w.extractLsb' 7 (7 - 7 + 1) = 0 := by
      rw [BitVec.eq_of_getLsbD_eq_iff]
      intro k hk
      obtain rfl : k = 0 := by omega
      simpa using hbit
    refine ⟨bitField_eq_zero hmid, bitField_eq_zero h7, ?_⟩
    split_ifs at h <;> cases h <;> rfl
  · cases h

@[simp] theorem isDescriptor_xbits (k : Width) (n : Size) : isDescriptor (.xbits k n) = false := by
  cases k <;> rfl

/-- Everything an accepted word can be: a command that R71 does not list, or a descriptor that R72 does not list. -/
theorem decode_eq_ok {w : Word} {i : Instr} (h : decode w = .ok i) :
    isDescriptor i = false ∧ illegalCommandWord w = false ∨
      isDescriptor i = true ∧ illegalDescriptorWord w = false := by
  unfold decode at h
  split_ifs at h with hop hop hop hop hop
  · obtain ⟨hmid, hlow, k, rfl⟩ := decodeXbits_eq_ok h
    exact .inl ⟨isDescriptor_xbits _ _, by simp [illegalCommandWord, bitField_opField, hop, hmid, hlow]⟩
  · obtain ⟨hz, rfl⟩ := decodeXbytes_eq_ok h
    exact .inl ⟨rfl, by simp [illegalCommandWord, bitField_opField, hop, hz]⟩
  · obtain ⟨hz, rfl⟩ := decodePopulate_eq_ok h
    exact .inl ⟨rfl, by simp [illegalCommandWord, bitField_opField, hop, hz]⟩
  · obtain ⟨hz, rfl⟩ := decodeClear_eq_ok h
    exact .inl ⟨rfl, by simp [illegalCommandWord, bitField_opField, hop, hz]⟩
  · obtain ⟨hmid, hbit, hd⟩ := decodeField_eq_ok h
    exact .inr ⟨hd, by simp [illegalDescriptorWord, bitField_opField, hop, hmid, hbit]⟩

/-- Of the words listed by R71, those that decode are descriptors. -/
theorem isDescriptor_of_illegalCommandWord {w : Word} {i : Instr} (hw : illegalCommandWord w = true)
    (h : decode w = .ok i) : isDescriptor i = true := by
  rcases decode_eq_ok h with ⟨-, hl⟩ | ⟨hd, -⟩
  · exact absurd hw (by simp [hl])
  · exact hd

/-- Of the words listed by R72, those that decode are commands. -/
theorem not_isDescriptor_of_illegalDescriptorWord {w : Word} {i : Instr} (hw : illegalDescriptorWord w = true)
    (h : decode w = .ok i) : isDescriptor i = false := by
  rcases decode_eq_ok h with ⟨hd, -⟩ | ⟨-, hl⟩
  · exact hd
  · exact absurd hw (by simp [hl])

/-! ### A word at the wrong position -/

theorem atCommand_of_descriptor {s : State} (h : s.position = some .descriptor) (run : State → State) :
    atCommand s run = .next (illegalDescriptor s) := by
  simp [atCommand, h]

theorem atDescriptor_of_command {s : State} (h : s.position = some .command) (run : State → State) :
    atDescriptor s run = .next (illegalCommand s) := by
  simp [atDescriptor, h]

theorem illegalWord_of_command {s : State} (h : s.position = some .command) :
    illegalWord s = .next (illegalCommand s) := by
  simp [illegalWord, h]

theorem illegalWord_of_descriptor {s : State} (h : s.position = some .descriptor) :
    illegalWord s = .next (illegalDescriptor s) := by
  simp [illegalWord, h]

/-- A descriptor at a command position is an illegal command word (R60, R71). -/
theorem exec_descriptor_of_command {i : Instr} {s : State} (hi : isDescriptor i = true)
    (h : s.position = some .command) : exec i s = .next (illegalCommand s) := by
  cases i with
  | fieldU8 | fieldU16 | fieldU32 | fieldU64 | fieldKbad => exact atDescriptor_of_command h _
  | xbits8 | xbits16 | xbits32 | xbits64 | xbytes | populate | clear => cases hi

/-- A command at a descriptor position is an illegal descriptor (R60, R72). -/
theorem exec_command_of_descriptor {i : Instr} {s : State} (hi : isDescriptor i = false)
    (h : s.position = some .descriptor) : exec i s = .next (illegalDescriptor s) := by
  cases i with
  | xbits8 | xbits16 | xbits32 | xbits64 => exact atCommand_of_descriptor h _
  | xbytes n => exact atCommand_of_descriptor h fun s => bytesRun n ((s.setMode .xbytes).setBc 0)
  | populate n => exact atCommand_of_descriptor h fun s => popNext ((((s.setMode .pop).setNf n).setFi 0).setSc 0)
  | clear => exact atCommand_of_descriptor h fun s => respond okResponse ((s.setCursor 0 0).setStarted false)
  | fieldU8 | fieldU16 | fieldU32 | fieldU64 | fieldKbad => cases hi

/-! ### The step on a word -/

theorem fetch_command {s : State} {w : Word} {rest : List Word} (h : s.cmd = w :: rest) :
    fetch .command s = some (w, (s.setCmd rest).log (.command w)) := by
  simp [fetch, h]

theorem fetch_descriptor {s : State} {w : Word} {rest : List Word} (h : s.cmd = w :: rest) :
    fetch .descriptor s = some (w, s.setCmd rest) := by
  simp [fetch, h]

/-- A step at a word that decodes runs its instruction. -/
theorem step_of_decode_ok {s t : State} {p : Position} {w : Word} {i : Instr} (hr : s.rst = false)
    (hp : s.position = some p) (hf : fetch p (dropLate s) = some (w, t)) (hd : decode w = .ok i) :
    step s = exec i t := by
  simp [step, hr, hp, hf, hd]

/-- A step at a word that does not decode reports it. -/
theorem step_of_decode_error {s t : State} {p : Position} {w : Word} {e : DecodeError} (hr : s.rst = false)
    (hp : s.position = some p) (hf : fetch p (dropLate s) = some (w, t)) (hd : decode w = .error e) :
    step s = illegalWord t := by
  simp [step, hr, hp, hf, hd]

/-- A step at a word listed by R71 accepts it and reports it, whether or not it decodes. -/
theorem step_illegalCommandWord {s : State} {c : Word} {rest : List Word} (hr : s.rst = false) (hl : s.late = false)
    (hp : s.position = some .command) (hc : s.cmd = c :: rest) (hw : illegalCommandWord c = true) :
    step s = .next (illegalCommand ((s.setCmd rest).log (.command c))) := by
  have hf : fetch .command (dropLate s) = some (c, (s.setCmd rest).log (.command c)) := by
    rw [dropLate_of_not_late hl]; exact fetch_command hc
  have hp' : ((s.setCmd rest).log (.command c)).position = some .command := hp
  cases hd : decode c with
  | ok i =>
    rw [step_of_decode_ok hr hp hf hd]
    exact exec_descriptor_of_command (isDescriptor_of_illegalCommandWord hw hd) hp'
  | error e =>
    rw [step_of_decode_error hr hp hf hd]
    exact illegalWord_of_command hp'

/-- A step at a word listed by R72 consumes it and stops the POPULATE, whether or not it decodes. -/
theorem step_illegalDescriptorWord {s : State} {d : Word} {rest : List Word} (hr : s.rst = false)
    (hl : s.late = false) (hp : s.position = some .descriptor) (hc : s.cmd = d :: rest)
    (hw : illegalDescriptorWord d = true) : step s = .next (illegalDescriptor (s.setCmd rest)) := by
  have hf : fetch .descriptor (dropLate s) = some (d, s.setCmd rest) := by
    rw [dropLate_of_not_late hl]; exact fetch_descriptor hc
  have hp' : (s.setCmd rest).position = some .descriptor := hp
  cases hd : decode d with
  | ok i =>
    rw [step_of_decode_ok hr hp hf hd]
    exact exec_command_of_descriptor (not_isDescriptor_of_illegalDescriptorWord hw hd) hp'
  | error e =>
    rw [step_of_decode_error hr hp hf hd]
    exact illegalWord_of_descriptor hp'

/-- Settles O11: the step reports the word, and the response, once taken, leaves MODE IDLE and the boundary, where the
core was. -/
theorem illegalCommandWordOnlyResponds : Obligations.IllegalCommandWordOnlyResponds := by
  intro s c rest q hr hl hp hc hw hq
  obtain ⟨hwork, hmode⟩ := position_eq_command.mp hp
  have hq' : ((s.setCmd rest).log (.command c)).rspReady.take = some q := hq
  rw [step_illegalCommandWord hr hl hp hc hw, illegalCommand, respond_of_take hq']
  congr 1
  apply State.ext <;> simp [hwork, hmode, illegalResponse]

/-- Settles O12: the step stops the POPULATE at FI, and the words of the later descriptors are there to be consumed. -/
theorem illegalDescriptorStopsPopulate : Obligations.IllegalDescriptorStopsPopulate := by
  intro s d skipped rest q hr hl hp hc hw hn hq
  obtain ⟨hwork, -, -⟩ := position_eq_descriptor.mp hp
  have hstop := popStop_of_words (st := .illegalCommand) (n := 0) (e := 0) (s := s.setCmd (skipped ++ rest)) rfl hn hq
  rw [step_illegalDescriptorWord hr hl hp hc hw, illegalDescriptor, hstop]
  congr 1
  apply State.ext <;> simp [hwork, populateResponse]

end Sys2Proof.Machine
end

section
/-!
PROOFS. The cursor: P8 on the registers L, V and S (spec/40_cursor.md R90 to R93), the size check of XBITS (R95), and
CLEAR (R101).
-/

namespace Sys2Proof.Machine

/-! ### P8 on the registers, from any state -/

theorem p8_of_le {n : Nat} {s : State} (h : n ≤ s.v.toNat) : p8 n s = p8Serve n s := if_pos h

/-- What P8(n) does with the answer to its one read (R91 to R93). -/
def p8Answer (n : Nat) : Answer → State → P8Result × State
  | .byte b => p8Byte n b
  | .eof => p8Eof n
  | .err e => p8Err e

/-- P8 above V, when its read is answered: the answer alone decides which of R91 to R93 applies. -/
theorem p8_of_answer {n : Nat} {s : State} {a : Answer} {rest : List Answer} (hn : s.v.toNat < n)
    (hl : s.late = false) (hs : s.src = a :: rest) :
    p8 n s = p8Answer n a ((s.setSrc rest).log (.read a)) := by
  rw [p8, if_neg (Nat.not_le.mpr hn), srcRead_of_cons hl hs]
  cases a <;> rfl

/-- Settles O13: P8 takes the serve path, which makes no read. -/
theorem p8ServesFromLeftover : Obligations.P8ServesFromLeftover :=
  fun _ _ _ _ hn => p8_of_le hn

/-- Settles O14: the read is answered with a byte, and the join and the new leftover bits are those of R91. -/
theorem p8PullsOneByte : Obligations.P8PullsOneByte :=
  fun _ _ _ _ _ hn hl hs => p8_of_answer hn hl hs

/-- Settles O15: the read is answered with Eof, and `nvalid` is V widened to the 7 bits of NVALID. -/
theorem p8EmptiesCursorAtEof : Obligations.P8EmptiesCursorAtEof := by
  intro n s rest _ hn hl hs
  rw [p8_of_answer hn hl hs, BitVec.ofNat_toNat]
  rfl

/-- Settles O16: the read is answered with an error, which P8 passes on. -/
theorem p8EmptiesCursorOnSourceError : Obligations.P8EmptiesCursorOnSourceError :=
  fun _ _ _ _ _ hn hl hs => p8_of_answer hn hl hs

/-! ### Commands that only respond -/

/-- A response that the host takes is the last thing its command does: MODE is IDLE and the core at the boundary, and
nothing else has changed but the host's readiness and the trace (R149). -/
theorem respond_eq_of_take {r : Response} {s : State} {q : Ready} (h : s.rspReady.take = some q) :
    respond r s =
      { s with mode := .idle, work := .boundary, rspReady := q, trace := s.trace ++ [.response r] } :=
  respond_of_take h

/-- Settles O18: the size check refuses the request before XW starts, so that MODE alone is written before the
response, which sets it back to IDLE. -/
theorem sizeOverflowBeforeAnyRead : Obligations.SizeOverflowBeforeAnyRead := by
  intro w size s q hp hq hsize
  obtain ⟨hwork, hmode⟩ := position_eq_command.mp hp
  have hbad : sizeBad w size = true := sizeBad_eq_true.mpr hsize
  have hrun : xbits w size s = respond sizeOverflowResponse (s.setMode .xbits) := by
    rcases xbits_cases w size s with ⟨-, h⟩ | ⟨hok, -⟩
    · exact h
    · exact absurd hbad (by simp [hok])
  have hq' : (s.setMode .xbits).rspReady.take = some q := hq
  rw [exec_xbits hp, hrun, respond_eq_of_take hq']
  congr 1
  apply State.ext <;> simp [hwork, hmode, sizeOverflowResponse]

/-- Settles O31: CLEAR writes L, V and S and responds OK, from a command position and back to one. -/
theorem clearEmptiesTheCursor : Obligations.ClearEmptiesTheCursor := by
  refine ⟨rfl, fun s q hp hq => ?_⟩
  obtain ⟨hwork, hmode⟩ := position_eq_command.mp hp
  have hq' : ((s.setCursor 0 0).setStarted false).rspReady.take = some q := hq
  rw [exec_clear hp, respond_eq_of_take hq']
  congr 1
  apply State.ext <;> simp [hwork, hmode, okResponse]

end Sys2Proof.Machine
end

section
/-!
PROOFS. The sequencer's special descriptors: skip fields (spec/41_sequencer.md R127) and unsupported kinds (R126).
-/

namespace Sys2Proof.Machine

/-! ### What emits no slot -/

/-- From `s` to `t` no beat is logged and SC stays: no slot is emitted, taken or not (R127, R128). -/
structure SlotFree (s t : State) : Prop where
  sc : t.sc = s.sc
  beats : t.trace.filter Event.isBeat = s.trace.filter Event.isBeat

theorem SlotFree.trans {s t u : State} (h : SlotFree s t) (k : SlotFree t u) : SlotFree s u :=
  ⟨k.sc.trans h.sc, k.beats.trans h.beats⟩

/-- Reading emits no slot. -/
theorem ReadFrame.slotFree {s t : State} (h : ReadFrame s t) : SlotFree s t := by
  obtain ⟨as, -, htrace⟩ := h.reads
  have hnone : (as.map Event.read).filter Event.isBeat = [] := by simp [Event.isBeat]
  exact ⟨h.sc, by rw [htrace, List.filter_append, hnone, List.append_nil]⟩

theorem setCmd_slotFree (ws : List Word) (s : State) : SlotFree s (s.setCmd ws) := ⟨rfl, rfl⟩

theorem setFi_slotFree (fi : FieldIndex) (s : State) : SlotFree s (s.setFi fi) := ⟨rfl, rfl⟩

theorem setWork_slotFree (w : Work) (s : State) : SlotFree s (s.setWork w) := ⟨rfl, rfl⟩

theorem respond_slotFree (r : Response) (s : State) : SlotFree s (respond r s) := by
  rcases respond_cases r s with ⟨q, -, h⟩ | ⟨-, h⟩ <;> rw [h]
  · exact ⟨rfl, by simp [Event.isBeat]⟩
  · exact setWork_slotFree _ s

theorem drain_slotFree (left : Nat) (r : Response) (s : State) : SlotFree s (drain left r s) := by
  rcases drain_cases left r s with ⟨-, h⟩ | ⟨-, h⟩ <;> rw [h]
  · exact (setCmd_slotFree _ s).trans (respond_slotFree r _)
  · exact (setCmd_slotFree _ s).trans (setWork_slotFree _ _)

theorem popStop_slotFree (st : Status) (n : Size) (e : SrcErr) (s : State) : SlotFree s (popStop st n e s) :=
  drain_slotFree _ _ s

theorem popNext_slotFree (s : State) : SlotFree s (popNext s) := by
  rcases popNext_cases s with ⟨-, h⟩ | ⟨-, h⟩ <;> rw [h]
  · exact setWork_slotFree _ s
  · exact respond_slotFree _ s

theorem fieldEnd_slotFree (stop : Option Size) (s : State) : SlotFree s (fieldEnd stop s) := by
  cases stop with
  | none => exact (setFi_slotFree _ s).trans (popNext_slotFree _)
  | some n => exact popStop_slotFree _ _ _ s

/-- The end of a skip field emits no slot, whatever its extraction returned (R127). -/
theorem extractEnd_skip_slotFree (k : Width) (size : Size) (r : XwResult) (s : State) :
    SlotFree s (extractEnd (.field k true) size r s) := by
  cases r with
  | ok value => exact fieldEnd_slotFree none s
  | exhausted value nvalid => exact fieldEnd_slotFree (some nvalid) s
  | sourceError e => exact popStop_slotFree _ _ _ s
  | wait cs => exact setWork_slotFree _ s

/-! ### A skip field and a data field read alike -/

/-- What ends or suspends an instruction logs no read. -/
theorem TailFrame.filter_isRead {s t : State} (h : TailFrame s t) :
    t.trace.filter Event.isRead = s.trace.filter Event.isRead := by
  obtain ⟨es, htrace, hes⟩ := h.trace
  have hnone : es.filter Event.isRead = [] := by
    refine List.filter_eq_nil_iff.mpr fun e he => ?_
    have hkind := hes e he
    cases e with
    | read a => simp [Event.isBeat, Event.isResponse] at hkind
    | command | beat | response => simp [Event.isRead]
  rw [htrace, List.filter_append, hnone, List.append_nil]

theorem setAccum_reads (acc : Value) (nacc : Size) (s : State) : ReadFrame s (s.setAccum acc nacc) :=
  ⟨rfl, rfl, rfl, rfl, rfl, rfl, rfl, rfl, rfl, rfl, rfl, [], rfl, by simp⟩

/-- FIELDSTEP reaches, by reads alone, a state that does not depend on the skip flag, and reads no more after it: a skip
field differs from a data field only in how it ends, and it ends without a slot. -/
theorem fieldStep_through_common_reads (k : Width) (w : Size) (s : State) :
    ∃ x, ReadFrame s x ∧ (∀ skip, TailFrame x (fieldStep k skip w s)) ∧ SlotFree x (fieldStep k true w s) := by
  cases hbad : sizeBad k w with
  | true =>
    have hstop : ∀ skip, fieldStep k skip w s = popStop .sizeOverflow 0 0 s := fun _ => if_pos hbad
    refine ⟨s, ReadFrame.refl s, fun skip => ?_, ?_⟩ <;> rw [hstop]
    · exact popStop_tail _ _ _ s
    · exact popStop_slotFree _ _ _ s
  | false =>
    have hrun : ∀ skip, fieldStep k skip w s = extractStart k (.field k skip) w s := fun _ =>
      if_neg (by simp [hbad])
    refine ⟨(xwLoop (chunks k w.toNat) (s.setAccum 0 0)).2, (setAccum_reads 0 0 s).trans (xwLoop_reads _ _),
      fun skip => ?_, ?_⟩ <;> rw [hrun]
    · exact extractEnd_tail _ _ _ _
    · exact extractEnd_skip_slotFree _ _ _ _

/-- Settles O40: the reads of both forms lead to one state, whose cursor, source and reads both keep to their ends. No
slot is emitted on the way to it, nor by the skip form after it. -/
theorem skipFieldConsumesAlike : Obligations.SkipFieldConsumesAlike := by
  intro k w s hp
  obtain ⟨x, hreads, htail, hskip⟩ := fieldStep_through_common_reads k w s
  have ht := htail true
  have hu := htail false
  have hfree := hreads.slotFree.trans hskip
  exact ⟨_, _, exec_field hp, exec_field hp, ht.l.trans hu.l.symm, ht.v.trans hu.v.symm,
    ht.started.trans hu.started.symm, ht.src.trans hu.src.symm, ht.filter_isRead.trans hu.filter_isRead.symm,
    hfree.beats, hfree.sc⟩

/-! ### An unsupported kind -/

/-- Appending is positional: the left operand counts in units of the right one's range. -/
theorem toNat_append_eq_add {m n : Nat} (x : BitVec m) (y : BitVec n) :
    (x ++ y).toNat = x.toNat * 2 ^ n + y.toNat := by
  rw [BitVec.toNat_append, ← Nat.shiftLeft_add_eq_or_of_lt y.isLt, Nat.shiftLeft_eq]

/-- A descriptor word as the sum of its fields at their bits (R69). -/
theorem encodeField_toNat (kind : BitVec 3) (skip : Bool) (w : Size) :
    (encodeField kind skip w).toNat = 0xD0000000 + skip.toNat * 2 ^ 11 + kind.toNat * 2 ^ 8 + w.toNat := by
  simp only [encodeField, toNat_append_eq_add, BitVec.toNat_ofNat, BitVec.toNat_ofBool]
  omega

/-- Settles O39: the word is `encodeField`'s sum with 4 taken out of KIND, and the descriptor stops the POPULATE at FI,
with the words of the later descriptors there to be consumed. -/
theorem unsupportedKindStopsPopulate : Obligations.UnsupportedKindStopsPopulate := by
  refine ⟨fun kind skip w hkind => ?_, fun kind skip w s skipped words q hp hq hc hn => ?_⟩
  · have hword : encode (.fieldKbad kind skip w) = encodeField kind skip w := rfl
    rw [hword, encodeField_toNat]
    omega
  · obtain ⟨hwork, -, -⟩ := position_eq_descriptor.mp hp
    rw [exec_fieldKbad hp, popStop_of_words hc hn hq]
    congr 1
    apply State.ext <;> simp [hwork, populateResponse]

end Sys2Proof.Machine
end

section
/-!
PROOFS. The words of the instructions as numbers, the round trips of decoder and encoder (spec/30_encoding.md R61 to
R70), the opcode map (R80), and the words that are legal at each position (R71 to R73).
-/

namespace Sys2Proof.Machine

/-! ### The word of each instruction as a sum of its fields -/

theorem encode_xbits_toNat (k : Width) (n : Size) :
    (encode (.xbits k n)).toNat = 0x10000000 + k.code * 2 ^ 24 + n.toNat := by
  cases k <;>
    simp only [Instr.xbits, encode, toNat_append_eq_add, BitVec.toNat_ofNat, Width.code] <;> omega

theorem encode_xbytes_toNat (n : Count) : (encode (.xbytes n)).toNat = 0x20000000 + n.toNat := by
  simp only [encode, toNat_append_eq_add, BitVec.toNat_ofNat]; omega

theorem encode_populate_toNat (n : FieldIndex) : (encode (.populate n)).toNat = 0x30000000 + n.toNat := by
  simp only [encode, toNat_append_eq_add, BitVec.toNat_ofNat]; omega

theorem encode_clear_toNat : (encode .clear).toNat = 0x40000000 := rfl

theorem encode_field (k : Width) (skip : Bool) (w : Size) :
    encode (.field k skip w) = encodeField (BitVec.ofNat 3 k.code) skip w := by
  cases k <;> rfl

/-! ### What the decoder makes of a word, by its slices -/

theorem extract_eq_of_bitField {w : Word} {lo len x : Nat} (hi : Nat) (hlen : hi - lo + 1 = len)
    (h : bitField w hi lo = x) : w.extractLsb' lo len = BitVec.ofNat len x := by
  subst hlen
  rw [← h, bitField_eq_extract, BitVec.ofNat_toNat, BitVec.setWidth_eq]

theorem opField_eq_of_bitField {w : Word} {x : Nat} (h : bitField w 31 28 = x) : opField w = BitVec.ofNat 4 x :=
  extract_eq_of_bitField 31 rfl h

/-- Every width code selects a width (R64). -/
theorem exists_width_code (w : Word) : ∃ k : Width, bitField w 25 24 = k.code := by
  have hlt : bitField w 25 24 < 4 := Nat.mod_lt _ (by decide)
  interval_cases bitField w 25 24
  exacts [⟨.w8, rfl⟩, ⟨.w16, rfl⟩, ⟨.w32, rfl⟩, ⟨.w64, rfl⟩]

/-- An OP = 0x1 word whose RES0 bits are clear decodes to the XBITS that WC selects (R63, R64). -/
theorem decode_of_op1 {w : Word} (k : Width) (hop : bitField w 31 28 = 1) (hmid : bitField w 27 26 = 0)
    (hwc : bitField w 25 24 = k.code) (hlow : bitField w 23 7 = 0) : decode w = .ok (.xbits k (sizeField w)) := by
  have hres : w.extractLsb' 26 2 = 0#2 ∧ w.extractLsb' 7 17 = 0#17 :=
    ⟨extract_eq_of_bitField 27 rfl hmid, extract_eq_of_bitField 23 rfl hlow⟩
  have hcode : wcField w = BitVec.ofNat 2 k.code := extract_eq_of_bitField 25 rfl hwc
  rw [decode, if_pos (opField_eq_of_bitField hop), decodeXbits, if_pos hres, hcode]
  cases k <;> rfl

theorem decode_of_op2 {w : Word} (hop : bitField w 31 28 = 2) (hres : bitField w 27 24 = 0) :
    decode w = .ok (.xbytes (countField w)) := by
  have hres' : w.extractLsb' 24 4 = 0#4 := extract_eq_of_bitField 27 rfl hres
  simp [decode, opField_eq_of_bitField hop, decodeXbytes, hres']

theorem decode_of_op3 {w : Word} (hop : bitField w 31 28 = 3) (hres : bitField w 27 16 = 0) :
    decode w = .ok (.populate (nfieldsField w)) := by
  have hres' : w.extractLsb' 16 12 = 0#12 := extract_eq_of_bitField 27 rfl hres
  simp [decode, opField_eq_of_bitField hop, decodePopulate, hres']

theorem decode_of_op4 {w : Word} (hop : bitField w 31 28 = 4) (hres : bitField w 27 0 = 0) : decode w = .ok .clear := by
  have hres' : w.extractLsb' 0 28 = 0#28 := extract_eq_of_bitField 27 rfl hres
  simp [decode, opField_eq_of_bitField hop, decodeClear, hres']

/-- The instruction of a descriptor with the given KIND field (R70). -/
def fieldInstr (kind : BitVec 3) (skip : Bool) (w : Size) : Instr :=
  if kind = 0#3 then .fieldU8 skip w
  else if kind = 1#3 then .fieldU16 skip w
  else if kind = 2#3 then .fieldU32 skip w
  else if kind = 3#3 then .fieldU64 skip w
  else .fieldKbad kind skip w

/-- Everything `fieldInstr` can be: a field of a supported kind, or one of an unsupported kind. -/
theorem fieldInstr_cases (kind : BitVec 3) (skip : Bool) (w : Size) :
    (∃ k : Width, kind.toNat = k.code ∧ fieldInstr kind skip w = .field k skip w) ∨
      4 ≤ kind.toNat ∧ fieldInstr kind skip w = .fieldKbad kind skip w := by
  unfold fieldInstr
  split_ifs with h0 h1 h2 h3
  · exact .inl ⟨.w8, by rw [h0]; rfl, rfl⟩
  · exact .inl ⟨.w16, by rw [h1]; rfl, rfl⟩
  · exact .inl ⟨.w32, by rw [h2]; rfl, rfl⟩
  · exact .inl ⟨.w64, by rw [h3]; rfl, rfl⟩
  · exact .inr ⟨by bv_omega, rfl⟩

theorem isDescriptor_fieldInstr (kind : BitVec 3) (skip : Bool) (w : Size) :
    isDescriptor (fieldInstr kind skip w) = true := by
  rcases fieldInstr_cases kind skip w with ⟨k, -, h⟩ | ⟨-, h⟩ <;> rw [h]
  · cases k <;> rfl
  · rfl

theorem fieldInstr_wellFormed (kind : BitVec 3) (skip : Bool) (w : Size) : (fieldInstr kind skip w).WellFormed := by
  rcases fieldInstr_cases kind skip w with ⟨k, -, h⟩ | ⟨h4, h⟩ <;> rw [h]
  · cases k <;> rfl
  · exact decide_eq_true h4

theorem encode_fieldInstr (kind : BitVec 3) (skip : Bool) (w : Size) :
    encode (fieldInstr kind skip w) = encodeField kind skip w := by
  rcases fieldInstr_cases kind skip w with ⟨k, hk, h⟩ | ⟨-, h⟩ <;> rw [h]
  · rw [encode_field, ← hk, BitVec.ofNat_toNat, BitVec.setWidth_eq]
  · rfl

/-- An instruction that its KIND field stands for, in the other direction. -/
theorem fieldInstr_field (k : Width) (skip : Bool) (w : Size) :
    fieldInstr (BitVec.ofNat 3 k.code) skip w = .field k skip w := by
  cases k <;> rfl

theorem fieldInstr_kbad {kind : BitVec 3} (h : 4 ≤ kind.toNat) (skip : Bool) (w : Size) :
    fieldInstr kind skip w = .fieldKbad kind skip w := by
  rcases fieldInstr_cases kind skip w with ⟨k, hk, -⟩ | ⟨-, h'⟩
  · cases k <;> simp only [Width.code] at hk <;> omega
  · exact h'

theorem getLsbD_eq_false_of_bitField {w : Word} {k : Nat} (h : bitField w k k = 0) : w.getLsbD k = false := by
  rw [← Bool.not_eq_true]
  intro hk
  rw [bitField, Nat.sub_self, Nat.zero_add, Nat.pow_one] at h
  rw [BitVec.getLsbD, Nat.testBit_eq_decide_div_mod_eq, decide_eq_true_eq] at hk
  omega

/-- A TAG = 0xD word whose RES0 bits are clear decodes to the descriptor of its KIND (R69, R70). -/
theorem decode_of_tagD {w : Word} (hop : bitField w 31 28 = 0xD) (hmid : bitField w 27 12 = 0)
    (hbit : bitField w 7 7 = 0) : decode w = .ok (fieldInstr (kindField w) (skipField w) (sizeField w)) := by
  have hres : w.extractLsb' 12 16 = 0#16 ∧ w.getLsbD 7 = false :=
    ⟨extract_eq_of_bitField 27 rfl hmid, getLsbD_eq_false_of_bitField hbit⟩
  have hfield : decodeField w = .ok (fieldInstr (kindField w) (skipField w) (sizeField w)) := by
    rw [decodeField, if_pos hres, fieldInstr]
    split_ifs <;> rfl
  simp [decode, opField_eq_of_bitField hop, hfield]

/-! ### Decoding what was encoded -/

theorem sizeField_eq {w : Word} {n : Size} (h : w.toNat % 128 = n.toNat) : sizeField w = n := by
  apply BitVec.eq_of_toNat_eq
  rw [sizeField, BitVec.extractLsb'_toNat, Nat.shiftRight_zero, ← h]

theorem decode_encode_xbits (k : Width) (n : Size) : decode (encode (.xbits k n)) = .ok (.xbits k n) := by
  have hw := encode_xbits_toNat k n
  have hk : k.code < 4 := by cases k <;> decide
  have hn := n.isLt
  rw [decode_of_op1 k, sizeField_eq] <;> simp only [bitField, hw] <;> omega

theorem decode_encode_xbytes (n : Count) : decode (encode (.xbytes n)) = .ok (.xbytes n) := by
  have hw := encode_xbytes_toNat n
  have hn := n.isLt
  have hcount : countField (encode (.xbytes n)) = n := by
    apply BitVec.eq_of_toNat_eq
    rw [countField, BitVec.extractLsb'_toNat, Nat.shiftRight_zero, hw]
    omega
  rw [decode_of_op2, hcount] <;> rw [bitField, hw] <;> omega

theorem decode_encode_populate (n : FieldIndex) : decode (encode (.populate n)) = .ok (.populate n) := by
  have hw := encode_populate_toNat n
  have hn := n.isLt
  have hfields : nfieldsField (encode (.populate n)) = n := by
    apply BitVec.eq_of_toNat_eq
    rw [nfieldsField, BitVec.extractLsb'_toNat, Nat.shiftRight_zero, hw]
    omega
  rw [decode_of_op3, hfields] <;> rw [bitField, hw] <;> omega

theorem decode_encodeField (kind : BitVec 3) (skip : Bool) (n : Size) :
    decode (encodeField kind skip n) = .ok (fieldInstr kind skip n) := by
  have hw := encodeField_toNat kind skip n
  have hk := kind.isLt
  have hs := Bool.toNat_le skip
  have hn := n.isLt
  have hkind : kindField (encodeField kind skip n) = kind := by
    apply BitVec.eq_of_toNat_eq
    rw [kindField, BitVec.extractLsb'_toNat, Nat.shiftRight_eq_div_pow, hw]
    omega
  have hskip : skipField (encodeField kind skip n) = skip := by
    rw [skipField, BitVec.getLsbD, Nat.testBit_eq_decide_div_mod_eq, hw]
    cases skip <;> simp only [Bool.toNat_false, Bool.toNat_true, decide_eq_false_iff_not, decide_eq_true_eq] <;> omega
  rw [decode_of_tagD, hkind, hskip, sizeField_eq] <;> simp only [bitField, hw] <;> omega

/-- Settles O7: one form of word at a time, the fields being read off its sum. -/
theorem decodeOfEncodeIsTheInstruction : Obligations.DecodeOfEncodeIsTheInstruction := by
  intro i hi
  cases i with
  | xbits8 n => exact decode_encode_xbits .w8 n
  | xbits16 n => exact decode_encode_xbits .w16 n
  | xbits32 n => exact decode_encode_xbits .w32 n
  | xbits64 n => exact decode_encode_xbits .w64 n
  | xbytes n => exact decode_encode_xbytes n
  | populate n => exact decode_encode_populate n
  | clear => rfl
  | fieldU8 skip n => exact decode_encodeField 0 skip n
  | fieldU16 skip n => exact decode_encodeField 1 skip n
  | fieldU32 skip n => exact decode_encodeField 2 skip n
  | fieldU64 skip n => exact decode_encodeField 3 skip n
  | fieldKbad kind skip n => exact (decode_encodeField kind skip n).trans (by rw [fieldInstr_kbad (of_decide_eq_true hi)])

/-! ### Encoding what was decoded -/

/-- A word that the decoder accepts, by the slices it has checked. -/
theorem decode_ok_forms {w : Word} {i : Instr} (h : decode w = .ok i) :
    (∃ k : Width, bitField w 31 28 = 1 ∧ bitField w 27 26 = 0 ∧ bitField w 25 24 = k.code ∧ bitField w 23 7 = 0 ∧
        i = .xbits k (sizeField w)) ∨
      (bitField w 31 28 = 2 ∧ bitField w 27 24 = 0 ∧ i = .xbytes (countField w)) ∨
      (bitField w 31 28 = 3 ∧ bitField w 27 16 = 0 ∧ i = .populate (nfieldsField w)) ∨
      (bitField w 31 28 = 4 ∧ bitField w 27 0 = 0 ∧ i = .clear) ∨
      (bitField w 31 28 = 0xD ∧ bitField w 27 12 = 0 ∧ bitField w 7 7 = 0 ∧
        i = fieldInstr (kindField w) (skipField w) (sizeField w)) := by
  have h' := h
  unfold decode at h'
  split_ifs at h' with hop hop hop hop hop
  · have hop' : bitField w 31 28 = 1 := by rw [bitField_opField, hop]; rfl
    obtain ⟨hmid, hlow, -⟩ := decodeXbits_eq_ok h'
    obtain ⟨k, hwc⟩ := exists_width_code w
    exact .inl ⟨k, hop', hmid, hwc, hlow, by simpa [decode_of_op1 k hop' hmid hwc hlow] using h.symm⟩
  · obtain ⟨hz, hi⟩ := decodeXbytes_eq_ok h'
    exact .inr (.inl ⟨by rw [bitField_opField, hop]; rfl, hz, hi⟩)
  · obtain ⟨hz, hi⟩ := decodePopulate_eq_ok h'
    exact .inr (.inr (.inl ⟨by rw [bitField_opField, hop]; rfl, hz, hi⟩))
  · obtain ⟨hz, hi⟩ := decodeClear_eq_ok h'
    exact .inr (.inr (.inr (.inl ⟨by rw [bitField_opField, hop]; rfl, hz, hi⟩)))
  · have hop' : bitField w 31 28 = 0xD := by rw [bitField_opField, hop]; rfl
    obtain ⟨hmid, hbit, -⟩ := decodeField_eq_ok h'
    exact .inr (.inr (.inr (.inr
      ⟨hop', hmid, hbit, by simpa [decode_of_tagD hop' hmid hbit] using h.symm⟩)))

theorem sizeField_toNat (w : Word) : (sizeField w).toNat = w.toNat % 128 := by
  rw [sizeField, BitVec.extractLsb'_toNat, Nat.shiftRight_zero]

theorem skipField_toNat (w : Word) : (skipField w).toNat = w.toNat / 2 ^ 11 % 2 := by
  rw [skipField, BitVec.getLsbD, Nat.testBit_eq_decide_div_mod_eq]
  rcases Nat.mod_two_eq_zero_or_one (w.toNat / 2 ^ 11) with h | h <;> rw [h] <;> rfl

/-- Settles O8: the slices the decoder has checked and the operands it reads make up the whole word. -/
theorem encodeOfDecodeIsTheWord : Obligations.EncodeOfDecodeIsTheWord := by
  intro w i h
  have hw := w.isLt
  have hsize := sizeField_toNat w
  rcases decode_ok_forms h with ⟨k, hop, hmid, hwc, hlow, rfl⟩ | ⟨hop, hres, rfl⟩ | ⟨hop, hres, rfl⟩ |
    ⟨hop, hres, rfl⟩ | ⟨hop, hmid, hbit, rfl⟩
  · refine ⟨by cases k <;> rfl, BitVec.eq_of_toNat_eq ?_⟩
    rw [encode_xbits_toNat, hsize]
    simp only [bitField] at *
    omega
  · refine ⟨rfl, BitVec.eq_of_toNat_eq ?_⟩
    rw [encode_xbytes_toNat, countField, BitVec.extractLsb'_toNat, Nat.shiftRight_zero]
    simp only [bitField] at *
    omega
  · refine ⟨rfl, BitVec.eq_of_toNat_eq ?_⟩
    rw [encode_populate_toNat, nfieldsField, BitVec.extractLsb'_toNat, Nat.shiftRight_zero]
    simp only [bitField] at *
    omega
  · refine ⟨rfl, BitVec.eq_of_toNat_eq ?_⟩
    rw [encode_clear_toNat]
    simp only [bitField] at *
    omega
  · refine ⟨fieldInstr_wellFormed _ _ _, BitVec.eq_of_toNat_eq ?_⟩
    rw [encode_fieldInstr, encodeField_toNat, hsize, skipField_toNat, kindField, BitVec.extractLsb'_toNat,
      Nat.shiftRight_eq_div_pow]
    simp only [bitField] at *
    omega

/-! ### The opcode map -/

/-- Under a mask that is all ones on a slice, a matching word has the match value's slice. -/
theorem bitField_of_masked {w mask m : Word} {hi lo : Nat} (h : w &&& mask = m)
    (hmask : mask.extractLsb' lo (hi - lo + 1) = BitVec.allOnes (hi - lo + 1)) : bitField w hi lo = bitField m hi lo := by
  rw [bitField_eq_extract, bitField_eq_extract, ← h, BitVec.extractLsb'_and, hmask, BitVec.and_allOnes]

/-- The word of every well-formed instruction matches the row of its mnemonic. -/
theorem encode_matches_row (i : Instr) : Laws.OpcodeRow.Statement i := by
  cases i with
  | xbits8 n => exact Laws.OpcodeRow.xbits8 n
  | xbits16 n => exact Laws.OpcodeRow.xbits16 n
  | xbits32 n => exact Laws.OpcodeRow.xbits32 n
  | xbits64 n => exact Laws.OpcodeRow.xbits64 n
  | xbytes n => exact Laws.OpcodeRow.xbytes n
  | populate n => exact Laws.OpcodeRow.populate n
  | clear => exact Laws.OpcodeRow.clear
  | fieldU8 skip n => exact Laws.OpcodeRow.fieldU8 skip n
  | fieldU16 skip n => exact Laws.OpcodeRow.fieldU16 skip n
  | fieldU32 skip n => exact Laws.OpcodeRow.fieldU32 skip n
  | fieldU64 skip n => exact Laws.OpcodeRow.fieldU64 skip n
  | fieldKbad kind skip n => exact Laws.OpcodeRow.fieldKbad kind skip n

/-- A mnemonic has one row. -/
theorem opcodeMap_row_unique : ∀ row ∈ opcodeMap, ∀ row' ∈ opcodeMap, row.1 = row'.1 → row = row' := by
  decide

/-- A word that matches the row of an XBITS decodes to it. -/
theorem decode_of_xbits_row {w m : Word} (k : Width) (h : w &&& 0xFFFFFF80 = m)
    (hm : bitField m 31 28 = 1 ∧ bitField m 27 26 = 0 ∧ bitField m 25 24 = k.code ∧ bitField m 23 7 = 0) :
    decode w = .ok (.xbits k (sizeField w)) := by
  obtain ⟨hop, hmid, hwc, hlow⟩ := hm
  exact decode_of_op1 k ((bitField_of_masked h (by decide)).trans hop) ((bitField_of_masked h (by decide)).trans hmid)
    ((bitField_of_masked h (by decide)).trans hwc) ((bitField_of_masked h (by decide)).trans hlow)

/-- A word that matches the row of a FIELD of a supported kind decodes to it. -/
theorem decode_of_field_row {w m : Word} (k : Width) (h : w &&& 0xFFFFF780 = m)
    (hm : bitField m 31 28 = 0xD ∧ bitField m 27 12 = 0 ∧ bitField m 10 8 = k.code ∧ bitField m 7 7 = 0) :
    decode w = .ok (.field k (skipField w) (sizeField w)) := by
  obtain ⟨hop, hmid, hkind, hbit⟩ := hm
  have hk : kindField w = BitVec.ofNat 3 k.code :=
    extract_eq_of_bitField 10 rfl ((bitField_of_masked h (by decide)).trans hkind)
  rw [decode_of_tagD ((bitField_of_masked h (by decide)).trans hop) ((bitField_of_masked h (by decide)).trans hmid)
    ((bitField_of_masked h (by decide)).trans hbit), hk, fieldInstr_field]

/-- A word that matches the row of FIELD.KBAD decodes to it: its KIND has the top bit set (R70). -/
theorem decode_of_kbad_row {w : Word} (h : w &&& 0xFFFFF480 = 0xD0000400) :
    decode w = .ok (.fieldKbad (kindField w) (skipField w) (sizeField w)) := by
  have htop : bitField w 10 10 = 1 := (bitField_of_masked h (by decide)).trans (by decide)
  have hkind : 4 ≤ (kindField w).toNat := by
    rw [kindField, BitVec.extractLsb'_toNat, Nat.shiftRight_eq_div_pow]
    simp only [bitField] at htop
    omega
  rw [decode_of_tagD ((bitField_of_masked h (by decide)).trans (by decide))
    ((bitField_of_masked h (by decide)).trans (by decide)) ((bitField_of_masked h (by decide)).trans (by decide)),
    fieldInstr_kbad hkind]

/-- A word that matches a row decodes to an instruction of that row. -/
theorem decode_of_row {row : String × Word × Word} (hrow : row ∈ opcodeMap) {w : Word}
    (h : w &&& row.2.2 = row.2.1) : ∃ i, decode w = .ok i ∧ mnemonic i = row.1 := by
  simp only [opcodeMap, List.mem_cons, List.not_mem_nil, or_false] at hrow
  rcases hrow with rfl | rfl | rfl | rfl | rfl | rfl | rfl | rfl | rfl | rfl | rfl | rfl
  · exact ⟨_, decode_of_xbits_row .w8 h (by decide), rfl⟩
  · exact ⟨_, decode_of_xbits_row .w16 h (by decide), rfl⟩
  · exact ⟨_, decode_of_xbits_row .w32 h (by decide), rfl⟩
  · exact ⟨_, decode_of_xbits_row .w64 h (by decide), rfl⟩
  · exact ⟨_, decode_of_op2 ((bitField_of_masked h (by decide)).trans (by decide))
      ((bitField_of_masked h (by decide)).trans (by decide)), rfl⟩
  · exact ⟨_, decode_of_op3 ((bitField_of_masked h (by decide)).trans (by decide))
      ((bitField_of_masked h (by decide)).trans (by decide)), rfl⟩
  · exact ⟨_, decode_of_op4 ((bitField_of_masked h (by decide)).trans (by decide))
      ((bitField_of_masked h (by decide)).trans (by decide)), rfl⟩
  · exact ⟨_, decode_of_field_row .w8 h (by decide), rfl⟩
  · exact ⟨_, decode_of_field_row .w16 h (by decide), rfl⟩
  · exact ⟨_, decode_of_field_row .w32 h (by decide), rfl⟩
  · exact ⟨_, decode_of_field_row .w64 h (by decide), rfl⟩
  · exact ⟨_, decode_of_kbad_row h, rfl⟩

/-- Settles O9: a matching word has the slices that the decoder checks for the row; and a word that decodes is the word
of its instruction, which matches the one row of its mnemonic. -/
theorem decodeFollowsOpcodeMap : Obligations.DecodeFollowsOpcodeMap := by
  intro row hrow w
  refine ⟨decode_of_row hrow, fun ⟨i, hd, hi⟩ => ?_⟩
  obtain ⟨hwf, rfl⟩ := encodeOfDecodeIsTheWord w i hd
  obtain ⟨row', hrow', hname, hmatch⟩ := encode_matches_row i hwf
  obtain rfl := opcodeMap_row_unique row' hrow' row hrow (hname.trans hi)
  exact hmatch

/-! ### Legal and illegal words -/

/-- A word that R71 does not list decodes to a command. -/
theorem decode_of_legalCommandWord {w : Word} (h : illegalCommandWord w = false) :
    ∃ i, decode w = .ok i ∧ isDescriptor i = false := by
  simp only [illegalCommandWord, Bool.or_eq_false_iff, Bool.and_eq_false_imp, decide_eq_false_iff_not,
    decide_eq_true_eq, not_not] at h
  obtain ⟨⟨⟨⟨⟨h0, h5⟩, h1⟩, h2⟩, h3⟩, h4⟩ := h
  have hop : bitField w 31 28 = 1 ∨ bitField w 31 28 = 2 ∨ bitField w 31 28 = 3 ∨ bitField w 31 28 = 4 := by omega
  rcases hop with hop | hop | hop | hop
  · obtain ⟨hmid, hlow⟩ := h1 hop
    obtain ⟨k, hk⟩ := exists_width_code w
    exact ⟨_, decode_of_op1 k hop hmid hk hlow, isDescriptor_xbits _ _⟩
  · exact ⟨_, decode_of_op2 hop (h2 hop), rfl⟩
  · exact ⟨_, decode_of_op3 hop (h3 hop), rfl⟩
  · exact ⟨_, decode_of_op4 hop (h4 hop), rfl⟩

/-- A word that R72 does not list decodes to a descriptor. -/
theorem decode_of_legalDescriptorWord {w : Word} (h : illegalDescriptorWord w = false) :
    ∃ i, decode w = .ok i ∧ isDescriptor i = true := by
  simp only [illegalDescriptorWord, Bool.or_eq_false_iff, decide_eq_false_iff_not, not_not] at h
  obtain ⟨⟨hop, hmid⟩, hbit⟩ := h
  exact ⟨_, decode_of_tagD hop hmid hbit, isDescriptor_fieldInstr _ _ _⟩

/-- Settles O10: a word that is not listed decodes to an instruction of its format, and a word that decodes to one is not
listed. -/
theorem everyWordIsLegalOrIllegal : Obligations.EveryWordIsLegalOrIllegal := by
  refine fun w => ⟨⟨decode_of_legalCommandWord, fun ⟨i, hd, hi⟩ => ?_⟩,
    ⟨decode_of_legalDescriptorWord, fun ⟨i, hd, hi⟩ => ?_⟩⟩
  · rcases decode_eq_ok hd with ⟨-, hl⟩ | ⟨hi', -⟩
    · exact hl
    · exact absurd (hi.symm.trans hi') Bool.false_ne_true
  · rcases decode_eq_ok hd with ⟨hi', -⟩ | ⟨-, hl⟩
    · exact absurd (hi'.symm.trans hi) Bool.false_ne_true
    · exact hl

end Sys2Proof.Machine
end

section
/-!
PROOFS. The shape of a step: what an instruction runs at each position, the four forms of a step, and where a command
that waits goes on. With it, what a step with `rst` high and a late answer do (spec/70_reset_and_hazards.md R160).
-/

namespace Sys2Proof.Machine

/-! ### What an instruction runs -/

/-- XBYTES from its start (R100). -/
def bytesStart (n : Count) (s : State) : State := bytesRun n ((s.setMode .xbytes).setBc 0)

/-- The header of a POPULATE (R120). -/
def popStart (n : FieldIndex) (s : State) : State := popNext ((((s.setMode .pop).setNf n).setFi 0).setSc 0)

/-- CLEAR (R101). -/
def clearRun (s : State) : State := respond okResponse ((s.setCursor 0 0).setStarted false)

/-- A word that is illegal at its position (R71, R72). -/
def illegalRun : Position → State → State
  | .command => illegalCommand
  | .descriptor => illegalDescriptor

/-- What an instruction does at a position: its meaning at a position of its own format, and an illegal word's at the
other (R60). -/
def instrRun : Position → Instr → State → State
  | .command, .xbits8 n => xbits .w8 n
  | .command, .xbits16 n => xbits .w16 n
  | .command, .xbits32 n => xbits .w32 n
  | .command, .xbits64 n => xbits .w64 n
  | .command, .xbytes n => bytesStart n
  | .command, .populate n => popStart n
  | .command, .clear => clearRun
  | .descriptor, .fieldU8 skip n => fieldStep .w8 skip n
  | .descriptor, .fieldU16 skip n => fieldStep .w16 skip n
  | .descriptor, .fieldU32 skip n => fieldStep .w32 skip n
  | .descriptor, .fieldU64 skip n => fieldStep .w64 skip n
  | .descriptor, .fieldKbad _ _ _ => popStop .unsupportedKind 0 0
  | p, _ => illegalRun p

/-- `exec` at a position runs the instruction there. -/
theorem exec_eq_run {p : Position} {s : State} (h : s.position = some p) (i : Instr) :
    exec i s = .next (instrRun p i s) := by
  cases p with
  | command =>
    cases i with
    | xbits8 | xbits16 | xbits32 | xbits64 => exact atCommand_of_command h _
    | xbytes => exact exec_xbytes h
    | populate => exact exec_populate h
    | clear => exact exec_clear h
    | fieldU8 | fieldU16 | fieldU32 | fieldU64 | fieldKbad => exact exec_descriptor_of_command rfl h
  | descriptor =>
    cases i with
    | fieldU8 | fieldU16 | fieldU32 | fieldU64 | fieldKbad => exact atDescriptor_of_descriptor h _
    | xbits8 | xbits16 | xbits32 | xbits64 | xbytes | populate | clear => exact exec_command_of_descriptor rfl h

/-- `exec` answers a next state at the two positions only. -/
theorem exec_eq_next {i : Instr} {s t : State} (h : exec i s = .next t) :
    ∃ p, s.position = some p ∧ t = instrRun p i s := by
  cases hp : s.position with
  | none => cases i <;> simp [exec, execXbits8, execXbits16, execXbits32, execXbits64, execXbytes, execPopulate,
      execClear, execFieldU8, execFieldU16, execFieldU32, execFieldU64, execFieldKbad, atCommand, atDescriptor, hp] at h
  | some p =>
    rw [exec_eq_run hp] at h
    exact ⟨p, rfl, by cases h; rfl⟩

/-- Everything an instruction can run: what holds of each meaning at its position, and of the illegal words, holds of
every instruction at every position. -/
theorem instrRun_cases {P : Position → Instr → (State → State) → Prop}
    (illegal : ∀ p i, P p i (illegalRun p))
    (xbits : ∀ k n, P .command (.xbits k n) (xbits k n))
    (xbytes : ∀ n, P .command (.xbytes n) (bytesStart n))
    (populate : ∀ n, P .command (.populate n) (popStart n))
    (clear : P .command .clear clearRun)
    (field : ∀ k skip n, P .descriptor (.field k skip n) (fieldStep k skip n))
    (kbad : ∀ kind skip n, P .descriptor (.fieldKbad kind skip n) (popStop .unsupportedKind 0 0))
    (p : Position) (i : Instr) : P p i (instrRun p i) := by
  cases p with
  | command =>
    cases i with
    | xbits8 n => exact xbits .w8 n
    | xbits16 n => exact xbits .w16 n
    | xbits32 n => exact xbits .w32 n
    | xbits64 n => exact xbits .w64 n
    | xbytes n => exact xbytes n
    | populate n => exact populate n
    | clear => exact clear
    | fieldU8 | fieldU16 | fieldU32 | fieldU64 | fieldKbad => exact illegal .command _
  | descriptor =>
    cases i with
    | fieldU8 skip n => exact field .w8 skip n
    | fieldU16 skip n => exact field .w16 skip n
    | fieldU32 skip n => exact field .w32 skip n
    | fieldU64 skip n => exact field .w64 skip n
    | fieldKbad kind skip n => exact kbad kind skip n
    | xbits8 | xbits16 | xbits32 | xbits64 | xbytes | populate | clear => exact illegal .descriptor _

/-! ### What a word runs -/

/-- What a word does at a position: its instruction, or an illegal word's meaning where it decodes to none. -/
def wordRun (p : Position) (w : Word) : State → State :=
  match decode w with
  | .ok i => instrRun p i
  | .error _ => illegalRun p

theorem wordRun_of_decode {w : Word} {i : Instr} (h : decode w = .ok i) (p : Position) :
    wordRun p w = instrRun p i := by
  simp [wordRun, h]

/-- What holds of every instruction and of an illegal word holds of every word. -/
theorem wordRun_cases {P : (State → State) → Prop} {p : Position} (illegal : P (illegalRun p))
    (run : ∀ i, P (instrRun p i)) (w : Word) : P (wordRun p w) := by
  unfold wordRun
  split
  · exact run _
  · exact illegal

theorem illegalWord_eq_run {p : Position} {s : State} (h : s.position = some p) :
    illegalWord s = .next (illegalRun p s) := by
  cases p
  · exact illegalWord_of_command h
  · exact illegalWord_of_descriptor h

@[simp] theorem State.consumed_position (s : State) (p : Position) (w : Word) (rest : List Word) :
    (s.consumed p w rest).position = s.position := by
  cases p <;> rfl

theorem fetch_eq_consumed {s : State} {w : Word} {rest : List Word} (h : s.cmd = w :: rest) (p : Position) :
    fetch p s = some (w, s.consumed p w rest) := by
  cases p
  · exact fetch_command h
  · exact fetch_descriptor h

/-! ### The forms of a step -/

theorem step_of_rst {s : State} (h : s.rst = true) : step s = .next (dropLate (applyReset s)) := by
  simp [step, h]

/-- At a position with a word there, a step consumes the word and runs it. -/
theorem step_of_word {s : State} {p : Position} {w : Word} {rest : List Word} (hr : s.rst = false)
    (hp : s.position = some p) (hc : s.cmd = w :: rest) :
    step s = .next (wordRun p w ((dropLate s).consumed p w rest)) := by
  have hf : fetch p (dropLate s) = some (w, (dropLate s).consumed p w rest) :=
    fetch_eq_consumed (by rw [dropLate_cmd, hc]) p
  have hp' : ((dropLate s).consumed p w rest).position = some p := by
    rw [State.consumed_position, dropLate_position, hp]
  cases hd : decode w with
  | ok i => rw [step_of_decode_ok hr hp hf hd, exec_eq_run hp', wordRun_of_decode hd]
  | error e =>
    rw [step_of_decode_error hr hp hf hd, illegalWord_eq_run hp']
    simp [wordRun, hd]

theorem step_of_no_word {s : State} {p : Position} (hr : s.rst = false) (hp : s.position = some p)
    (hc : s.cmd = []) : step s = .next (dropLate s) := by
  have hf : fetch p (dropLate s) = none := fetch_eq_none.mpr (by rw [dropLate_cmd, hc])
  simp [step, hr, hp, hf]

theorem position_of_waiting {s : State} (h : s.work ≠ .boundary) : s.position = none := by
  cases hp : s.position with
  | none => rfl
  | some p =>
    cases p
    · exact absurd (position_eq_command.mp hp).1 h
    · exact absurd (position_eq_descriptor.mp hp).1 h

/-- Inside a command a step goes on with it. -/
theorem step_of_waiting {s : State} (hr : s.rst = false) (hw : s.work ≠ .boundary) :
    step s = .next (resume (dropLate s)) := by
  have hp : (dropLate s).position = none := by rw [dropLate_position, position_of_waiting hw]
  rw [← dropLate_work] at hw
  rw [step, if_neg (by simp [hr])]
  split
  · simp_all
  · split
    · contradiction
    · rfl

/-- Everything a step with `rst` low can do: it runs a word, or there is none, or it goes on inside a command. -/
theorem step_forms {s t : State} (hr : s.rst = false) (h : step s = .next t) :
    (∃ p w rest, s.position = some p ∧ s.cmd = w :: rest ∧ t = wordRun p w ((dropLate s).consumed p w rest)) ∨
      (∃ p, s.position = some p ∧ s.cmd = [] ∧ t = dropLate s) ∨
      (s.work ≠ .boundary ∧ t = resume (dropLate s)) := by
  by_cases hw : s.work = .boundary
  · cases hp : s.position with
    | none => simp [step, hr, hp, hw] at h
    | some p =>
      cases hc : s.cmd with
      | nil =>
        rw [step_of_no_word hr hp hc] at h
        exact .inr (.inl ⟨p, rfl, rfl, by cases h; rfl⟩)
      | cons w rest =>
        rw [step_of_word hr hp hc] at h
        exact .inl ⟨p, w, rest, rfl, rfl, by cases h; rfl⟩
  · rw [step_of_waiting hr hw] at h
    exact .inr (.inr ⟨hw, by cases h; rfl⟩)

/-! ### Where a command that waits goes on -/

theorem resume_of_extract {s : State} {sink : Sink} {size : Size} {cs : List Nat} (h : s.work = .extract sink size cs) :
    resume s = extractRun sink size cs s := by simp [resume, h]

theorem resume_of_byteRead {s : State} {n : Count} (h : s.work = .byteRead n) : resume s = bytesRun n s := by
  simp [resume, h]

/-- The beat of byte BC and what follows it in the loop of XBYTES (R100). -/
def byteEmit (n : Count) (b : Byte) (s : State) : State :=
  match takeBeat (.byte s.bc b) s with
  | some t => bytesRun n (t.setBc (t.bc + 1))
  | none => s.setWork (.byteBeat n b)

/-- Everything the beat of a byte can do. -/
theorem byteEmit_cases (n : Count) (b : Byte) (s : State) :
    (∃ q, s.outReady.take = some q ∧
      byteEmit n b s = bytesRun n (((s.setOutReady q).log (.beat (.byte s.bc b))).setBc (s.bc + 1))) ∨
    (s.outReady.take = none ∧ byteEmit n b s = s.setWork (.byteBeat n b)) := by
  cases hq : s.outReady.take with
  | some q => exact .inl ⟨q, rfl, by simp [byteEmit, takeBeat_of_take hq]⟩
  | none => exact .inr ⟨rfl, by simp [byteEmit, takeBeat_eq_none.mpr hq]⟩

theorem resume_of_byteBeat {s : State} {n : Count} {b : Byte} (h : s.work = .byteBeat n b) :
    resume s = byteEmit n b s := by
  have hself : s.setWork (.byteBeat n b) = s := by rw [← h]; rfl
  cases ht : takeBeat (.byte s.bc b) s with
  | some t => simp [resume, h, byteEmit, ht]
  | none => simp [resume, h, byteEmit, ht, hself]

theorem resume_of_slotBeat {s : State} {k : Width} {value : Value} {stop : Option Size}
    (h : s.work = .slotBeat k value stop) : resume s = fieldSlot k false value stop s := by simp [resume, h]

theorem resume_of_drain {s : State} {left : Nat} {r : Response} (h : s.work = .drain left r) :
    resume s = drain left r s := by simp [resume, h]

theorem resume_of_respond {s : State} {r : Response} (h : s.work = .respond r) : resume s = respond r s := by
  simp [resume, h]

/-! ### Reset and late answers -/

theorem applyReset_position (s : State) : (applyReset s).position = some .command :=
  position_eq_command.mpr ⟨rfl, rfl⟩

/-- A word with 0xD in its top bits is in the list of R71. -/
theorem illegalCommandWord_of_tagD {d : Word} (h : bitField d 31 28 = 0xD) : illegalCommandWord d = true := by
  simp [illegalCommandWord, h]

/-- Settles O3: the next state is that of `applyReset`, with the answer of the read outstanding before it, or at it,
dropped where it is there. -/
theorem resetAbandonsTheCommand : Obligations.ResetAbandonsTheCommand := by
  refine ⟨fun s hr => ⟨_, step_of_rst hr, ?_⟩, fun d => illegalCommandWord_of_tagD⟩
  have hpos := applyReset_position s
  have hlate : (applyReset s).late = (s.late || s.awaitsRead) := rfl
  have hsrc : (applyReset s).src = s.src := rfl
  rcases dropLate_cases (applyReset s) with ⟨h, hno⟩ | ⟨a, rest, hl, hs, h⟩ <;> rw [h]
  · refine ⟨rfl, rfl, rfl, rfl, rfl, rfl, rfl, rfl, rfl, rfl, hpos, rfl, rfl, rfl,
      fun hw hl => ⟨rfl, by rw [hlate, hw, hl]; rfl, rfl⟩,
      fun hout hnil => ⟨hnil, by rw [hlate]; rcases hout with hw | hl <;> simp [*], rfl⟩, fun a rest hout hcons => ?_⟩
    rcases hno with hno | hno
    · rcases hout with hw | hl <;> simp_all
    · simp_all
  · rw [hsrc] at hs
    refine ⟨rfl, rfl, rfl, rfl, rfl, rfl, rfl, rfl, rfl, rfl, hpos, rfl, rfl, rfl,
      fun hw hl' => absurd hl (by simp [hlate, hw, hl']), fun _ hnil => absurd (hs.symm.trans hnil) (by simp),
      fun a' rest' _ hcons => ?_⟩
    obtain ⟨rfl, rfl⟩ := List.cons.inj (hs.symm.trans hcons)
    exact ⟨rfl, rfl, rfl⟩

/-- Settles O2: after reset L, V and S are 0, the core is at a command position, and nothing was observed. -/
theorem resetMeetsEveryInvariant : Obligations.ResetMeetsEveryInvariant :=
  ⟨rfl, fun _ => rfl, rfl, by
    rw [BalanceInv, State.inProgress, if_pos State.reset_position]; rfl⟩

/-- A late answer that is there is dropped, and logged as a read. -/
theorem dropLate_of_late {s : State} {a : Answer} {rest : List Answer} (hl : s.late = true) (hs : s.src = a :: rest) :
    dropLate s = { s with src := rest, late := false, trace := s.trace ++ [.read a] } := by
  simp only [dropLate, hl, hs]; rfl

/-- A step with `rst` low is the step after a late answer is dropped. -/
theorem step_dropLate {s : State} (hr : s.rst = false) (hdone : (dropLate s).late = false) :
    step s = step (dropLate s) := by
  have hr' : (dropLate s).rst = false := by
    rcases dropLate_cases s with ⟨h, -⟩ | ⟨a, rest, -, -, h⟩ <;> rw [h] <;> exact hr
  rw [step, step, if_neg (by simp [hr]), if_neg (by simp [hr']), dropLate_of_not_late hdone]

/-- Settles O4: a step begins by dropping the late answer, and until it is dropped no read is made. -/
theorem lateAnswerIsDiscarded : Obligations.LateAnswerIsDiscarded := by
  refine ⟨fun s a rest hl hs => dropLate_of_late hl hs, fun s a rest hr hl hs => ?_,
    fun s n hl hn => p8_wait (srcRead_eq_none.mpr (.inl hl)) hn⟩
  have hd := dropLate_of_late hl hs
  rw [step_dropLate hr (by rw [hd]), hd]

/-- Settles O5: the step runs what the word decodes to, from the state in which it has been consumed. -/
theorem stepRunsDecodedInstruction : Obligations.StepRunsDecodedInstruction := by
  intro s p w rest i hr hp hc hd
  refine ⟨(encodeOfDecodeIsTheWord w i hd).1, ?_⟩
  have hp' : ((dropLate s).consumed p w rest).position = some p := by
    rw [State.consumed_position, dropLate_position, hp]
  rw [step_of_word hr hp hc, wordRun_of_decode hd, exec_eq_run hp']

/-- Settles O17: the serve path makes no read, the pull path logs the one answer it takes, and with no answer to take P8
waits. -/
theorem p8MakesOneReadWhenShort : Obligations.P8MakesOneReadWhenShort := by
  refine fun n s _ _ => ⟨fun hn => ?_, fun a rest hn hl hs => ?_, fun hn hno => p8_wait (srcRead_eq_none.mpr hno) hn⟩
  · rw [p8_of_le hn]; exact ⟨rfl, rfl⟩
  · rw [p8_of_answer hn hl hs]
    cases a <;> exact ⟨rfl, rfl⟩

end Sys2Proof.Machine
end

section
/-!
PROOFS. What every operation does to the cursor, S, the source and the trace, said once as a chain of few moves; and the
invariants that follow by induction on the chain (spec/10_state.md R24, R25, R34; spec/60_exceptions.md R146).
-/

namespace Sys2Proof.Machine

/-! ### Chains of moves -/

/-- From `s` to `t` the cursor, S, the source and `rst` stay as they are, and only beats and responses are logged. -/
structure Quiet (s t : State) : Prop where
  l : t.l = s.l
  v : t.v = s.v
  started : t.started = s.started
  src : t.src = s.src
  late : t.late = s.late
  rst : t.rst = s.rst
  trace : ∃ es, t.trace = s.trace ++ es ∧ ∀ e ∈ es, e.isBeat = true ∨ e.isResponse = true

theorem TailFrame.quiet {s t : State} (h : TailFrame s t) : Quiet s t :=
  ⟨h.l, h.v, h.started, h.src, h.late, h.rst, h.trace⟩

/-- Writing registers other than L, V and S is quiet. -/
theorem Quiet.of_registers {s t : State} (hl : t.l = s.l) (hv : t.v = s.v) (hs : t.started = s.started)
    (hsrc : t.src = s.src) (hlate : t.late = s.late) (hrst : t.rst = s.rst) (htr : t.trace = s.trace) : Quiet s t :=
  ⟨hl, hv, hs, hsrc, hlate, hrst, [], by simp [htr], by simp⟩

/-- What an operation does to the cursor, S, the source and the trace: P8 calls, the dropping of late answers, a CLEAR,
and quiet moves, in some order. -/
inductive Flow : State → State → Prop where
  | quiet {s t : State} (h : Quiet s t) : Flow s t
  | p8 (n : Nat) (s : State) : Flow s (p8 n s).2
  | drop (s : State) : Flow s (dropLate s)
  | clear (s : State) : Flow s ((s.setCursor 0 0).setStarted false)
  | trans {s t u : State} (h : Flow s t) (k : Flow t u) : Flow s u

theorem Flow.refl (s : State) : Flow s s := .quiet (.of_registers rfl rfl rfl rfl rfl rfl rfl)

theorem xwLoop_flow (cs : List Nat) (s : State) : Flow s (xwLoop cs s).2 := by
  induction cs generalizing s with
  | nil => exact .refl s
  | cons c cs ih =>
    have hp := Flow.p8 c s
    have hacc : ∀ value nv t, Flow t (accumulate c value nv t) := fun value nv t =>
      .quiet (.of_registers rfl rfl rfl rfl rfl rfl rfl)
    rw [xwLoop]
    split <;> rename_i h <;> rw [h] at hp
    · exact (hp.trans (hacc _ _ _)).trans (ih _)
    · exact hp.trans (hacc _ _ _)
    · exact hp
    · exact hp

theorem extractRun_flow (sink : Sink) (size : Size) (cs : List Nat) (s : State) : Flow s (extractRun sink size cs s) :=
  (xwLoop_flow cs s).trans (.quiet (extractEnd_tail _ _ _ _).quiet)

theorem extractStart_flow (k : Width) (sink : Sink) (size : Size) (s : State) : Flow s (extractStart k sink size s) :=
  .trans (t := s.setAccum 0 0) (.quiet (.of_registers rfl rfl rfl rfl rfl rfl rfl)) (extractRun_flow _ _ _ _)

theorem setBc_flow (n : Count) (s : State) : Flow s (s.setBc n) := .quiet (.of_registers rfl rfl rfl rfl rfl rfl rfl)

theorem setWork_flow (w : Work) (s : State) : Flow s (s.setWork w) := .quiet (setWork_tail w s).quiet

theorem respond_flow (r : Response) (s : State) : Flow s (respond r s) := .quiet (respond_tail r s).quiet

theorem popStop_flow (st : Status) (n : Size) (e : SrcErr) (s : State) : Flow s (popStop st n e s) :=
  .quiet (popStop_tail st n e s).quiet

theorem bytesLoop_flow (n : Count) (left : Nat) (s : State) : Flow s (bytesLoop n left s) := by
  induction left generalizing s with
  | zero => exact respond_flow _ s
  | succ left ih =>
    have hp := Flow.p8 8 s
    rcases bytesLoop_cases n left s with ⟨b, t, u, h8, hb, h⟩ | ⟨b, t, h8, -, h⟩ | ⟨value, nv, t, h8, h⟩ | ⟨e, t, h8, h⟩ |
      ⟨h8, h⟩ <;> rw [h] <;> rw [h8] at hp
    · exact ((hp.trans (.quiet (takeBeat_tail hb).quiet)).trans (setBc_flow _ _)).trans (ih _)
    · exact hp.trans (setWork_flow _ _)
    · exact hp.trans (respond_flow _ _)
    · exact hp.trans (respond_flow _ _)
    · exact setWork_flow _ _

theorem byteEmit_flow (n : Count) (b : Byte) (s : State) : Flow s (byteEmit n b s) := by
  rcases byteEmit_cases n b s with ⟨q, hq, h⟩ | ⟨-, h⟩ <;> rw [h]
  · exact (.trans (.quiet (takeBeat_tail (takeBeat_of_take hq)).quiet) (.trans (setBc_flow _ _) (bytesLoop_flow _ _ _)))
  · exact setWork_flow _ _

theorem illegalRun_flow (p : Position) (s : State) : Flow s (illegalRun p s) := by
  cases p
  · exact respond_flow _ s
  · exact popStop_flow _ _ _ s

theorem instrRun_flow (p : Position) (i : Instr) (s : State) : Flow s (instrRun p i s) := by
  refine instrRun_cases (P := fun _ _ run => Flow s (run s)) (fun p _ => illegalRun_flow p s) (fun k n => ?_)
    (fun n => ?_) (fun n => ?_) ?_ (fun k skip n => ?_) (fun _ _ _ => popStop_flow _ _ _ s) p i
  · have hmode : Flow s (s.setMode .xbits) := .quiet (setMode_tail _ s).quiet
    rcases xbits_cases k n s with ⟨-, h⟩ | ⟨-, h⟩ <;> rw [h]
    · exact hmode.trans (respond_flow _ _)
    · exact hmode.trans (extractStart_flow _ _ _ _)
  · exact .trans (t := (s.setMode .xbytes).setBc 0) (.quiet (.of_registers rfl rfl rfl rfl rfl rfl rfl)) (bytesLoop_flow _ _ _)
  · exact .trans (t := (((s.setMode .pop).setNf n).setFi 0).setSc 0) (.quiet (.of_registers rfl rfl rfl rfl rfl rfl rfl))
      (.quiet (popNext_tail _).quiet)
  · exact (Flow.clear s).trans (respond_flow _ _)
  · rcases fieldStep_cases k skip n s with ⟨-, h⟩ | ⟨-, h⟩ <;> rw [h]
    · exact popStop_flow _ _ _ s
    · exact extractStart_flow _ _ _ s

theorem wordRun_flow (p : Position) (w : Word) (s : State) : Flow s (wordRun p w s) :=
  wordRun_cases (P := fun run => Flow s (run s)) (illegalRun_flow p s) (fun i => instrRun_flow p i s) w

theorem resume_flow (s : State) : Flow s (resume s) := by
  cases hw : s.work with
  | boundary => rw [resume, hw]; exact .refl s
  | extract sink size cs => rw [resume_of_extract hw]; exact extractRun_flow _ _ _ s
  | byteRead n => rw [resume_of_byteRead hw]; exact bytesLoop_flow _ _ s
  | byteBeat n b => rw [resume_of_byteBeat hw]; exact byteEmit_flow n b s
  | slotBeat k value stop => rw [resume_of_slotBeat hw]; exact .quiet (fieldSlot_tail _ _ _ _ s).quiet
  | drain left r => rw [resume_of_drain hw]; exact .quiet (drain_tail _ _ s).quiet
  | respond r => rw [resume_of_respond hw]; exact respond_flow r s

/-- A step with `rst` low is a chain of moves, but for the word it consumes. -/
theorem step_flow {s t : State} (hr : s.rst = false) (h : step s = .next t) :
    (∃ p w rest, s.position = some p ∧ s.cmd = w :: rest ∧ Flow ((dropLate s).consumed p w rest) t) ∨
      ((∀ p, s.position = some p → s.cmd = []) ∧ Flow s t) := by
  rcases step_forms hr h with ⟨p, w, rest, hp, hc, rfl⟩ | ⟨p, -, hc, rfl⟩ | ⟨hw, rfl⟩
  · exact .inl ⟨p, w, rest, hp, hc, wordRun_flow p w _⟩
  · exact .inr ⟨fun _ _ => hc, .drop s⟩
  · exact .inr ⟨fun p hp => absurd hp (by simp [position_of_waiting hw]), (Flow.drop s).trans (resume_flow _)⟩

/-! ### R24: the stale bits of L -/

/-- A byte shifted left by k holds no bits below bit k, and 8 − k bits of it are kept (R91). -/
theorem shiftLeft_mod_stale {k : Nat} (b : Byte) (hk : 1 ≤ k) :
    (BitVec.ofNat 8 (b.toNat <<< k)).toNat % 2 ^ (8 - (BitVec.ofNat 3 (8 - k)).toNat) = 0 := by
  have hv : 8 - (BitVec.ofNat 3 (8 - k)).toNat = min k 8 := by
    rw [BitVec.toNat_ofNat, Nat.mod_eq_of_lt (by omega)]; omega
  have hpow : (2 : Nat) ^ min k 8 ∣ 2 ^ 8 := Nat.pow_dvd_pow 2 (by omega)
  rw [hv, BitVec.toNat_ofNat, Nat.mod_mod_of_dvd _ hpow, Nat.shiftLeft_eq]
  exact Nat.mod_eq_zero_of_dvd ((Nat.pow_dvd_pow 2 (by omega)).mul_left b.toNat)

theorem p8_cursorInv (n : Nat) {s : State} (hc : CursorInv s) : CursorInv (p8 n s).2 := by
  rcases p8_cases n s with ⟨hn, -⟩ | ⟨hn, ⟨b, rest, -, -, h⟩ | ⟨rest, -, -, h⟩ | ⟨e, rest, -, -, h⟩ | ⟨-, h⟩⟩
  · rw [p8_serve hc hn]
    exact State.holding_cursorInv s (by have := s.v.isLt; rw [List.length_drop, State.pending_length]; omega)
  · rw [h]; exact shiftLeft_mod_stale b (by simp only [State.log_v, State.setSrc_v]; omega)
  · rw [h]; rfl
  · rw [h]; rfl
  · rw [h]; exact hc

theorem dropLate_l (s : State) : (dropLate s).l = s.l := by
  rcases dropLate_cases s with ⟨h, -⟩ | ⟨a, rest, -, -, h⟩ <;> rw [h]
  rfl

theorem dropLate_v (s : State) : (dropLate s).v = s.v := by
  rcases dropLate_cases s with ⟨h, -⟩ | ⟨a, rest, -, -, h⟩ <;> rw [h]
  rfl

theorem dropLate_started (s : State) : (dropLate s).started = s.started := by
  rcases dropLate_cases s with ⟨h, -⟩ | ⟨a, rest, -, -, h⟩ <;> rw [h]
  rfl

theorem Flow.cursorInv {s t : State} (h : Flow s t) (hc : CursorInv s) : CursorInv t := by
  induction h with
  | quiet h => rw [CursorInv, h.l, h.v]; exact hc
  | p8 n s => exact p8_cursorInv n hc
  | drop s => rw [CursorInv, dropLate_l, dropLate_v]; exact hc
  | clear s => rfl
  | trans _ _ ih₁ ih₂ => exact ih₂ (ih₁ hc)

/-- The answers are taken in order, each once. -/
theorem Flow.src_suffix {s t : State} (h : Flow s t) : t.src <:+ s.src := by
  induction h with
  | quiet h => rw [h.src]
  | p8 n s =>
    obtain ⟨as, hsrc, -⟩ := (p8_reads n s).reads
    exact ⟨as, hsrc.symm⟩
  | drop s =>
    rcases dropLate_cases s with ⟨h, -⟩ | ⟨a, rest, -, hs, h⟩ <;> rw [h]
    exact ⟨[a], hs.symm⟩
  | clear s => exact List.suffix_refl _
  | trans _ _ ih₁ ih₂ => exact ih₂.trans ih₁

@[simp] theorem State.consumed_l (s : State) (p : Position) (w : Word) (rest : List Word) :
    (s.consumed p w rest).l = s.l := by cases p <;> rfl

@[simp] theorem State.consumed_v (s : State) (p : Position) (w : Word) (rest : List Word) :
    (s.consumed p w rest).v = s.v := by cases p <;> rfl

@[simp] theorem State.consumed_started (s : State) (p : Position) (w : Word) (rest : List Word) :
    (s.consumed p w rest).started = s.started := by cases p <;> rfl

@[simp] theorem State.consumed_src (s : State) (p : Position) (w : Word) (rest : List Word) :
    (s.consumed p w rest).src = s.src := by cases p <;> rfl

/-- Settles O43: P8 keeps R24 on each of its paths, and a step is a chain of P8 calls and of moves that leave the cursor
alone or empty; each of them takes answers from the front of the source only. -/
theorem cursorInvariantIsKept : Obligations.CursorInvariantIsKept := by
  refine ⟨fun n s => p8_cursorInv n, fun s t hc h => ?_⟩
  cases hr : s.rst with
  | true =>
    rw [step_of_rst hr] at h
    cases h
    exact ⟨(Flow.drop (applyReset s)).cursorInv rfl, (Flow.drop (applyReset s)).src_suffix⟩
  | false =>
    rcases step_flow hr h with ⟨p, w, rest, -, -, hf⟩ | ⟨-, hf⟩
    · refine ⟨hf.cursorInv ?_, hf.src_suffix.trans ?_⟩
      · rw [CursorInv, State.consumed_l, State.consumed_v]; exact (Flow.drop s).cursorInv hc
      · rw [State.consumed_src]; exact (Flow.drop s).src_suffix
    · exact ⟨hf.cursorInv hc, hf.src_suffix⟩

/-! ### R25: no bit is pending before the first byte -/

theorem p8_startedInv (n : Nat) {s : State} (hs : StartedInv s) : StartedInv (p8 n s).2 := by
  rcases p8_cases n s with ⟨hn, h⟩ | ⟨-, ⟨b, rest, -, -, h⟩ | ⟨rest, -, -, h⟩ | ⟨e, rest, -, -, h⟩ | ⟨-, h⟩⟩ <;> rw [h]
  · intro h0
    have hv : s.v = 0 := hs h0
    simp [p8Serve, hv]
  · exact fun h0 => absurd h0 (by simp [p8Byte])
  · exact fun _ => rfl
  · exact fun _ => rfl
  · exact hs

theorem Flow.startedInv {s t : State} (h : Flow s t) (hs : StartedInv s) : StartedInv t := by
  induction h with
  | quiet h => rw [StartedInv, h.started, h.v]; exact hs
  | p8 n s => exact p8_startedInv n hs
  | drop s => rw [StartedInv, dropLate_started, dropLate_v]; exact hs
  | clear s => exact fun _ => rfl
  | trans _ _ ih₁ ih₂ => exact ih₂ (ih₁ hs)

/-- Settles O44: a byte sets S, and bits become pending only with a byte; CLEAR and a reset leave none. -/
theorem stepKeepsStartedInvariant : Obligations.StepKeepsStartedInvariant := by
  intro s t hs h
  cases hr : s.rst with
  | true =>
    rw [step_of_rst hr] at h
    cases h
    exact (Flow.drop (applyReset s)).startedInv fun _ => rfl
  | false =>
    rcases step_flow hr h with ⟨p, w, rest, -, -, hf⟩ | ⟨-, hf⟩
    · refine hf.startedInv ?_
      rw [StartedInv, State.consumed_started, State.consumed_v]
      exact (Flow.drop s).startedInv hs
    · exact hf.startedInv hs

/-! ### R34: the trace grows, and commands are logged at their acceptance only -/

/-- A chain of moves appends to the trace, and accepts no command. -/
theorem Flow.trace {s t : State} (h : Flow s t) :
    ∃ es, t.trace = s.trace ++ es ∧ ∀ e ∈ es, e.isCommand = false := by
  induction h with
  | quiet h =>
    obtain ⟨es, htr, hes⟩ := h.trace
    refine ⟨es, htr, fun e he => ?_⟩
    have hkind := hes e he
    cases e with
    | command w => simp [Event.isBeat, Event.isResponse] at hkind
    | read | beat | response => rfl
  | p8 n s =>
    obtain ⟨as, -, htr⟩ := (p8_reads n s).reads
    exact ⟨as.map .read, htr, by simp [Event.isCommand]⟩
  | drop s =>
    rcases dropLate_cases s with ⟨h, -⟩ | ⟨a, rest, -, -, h⟩ <;> rw [h]
    · exact ⟨[], by simp⟩
    · exact ⟨[.read a], rfl, by simp [Event.isCommand]⟩
  | clear s => exact ⟨[], by simp⟩
  | trans _ _ ih₁ ih₂ =>
    obtain ⟨es, htr, hes⟩ := ih₁
    obtain ⟨fs, htr', hfs⟩ := ih₂
    exact ⟨es ++ fs, by rw [htr', htr, List.append_assoc],
      fun e he => (List.mem_append.mp he).elim (hes e) (hfs e)⟩

theorem Flow.commands {s t : State} (h : Flow s t) : t.commands = s.commands := by
  obtain ⟨es, htr, hes⟩ := h.trace
  have hnone : es.countP Event.isCommand = 0 := List.countP_eq_zero.mpr fun e he => by simp [hes e he]
  rw [State.commands, htr, List.countP_append, hnone]; rfl

theorem Flow.trace_prefix {s t : State} (h : Flow s t) : s.trace <+: t.trace := by
  obtain ⟨es, htr, -⟩ := h.trace
  exact ⟨es, htr.symm⟩

theorem State.consumed_trace_prefix (s : State) (p : Position) (w : Word) (rest : List Word) :
    s.trace <+: (s.consumed p w rest).trace := by
  cases p
  · exact ⟨_, rfl⟩
  · exact List.prefix_refl _

/-- Settles O48: every move appends, and so does the consumption of a word; a reset leaves the trace as it is. -/
theorem stepNeverRewritesTheTrace : Obligations.StepNeverRewritesTheTrace := by
  intro s t h
  cases hr : s.rst with
  | true =>
    rw [step_of_rst hr] at h
    cases h
    exact (Flow.drop (applyReset s)).trace_prefix
  | false =>
    rcases step_flow hr h with ⟨p, w, rest, -, -, hf⟩ | ⟨-, hf⟩
    · exact ((Flow.drop s).trace_prefix.trans (State.consumed_trace_prefix _ p w rest)).trans hf.trace_prefix
    · exact hf.trace_prefix

theorem State.consumed_commands (s : State) (p : Position) (w : Word) (rest : List Word) :
    (s.consumed p w rest).commands = s.commands + if p = .command then 1 else 0 := by
  cases p
  · simp [State.consumed, State.commands, Event.isCommand]
  · simp [State.consumed, State.commands]

/-- Settles O49: of all a step does, only the consumption of a word at a command position logs a command. -/
theorem commandsAreAcceptedOnlyWhenIdle : Obligations.CommandsAreAcceptedOnlyWhenIdle := by
  intro s t h
  refine ⟨?_, by simp [State.cmdReady], fun hp => (position_eq_command.mp hp).2⟩
  cases hr : s.rst with
  | true =>
    rw [step_of_rst hr] at h
    cases h
    have hcmd : (dropLate (applyReset s)).commands = s.commands := (Flow.drop (applyReset s)).commands
    simpa using hcmd
  | false =>
    rcases step_flow hr h with ⟨p, w, rest, hp, hc, hf⟩ | ⟨hno, hf⟩
    · rw [hf.commands, State.consumed_commands, (Flow.drop s).commands, hp, hc]
      simp
    · rw [hf.commands, if_neg fun ⟨_, hp, hc⟩ => hc (hno _ hp), Nat.add_zero]

end Sys2Proof.Machine
end

section
/-!
PROOFS. The control invariant: where each operation that ends or suspends an instruction leaves the core, and that every
step agrees with MODE and the counters (spec/10_state.md R26, R27, R29; spec/70_reset_and_hazards.md R164, R146).
-/

namespace Sys2Proof.Machine

/-! ### The sequencer's counters -/

/-- The sequencer is inside a POPULATE, before the end of a descriptor: at most one slot more than FI is emitted (R121). -/
structure InPopulate (s : State) : Prop where
  mode : s.mode = .pop
  fi : s.fi.toNat < s.nf.toNat
  sc : s.sc.toNat ≤ s.fi.toNat + 1

/-- The sequencer is at a descriptor that has emitted no slot yet (R128). -/
structure InField (s : State) : Prop where
  mode : s.mode = .pop
  fi : s.fi.toNat < s.nf.toNat
  sc : s.sc.toNat ≤ s.fi.toNat

theorem InField.inPopulate {s : State} (h : InField s) : InPopulate s := ⟨h.mode, h.fi, Nat.le_succ_of_le h.sc⟩

theorem atField_iff {s : State} : atField s = true ↔ InField s := by
  simp only [atField, Bool.and_eq_true, decide_eq_true_eq, BitVec.lt_def, BitVec.le_def]
  exact ⟨fun ⟨⟨hm, hf⟩, hs⟩ => ⟨hm, hf, hs⟩, fun ⟨hm, hf, hs⟩ => ⟨⟨hm, hf⟩, hs⟩⟩

theorem succ_toNat_of_lt {w : Nat} {x y : BitVec w} (h : x.toNat < y.toNat) : (x + 1).toNat = x.toNat + 1 := by
  have hy := y.isLt
  have hw : 0 < w := by
    rcases Nat.eq_zero_or_pos w with rfl | hw
    · omega
    · exact hw
  have hone : (1 : BitVec w).toNat = 1 := BitVec.toNat_one hw
  rw [BitVec.toNat_add, hone, Nat.mod_eq_of_lt (by omega)]

/-! ### The ends of an instruction -/

theorem respond_control (r : Response) (s : State) : ControlInv (respond r s) := by
  rcases respond_cases r s with ⟨q, -, h⟩ | ⟨-, h⟩ <;> rw [h] <;> rfl

theorem drain_control {left : Nat} {r : Response} {s : State} (hs : InPopulate s) (hr : r.status ≠ .ok) :
    ControlInv (drain left r s) := by
  rcases drain_cases left r s with ⟨-, h⟩ | ⟨hlt, h⟩ <;> rw [h]
  · exact respond_control _ _
  · simp only [ControlInv, controlOk, State.setWork_work, Bool.and_eq_true, decide_eq_true_eq]
    exact ⟨⟨⟨⟨hs.mode, hs.fi⟩, hs.sc⟩, by omega⟩, hr⟩

theorem popStop_control {st : Status} (n : Size) (e : SrcErr) {s : State} (hs : InPopulate s) (hst : st ≠ .ok) :
    ControlInv (popStop st n e s) := drain_control hs hst

theorem popNext_control {s : State} (hm : s.mode = .pop) (hsc : s.sc.toNat ≤ s.fi.toNat) : ControlInv (popNext s) := by
  rcases popNext_cases s with ⟨hlt, h⟩ | ⟨-, h⟩ <;> rw [h]
  · have hfield : InField (s.setWork .boundary) := ⟨hm, hlt, hsc⟩
    simp [ControlInv, controlOk, atField_iff.mpr hfield]
  · exact respond_control _ _

theorem fieldEnd_control (stop : Option Size) {s : State} (hs : InPopulate s) : ControlInv (fieldEnd stop s) := by
  cases stop with
  | none =>
    refine popNext_control hs.mode ?_
    simp only [State.setFi_sc, State.setFi_fi, succ_toNat_of_lt hs.fi]
    exact hs.sc
  | some n => exact popStop_control _ _ hs (by decide)

theorem fieldSlot_control (k : Width) (skip : Bool) (value : Value) (stop : Option Size) {s : State} (hs : InField s) :
    ControlInv (fieldSlot k skip value stop s) := by
  unfold fieldSlot
  split
  · exact fieldEnd_control stop hs.inPopulate
  · split
    · rename_i t ht
      obtain ⟨q, -, rfl⟩ := takeBeat_eq_some ht
      refine fieldEnd_control stop ⟨hs.mode, hs.fi, ?_⟩
      have hsc := hs.sc
      simp only [State.setSc_sc, State.log_sc, State.setOutReady_sc, State.setSc_fi, State.log_fi, State.setOutReady_fi,
        succ_toNat_of_lt (Nat.lt_of_le_of_lt hs.sc hs.fi)]
      omega
    · exact atField_iff.mpr ⟨hs.mode, hs.fi, hs.sc⟩

/-! ### Extractions -/

/-- A P8 that waits asks for more than is pending, and could not make its read. -/
theorem p8_eq_wait {n : Nat} {s t : State} (h : p8 n s = (.wait, t)) : s.v.toNat < n ∧ srcRead s = none := by
  rcases p8_cases n s with ⟨-, h'⟩ | ⟨hn, ⟨b, rest, -, -, h'⟩ | ⟨rest, -, -, h'⟩ | ⟨e, rest, -, -, h'⟩ | ⟨hr, -⟩⟩
  · exact absurd (congrArg Prod.fst (h.symm.trans h')) (by simp [p8Serve])
  · exact absurd (congrArg Prod.fst (h.symm.trans h')) (by simp [p8Byte])
  · exact absurd (congrArg Prod.fst (h.symm.trans h')) (by simp [p8Eof])
  · exact absurd (congrArg Prod.fst (h.symm.trans h')) (by simp [p8Err])
  · exact ⟨hn, hr⟩

/-- An XW that waits, waits for the read of a chunk longer than the pending bits (R42, R43), which it could not make. -/
theorem xwLoop_eq_wait {cs left : List Nat} {s t : State} (h : xwLoop cs s = (.wait left, t)) :
    left <:+ cs ∧ t.v.toNat < left.headD 0 ∧ srcRead t = none := by
  induction cs generalizing s with
  | nil => simp [xwLoop] at h
  | cons c cs ih =>
    rcases hp : p8 c s with ⟨r, u⟩
    cases r with
    | ok value =>
      simp only [xwLoop, hp] at h
      obtain ⟨hsuf, hrest⟩ := ih h
      exact ⟨hsuf.trans (List.suffix_cons c cs), hrest⟩
    | exhausted value nv => simp [xwLoop, hp] at h
    | sourceError e => simp [xwLoop, hp] at h
    | wait =>
      simp only [xwLoop, hp, Prod.mk.injEq, XwResult.wait.injEq] at h
      obtain ⟨rfl, rfl⟩ := h
      obtain rfl := p8_wait_state hp
      exact ⟨List.suffix_refl _, p8_eq_wait hp⟩

/-- The chunks still to be made of an extraction of `size` bits. -/
structure PlanOf (size : Size) (cs : List Nat) : Prop where
  plan : Plan cs
  sum_le : cs.sum ≤ size.toNat
  size_le : size.toNat ≤ 64

theorem planBusy_iff {v : BitVec 3} {size : Size} {cs : List Nat} :
    planBusy v size cs = true ↔ PlanOf size cs ∧ v.toNat < cs.headD 0 := by
  simp only [planBusy, Bool.and_eq_true, List.all_eq_true, decide_eq_true_eq]
  exact ⟨fun ⟨⟨⟨hp, hs⟩, h64⟩, hv⟩ => ⟨⟨hp, hs, h64⟩, hv⟩, fun ⟨⟨hp, hs, h64⟩, hv⟩ => ⟨⟨⟨hp, hs⟩, h64⟩, hv⟩⟩

theorem PlanOf.suffix {size : Size} {cs left : List Nat} (h : PlanOf size cs) (hs : left <:+ cs) : PlanOf size left := by
  obtain ⟨front, rfl⟩ := hs
  have hsum := h.sum_le
  rw [List.sum_append] at hsum
  exact ⟨fun c hc => h.plan c (List.mem_append_right _ hc), by omega, h.size_le⟩

theorem sizeBad_legal {k : Width} {size : Size} (h : sizeBad k size = false) :
    1 ≤ size.toNat ∧ size.toNat ≤ k.bits := by
  rw [← Bool.not_eq_true, sizeBad_eq_true, not_or] at h
  omega

theorem planOf_chunks {k : Width} {size : Size} (h : sizeBad k size = false) : PlanOf size (chunks k size.toNat) := by
  obtain ⟨h1, h2⟩ := sizeBad_legal h
  obtain ⟨hp, hsum, -⟩ := chunks_plan h1 h2
  exact ⟨hp, by omega, by have := Width.bits_le k; omega⟩

/-- What an extraction needs of the state for its end to agree with MODE and the counters. -/
def SinkOk (size : Size) (s : State) : Sink → Prop
  | .xbits => s.mode = .xbits
  | .field k _ => InField s ∧ size.toNat ≤ k.bits

theorem SinkOk.of_reads {size : Size} {s t : State} {sink : Sink} (h : SinkOk size s sink) (hf : ReadFrame s t) :
    SinkOk size t sink := by
  cases sink with
  | xbits => exact hf.mode.trans h
  | field k skip =>
    obtain ⟨⟨hm, hfi, hsc⟩, hsize⟩ := h
    exact ⟨⟨by rw [hf.mode, hm], by rw [hf.fi, hf.nf]; exact hfi, by rw [hf.fi, hf.sc]; exact hsc⟩, hsize⟩

theorem extractEnd_control {sink : Sink} {size : Size} {r : XwResult} {s : State} (hs : SinkOk size s sink)
    (hwait : ∀ cs, r = .wait cs → planBusy s.v size cs = true) : ControlInv (extractEnd sink size r s) := by
  cases sink with
  | xbits =>
    cases r with
    | ok | exhausted | sourceError => exact respond_control _ _
    | wait cs =>
      have hm : s.mode = .xbits := hs
      simp [extractEnd, ControlInv, controlOk, hm, hwait cs rfl]
  | field k skip =>
    obtain ⟨hfield, hsize⟩ := hs
    cases r with
    | ok value => exact fieldSlot_control _ _ _ _ hfield
    | exhausted value nv => exact fieldSlot_control _ _ _ _ hfield
    | sourceError e => exact popStop_control _ _ hfield.inPopulate (by decide)
    | wait cs =>
      have hat : atField (s.setWork (.extract (.field k skip) size cs)) = true :=
        atField_iff.mpr ⟨hfield.mode, hfield.fi, hfield.sc⟩
      simp [extractEnd, ControlInv, controlOk, hat, hwait cs rfl, hsize]

theorem extractRun_control {sink : Sink} {size : Size} {cs : List Nat} {s : State} (hs : SinkOk size s sink)
    (hp : PlanOf size cs) : ControlInv (extractRun sink size cs s) := by
  refine extractEnd_control (hs.of_reads (xwLoop_reads cs s)) fun left hw => ?_
  obtain ⟨hsuf, hv, -⟩ := xwLoop_eq_wait (Prod.ext hw rfl)
  exact planBusy_iff.mpr ⟨hp.suffix hsuf, hv⟩

/-! ### The loop of XBYTES -/

theorem p8_reads_of_eq {n : Nat} {s t : State} {r : P8Result} (h : p8 n s = (r, t)) : ReadFrame s t := by
  simpa [h] using p8_reads n s

theorem bytesLoop_control {n : Count} {left : Nat} {s : State} (hm : s.mode = .xbytes)
    (hleft : left = n.toNat - s.bc.toNat) : ControlInv (bytesLoop n left s) := by
  induction left generalizing s with
  | zero => exact respond_control _ _
  | succ left ih =>
    have hlt : s.bc.toNat < n.toNat := by omega
    rcases bytesLoop_cases n left s with ⟨b, t, u, h8, hb, h⟩ | ⟨b, t, h8, -, h⟩ | ⟨value, nv, t, -, h⟩ | ⟨e, t, -, h⟩ |
      ⟨-, h⟩ <;> rw [h]
    · obtain ⟨q, -, rfl⟩ := takeBeat_eq_some hb
      have hp := p8_reads_of_eq h8
      refine ih (hp.mode.trans hm) ?_
      simp only [State.setBc_bc, State.log_bc, State.setOutReady_bc, hp.bc, succ_toNat_of_lt hlt]
      omega
    · have hp := p8_reads_of_eq h8
      simp [ControlInv, controlOk, hp.mode, hp.bc, hm, BitVec.lt_def, hlt]
    · exact respond_control _ _
    · exact respond_control _ _
    · simp [ControlInv, controlOk, hm, BitVec.lt_def, hlt]

theorem byteEmit_control {n : Count} {b : Byte} {s : State} (hm : s.mode = .xbytes) (hlt : s.bc.toNat < n.toNat) :
    ControlInv (byteEmit n b s) := by
  rcases byteEmit_cases n b s with ⟨q, -, h⟩ | ⟨-, h⟩ <;> rw [h]
  · exact bytesLoop_control hm rfl
  · simp [ControlInv, controlOk, hm, BitVec.lt_def, hlt]

/-! ### The step -/

/-- What the control invariant says at a position: at a descriptor, the sequencer's counters agree. -/
theorem ControlInv.inField {s : State} (h : ControlInv s) (hp : s.position = some .descriptor) : InField s := by
  obtain ⟨hw, hm, -⟩ := position_eq_descriptor.mp hp
  rw [← atField_iff]
  simpa [ControlInv, controlOk, hw, hm] using h

theorem illegalRun_control {p : Position} {s : State} (hs : p = .descriptor → InField s) :
    ControlInv (illegalRun p s) := by
  cases p with
  | command => exact respond_control _ _
  | descriptor => exact popStop_control _ _ (hs rfl).inPopulate (by decide)

theorem instrRun_control {p : Position} {s : State} (hs : p = .descriptor → InField s) (i : Instr) :
    ControlInv (instrRun p i s) := by
  refine instrRun_cases (P := fun p _ run => (p = .descriptor → InField s) → ControlInv (run s))
    (fun p _ => illegalRun_control) (fun k n _ => ?_) (fun n _ => bytesLoop_control rfl rfl)
    (fun n _ => popNext_control rfl (Nat.le_refl 0)) (fun _ => respond_control _ _) (fun k skip n hf => ?_)
    (fun _ _ _ hf => popStop_control _ _ (hf rfl).inPopulate (by decide)) p i hs
  · rcases xbits_cases k n s with ⟨-, h⟩ | ⟨hok, h⟩ <;> rw [h]
    · exact respond_control _ _
    · exact extractRun_control (rfl : SinkOk n ((s.setMode .xbits).setAccum 0 0) .xbits) (planOf_chunks hok)
  · rcases fieldStep_cases k skip n s with ⟨-, h⟩ | ⟨hok, h⟩ <;> rw [h]
    · exact popStop_control _ _ (hf rfl).inPopulate (by decide)
    · have hfield : InField (s.setAccum 0 0) := ⟨(hf rfl).mode, (hf rfl).fi, (hf rfl).sc⟩
      exact extractRun_control (sink := .field k skip) ⟨hfield, (sizeBad_legal hok).2⟩ (planOf_chunks hok)

theorem wordRun_control {p : Position} {s : State} (hs : p = .descriptor → InField s) (w : Word) :
    ControlInv (wordRun p w s) :=
  wordRun_cases (P := fun run => ControlInv (run s)) (illegalRun_control hs) (instrRun_control hs) w

theorem resume_control {s : State} (h : ControlInv s) : ControlInv (resume s) := by
  have h' := h
  rw [ControlInv, controlOk] at h'
  cases hw : s.work with
  | boundary => rw [resume, hw]; exact h
  | extract sink size cs =>
    rw [resume_of_extract hw]
    cases sink with
    | xbits =>
      simp only [hw, Bool.and_eq_true, decide_eq_true_eq] at h'
      exact extractRun_control h'.1 (planBusy_iff.mp h'.2).1
    | field k skip =>
      simp only [hw, Bool.and_eq_true, decide_eq_true_eq] at h'
      obtain ⟨⟨hat, hbusy⟩, hsize⟩ := h'
      exact extractRun_control ⟨atField_iff.mp hat, hsize⟩ (planBusy_iff.mp hbusy).1
  | byteRead n =>
    simp only [hw, Bool.and_eq_true, decide_eq_true_eq] at h'
    rw [resume_of_byteRead hw]
    exact bytesLoop_control h'.1 rfl
  | byteBeat n b =>
    simp only [hw, Bool.and_eq_true, decide_eq_true_eq] at h'
    rw [resume_of_byteBeat hw]
    exact byteEmit_control h'.1 h'.2
  | slotBeat k value stop =>
    simp only [hw] at h'
    rw [resume_of_slotBeat hw]
    exact fieldSlot_control _ _ _ _ (atField_iff.mp h')
  | drain left r =>
    simp only [hw, Bool.and_eq_true, decide_eq_true_eq] at h'
    obtain ⟨⟨⟨⟨hm, hfi⟩, hsc⟩, -⟩, hst⟩ := h'
    rw [resume_of_drain hw]
    exact drain_control ⟨hm, hfi, hsc⟩ hst
  | respond r => rw [resume_of_respond hw]; exact respond_control _ _

theorem dropLate_control {s : State} (h : ControlInv s) : ControlInv (dropLate s) := by
  rcases dropLate_cases s with ⟨h', -⟩ | ⟨a, rest, -, -, h'⟩ <;> rw [h'] <;> exact h

theorem State.consumed_control {s : State} (h : ControlInv s) (p : Position) (w : Word) (rest : List Word) :
    ControlInv (s.consumed p w rest) := by
  cases p <;> exact h

/-- Settles O45: a word runs from the invariant at its position, a command goes on from the invariant at its place, and a
reset leaves the boundary with MODE IDLE. -/
theorem stepKeepsControlInvariant : Obligations.StepKeepsControlInvariant := by
  intro s t hc h
  cases hr : s.rst with
  | true =>
    rw [step_of_rst hr] at h
    cases h
    exact dropLate_control (s := applyReset s) rfl
  | false =>
    rcases step_forms hr h with ⟨p, w, rest, hp, -, rfl⟩ | ⟨p, -, -, rfl⟩ | ⟨-, rfl⟩
    · refine wordRun_control (fun hd => ?_) w
      have hinv := State.consumed_control (dropLate_control hc) p w rest
      exact hinv.inField (by rw [State.consumed_position, dropLate_position, hp, hd])
    · exact dropLate_control hc
    · exact resume_control (dropLate_control hc)

/-- At the boundary the control invariant gives a position. -/
theorem ControlInv.position_of_boundary {s : State} (h : ControlInv s) (hw : s.work = .boundary) :
    ∃ p, s.position = some p := by
  simp only [ControlInv, controlOk, hw, Bool.or_eq_true, decide_eq_true_eq] at h
  rcases h with hm | hat
  · exact ⟨.command, position_eq_command.mpr ⟨hw, hm⟩⟩
  · obtain ⟨hm, hfi, -⟩ := atField_iff.mp hat
    exact ⟨.descriptor, position_eq_descriptor.mpr ⟨hw, hm, hfi⟩⟩

/-- Settles O46: each of the forms of a step answers a next state, and the invariant leaves no other. -/
theorem noConditionStopsTheMachine : Obligations.NoConditionStopsTheMachine := by
  intro s hc
  cases hr : s.rst with
  | true => exact ⟨_, step_of_rst hr⟩
  | false =>
    by_cases hw : s.work = .boundary
    · obtain ⟨p, hp⟩ := hc.position_of_boundary hw
      cases hcmd : s.cmd with
      | nil => exact ⟨_, step_of_no_word hr hp hcmd⟩
      | cons w rest => exact ⟨_, step_of_word hr hp hcmd⟩
    · exact ⟨_, step_of_waiting hr hw⟩

end Sys2Proof.Machine
end

section
/-!
PROOFS. One response per command (spec/30_encoding.md R75, spec/20_memory.md R53), and the words of the command stream
that a POPULATE consumes (spec/41_sequencer.md R130, spec/10_state.md R29).
-/

namespace Sys2Proof.Machine

/-! ### Each instruction ends with one response or is still in progress -/

/-- From `s` to `t` an instruction runs: it has ended with one response, its last event, and left the core at a command
position; or it has sent none and the core is elsewhere. -/
def RespondsOnce (s t : State) : Prop :=
  (t.position = some .command ∧ t.responses = s.responses + 1 ∧ lastAnswered t.trace = true) ∨
    (t.position ≠ some .command ∧ t.responses = s.responses)

theorem RespondsOnce.of_responses_eq {s t u : State} (h : t.responses = s.responses) (k : RespondsOnce t u) :
    RespondsOnce s u := by
  rw [RespondsOnce, h] at k; exact k

/-- An instruction that waits has sent no response yet. -/
theorem respondsOnce_of_waiting {s t : State} (hw : t.work ≠ .boundary) (h : t.responses = s.responses) :
    RespondsOnce s t :=
  .inr ⟨by simp [position_of_waiting hw], h⟩

theorem ReadFrame.responses {s t : State} (h : ReadFrame s t) : t.responses = s.responses := by
  obtain ⟨as, -, htr⟩ := h.reads
  have hnone : (as.map Event.read).countP Event.isResponse = 0 := by
    simp [List.countP_eq_zero, Event.isResponse]
  rw [State.responses, htr, List.countP_append, hnone]; rfl

theorem takeBeat_responses {b : Beat} {s t : State} (h : takeBeat b s = some t) : t.responses = s.responses := by
  obtain ⟨q, -, rfl⟩ := takeBeat_eq_some h
  simp [State.responses, Event.isResponse]

theorem respond_once (r : Response) (s : State) : RespondsOnce s (respond r s) := by
  rcases respond_cases r s with ⟨q, -, h⟩ | ⟨-, h⟩ <;> rw [h]
  · exact .inl ⟨position_eq_command.mpr ⟨rfl, rfl⟩, by simp [State.responses, Event.isResponse], by simp⟩
  · exact respondsOnce_of_waiting (by simp) rfl

theorem drain_once (left : Nat) (r : Response) (s : State) : RespondsOnce s (drain left r s) := by
  rcases drain_cases left r s with ⟨-, h⟩ | ⟨-, h⟩ <;> rw [h]
  · exact respond_once r _
  · exact respondsOnce_of_waiting (by simp) rfl

theorem popStop_once (st : Status) (n : Size) (e : SrcErr) (s : State) : RespondsOnce s (popStop st n e s) :=
  drain_once _ _ s

theorem popNext_once {s : State} (hm : s.mode = .pop) : RespondsOnce s (popNext s) := by
  rcases popNext_cases s with ⟨-, h⟩ | ⟨-, h⟩ <;> rw [h]
  · exact .inr ⟨fun hp => absurd (position_eq_command.mp hp).2 (by simp [hm]), rfl⟩
  · exact respond_once _ s

theorem fieldEnd_once (stop : Option Size) {s : State} (hm : s.mode = .pop) : RespondsOnce s (fieldEnd stop s) := by
  cases stop with
  | none => exact popNext_once (s := s.setFi (s.fi + 1)) hm
  | some n => exact popStop_once _ _ _ s

theorem fieldSlot_once (k : Width) (skip : Bool) (value : Value) (stop : Option Size) {s : State} (hm : s.mode = .pop) :
    RespondsOnce s (fieldSlot k skip value stop s) := by
  unfold fieldSlot
  split
  · exact fieldEnd_once stop hm
  · split
    · rename_i t ht
      have hm' : t.mode = .pop := by obtain ⟨q, -, rfl⟩ := takeBeat_eq_some ht; exact hm
      exact (fieldEnd_once stop (s := t.setSc (t.sc + 1)) hm').of_responses_eq (takeBeat_responses ht)
    · exact respondsOnce_of_waiting (by simp) rfl

theorem extractEnd_once {sink : Sink} {size : Size} (r : XwResult) {s : State} (hs : SinkOk size s sink) :
    RespondsOnce s (extractEnd sink size r s) := by
  cases sink with
  | xbits =>
    cases r with
    | ok | exhausted | sourceError => exact respond_once _ s
    | wait cs => exact respondsOnce_of_waiting (by simp [extractEnd]) rfl
  | field k skip =>
    cases r with
    | ok value => exact fieldSlot_once _ _ _ _ hs.1.mode
    | exhausted value nv => exact fieldSlot_once _ _ _ _ hs.1.mode
    | sourceError e => exact popStop_once _ _ _ s
    | wait cs => exact respondsOnce_of_waiting (by simp [extractEnd]) rfl

theorem extractRun_once {sink : Sink} {size : Size} (cs : List Nat) {s : State} (hs : SinkOk size s sink) :
    RespondsOnce s (extractRun sink size cs s) :=
  (extractEnd_once _ (hs.of_reads (xwLoop_reads cs s))).of_responses_eq (xwLoop_reads cs s).responses

theorem bytesLoop_once (n : Count) (left : Nat) (s : State) : RespondsOnce s (bytesLoop n left s) := by
  induction left generalizing s with
  | zero => exact respond_once _ s
  | succ left ih =>
    rcases bytesLoop_cases n left s with ⟨b, t, u, h8, hb, h⟩ | ⟨b, t, h8, -, h⟩ | ⟨value, nv, t, h8, h⟩ | ⟨e, t, h8, h⟩ |
      ⟨h8, h⟩ <;> rw [h] <;> have hresp := (p8_reads_of_eq h8).responses
    · exact (ih _).of_responses_eq ((takeBeat_responses hb).trans hresp)
    · exact respondsOnce_of_waiting (by simp) hresp
    · exact (respond_once _ t).of_responses_eq hresp
    · exact (respond_once _ t).of_responses_eq hresp
    · exact respondsOnce_of_waiting (by simp) hresp

theorem byteEmit_once (n : Count) (b : Byte) (s : State) : RespondsOnce s (byteEmit n b s) := by
  rcases byteEmit_cases n b s with ⟨q, hq, h⟩ | ⟨-, h⟩ <;> rw [h]
  · exact (bytesLoop_once n _ _).of_responses_eq (takeBeat_responses (takeBeat_of_take hq))
  · exact respondsOnce_of_waiting (by simp) rfl

theorem illegalRun_once (p : Position) (s : State) : RespondsOnce s (illegalRun p s) := by
  cases p
  · exact respond_once _ s
  · exact popStop_once _ _ _ s

theorem instrRun_once {p : Position} {s : State} (hs : p = .descriptor → InField s) (i : Instr) :
    RespondsOnce s (instrRun p i s) := by
  refine instrRun_cases (P := fun p _ run => (p = .descriptor → InField s) → RespondsOnce s (run s))
    (fun p _ _ => illegalRun_once p s) (fun k n _ => ?_) (fun n _ => bytesLoop_once _ _ _)
    (fun n _ => popNext_once rfl) (fun _ => respond_once _ _) (fun k skip n hf => ?_)
    (fun _ _ _ _ => popStop_once _ _ _ s) p i hs
  · rcases xbits_cases k n s with ⟨-, h⟩ | ⟨-, h⟩ <;> rw [h]
    · exact respond_once _ _
    · exact extractRun_once _ (rfl : SinkOk n ((s.setMode .xbits).setAccum 0 0) .xbits)
  · rcases fieldStep_cases k skip n s with ⟨-, h⟩ | ⟨hok, h⟩ <;> rw [h]
    · exact popStop_once _ _ _ s
    · have hfield : InField (s.setAccum 0 0) := ⟨(hf rfl).mode, (hf rfl).fi, (hf rfl).sc⟩
      exact extractRun_once (s := s.setAccum 0 0) (sink := .field k skip) _ ⟨hfield, (sizeBad_legal hok).2⟩

theorem wordRun_once {p : Position} {s : State} (hs : p = .descriptor → InField s) (w : Word) :
    RespondsOnce s (wordRun p w s) :=
  wordRun_cases (P := fun run => RespondsOnce s (run s)) (illegalRun_once p s) (instrRun_once hs) w

/-- What the control invariant says of an extraction that waits. -/
theorem ControlInv.sinkOk {s : State} (h : ControlInv s) {sink : Sink} {size : Size} {cs : List Nat}
    (hw : s.work = .extract sink size cs) : SinkOk size s sink ∧ PlanOf size cs ∧ s.v.toNat < cs.headD 0 := by
  rw [ControlInv, controlOk, hw] at h
  cases sink with
  | xbits =>
    simp only [Bool.and_eq_true, decide_eq_true_eq, planBusy_iff] at h
    exact h
  | field k skip =>
    simp only [Bool.and_eq_true, decide_eq_true_eq, planBusy_iff, atField_iff] at h
    obtain ⟨⟨hf, hp⟩, hsize⟩ := h
    exact ⟨⟨hf, hsize⟩, hp⟩

theorem resume_once {s : State} (h : ControlInv s) (hb : s.work ≠ .boundary) : RespondsOnce s (resume s) := by
  cases hw : s.work with
  | boundary => exact absurd hw hb
  | extract sink size cs => rw [resume_of_extract hw]; exact extractRun_once cs (h.sinkOk hw).1
  | byteRead n => rw [resume_of_byteRead hw]; exact bytesLoop_once _ _ s
  | byteBeat n b => rw [resume_of_byteBeat hw]; exact byteEmit_once n b s
  | slotBeat k value stop =>
    have hat : InField s := by rw [ControlInv, controlOk, hw] at h; exact atField_iff.mp h
    rw [resume_of_slotBeat hw]
    exact fieldSlot_once _ _ _ _ hat.mode
  | drain left r => rw [resume_of_drain hw]; exact drain_once _ _ s
  | respond r => rw [resume_of_respond hw]; exact respond_once r s

/-! ### The balance of commands and responses -/

theorem State.inProgress_of_command {s : State} (h : s.position = some .command) : s.inProgress = 0 := if_pos h

theorem State.inProgress_of_ne {s : State} (h : s.position ≠ some .command) : s.inProgress = 1 := if_neg h

theorem dropLate_responses (s : State) : (dropLate s).responses = s.responses := by
  rcases dropLate_cases s with ⟨h, -⟩ | ⟨a, rest, -, -, h⟩ <;> rw [h]
  simp [State.responses, Event.isResponse]

theorem dropLate_lastAnswered (s : State) : lastAnswered (dropLate s).trace = lastAnswered s.trace := by
  rcases dropLate_cases s with ⟨h, -⟩ | ⟨a, rest, -, -, h⟩ <;> rw [h]
  exact lastAnswered_read _ a

theorem State.consumed_responses (s : State) (p : Position) (w : Word) (rest : List Word) :
    (s.consumed p w rest).responses = s.responses := by
  cases p <;> simp [State.consumed, State.responses, Event.isResponse]

/-- An instruction that was in progress and responds once keeps the balance. -/
theorem RespondsOnce.balance {s t : State} (h : RespondsOnce s t) : t.inProgress + t.responses = 1 + s.responses := by
  rcases h with ⟨hp, hr, -⟩ | ⟨hp, hr⟩
  · rw [State.inProgress_of_command hp, hr]; omega
  · rw [State.inProgress_of_ne hp, hr]

/-- What a step adds to the commands it adds to the responses, but for the command in progress before and after it. -/
theorem step_balance {s t : State} (hr : s.rst = false) (hc : ControlInv s) (h : step s = .next t) :
    t.commands + s.responses + s.inProgress = s.commands + t.responses + t.inProgress := by
  have hdrop := (Flow.drop s).commands
  have hdropr := dropLate_responses s
  rcases step_forms hr h with ⟨p, w, rest, hp, -, rfl⟩ | ⟨p, hp, -, rfl⟩ | ⟨hw, rfl⟩
  · have hinv := State.consumed_control (dropLate_control hc) p w rest
    have hpos : ((dropLate s).consumed p w rest).position = some p := by
      rw [State.consumed_position, dropLate_position, hp]
    have hfield : p = .descriptor → InField ((dropLate s).consumed p w rest) := fun hd =>
      hinv.inField (by rw [hpos, hd])
    have honce := (wordRun_once hfield w).balance
    have hcmds := (wordRun_flow p w ((dropLate s).consumed p w rest)).commands
    rw [State.consumed_responses, hdropr] at honce
    rw [State.consumed_commands, hdrop] at hcmds
    cases p with
    | command =>
      rw [State.inProgress_of_command hp]
      rw [if_pos rfl] at hcmds
      omega
    | descriptor =>
      rw [State.inProgress_of_ne (by simp [hp])]
      rw [if_neg (by decide)] at hcmds
      omega
  · rw [hdrop, hdropr, State.inProgress, State.inProgress, dropLate_position]
  · have honce := (resume_once (dropLate_control hc) (by rwa [dropLate_work])).balance
    have hcmds := (resume_flow (dropLate s)).commands
    rw [State.inProgress_of_ne (by simp [position_of_waiting hw])]
    omega

/-- Where a step leads to a command position, the last command has been answered, unless nothing was there to take. -/
theorem step_lastAnswered {s t : State} (hr : s.rst = false) (hc : ControlInv s) (h : step s = .next t)
    (ht : t.position = some .command) :
    lastAnswered t.trace = true ∨
      s.position = some .command ∧ s.cmd = [] ∧ lastAnswered t.trace = lastAnswered s.trace := by
  have answered : ∀ {u}, RespondsOnce u t → lastAnswered t.trace = true := fun honce =>
    honce.elim (fun ⟨_, _, h⟩ => h) (fun ⟨h, _⟩ => absurd ht h)
  rcases step_forms hr h with ⟨p, w, rest, hp, -, rfl⟩ | ⟨p, hp, hcmd, rfl⟩ | ⟨hw, rfl⟩
  · have hinv := State.consumed_control (dropLate_control hc) p w rest
    exact .inl (answered (wordRun_once (fun hd =>
      hinv.inField (by rw [State.consumed_position, dropLate_position, hp, hd])) w))
  · exact .inr ⟨by rw [← ht, dropLate_position], hcmd, dropLate_lastAnswered s⟩
  · exact .inl (answered (resume_once (dropLate_control hc) (by rwa [dropLate_work])))

/-- Settles O47: each instruction responds once, as its last event, or is still in progress; a reset logs neither a command
nor a response. -/
theorem everyCommandIsAnsweredOnce : Obligations.EveryCommandIsAnsweredOnce := by
  refine ⟨fun s t hr hc h => step_balance hr hc h, fun s t hr h => ?_, fun s t hr hc hb h => ?_,
    fun s t hr hc h => step_lastAnswered hr hc h⟩
  · rw [step_of_rst hr] at h
    cases h
    exact ⟨(Flow.drop (applyReset s)).commands, dropLate_responses (applyReset s),
      State.inProgress_of_command (by rw [dropLate_position, applyReset_position]),
      dropLate_lastAnswered (applyReset s)⟩
  · have hbal := step_balance hr hc h
    simp only [BalanceInv] at hb ⊢
    omega

/-! ### The words of a POPULATE -/

/-- From a descriptor position `s` to `t`: what has become of the words after the descriptor (R29, R130). -/
structure SpendsWords (s t : State) : Prop where
  goesOn : t.position = some .descriptor → t.fi = s.fi + 1 ∧ t.nf = s.nf ∧ t.cmd = s.cmd
  ends : t.position = some .command ∨ (∃ r, t.work = .respond r) →
    s.wordsAfter ≤ s.cmd.length ∧ t.cmd = s.cmd.drop s.wordsAfter
  drains : ∀ left r, t.work = .drain left r → t.cmd = [] ∧ s.cmd.length + left = s.wordsAfter

/-- A state at none of these places has nothing to say. -/
theorem spendsWords_of_elsewhere {s t : State} (hp : t.work ≠ .boundary) (hr : ∀ r, t.work ≠ .respond r)
    (hd : ∀ left r, t.work ≠ .drain left r) : SpendsWords s t := by
  have hpos := position_of_waiting hp
  exact ⟨fun h => absurd h (by simp [hpos]), fun h => absurd h (by simp [hpos, hr]), fun left r h => absurd h (hd left r)⟩

/-- An end of the POPULATE that leaves the words after the descriptor consumed. -/
theorem respond_spends {r : Response} {s u : State} (hle : s.wordsAfter ≤ s.cmd.length)
    (hc : u.cmd = s.cmd.drop s.wordsAfter) : SpendsWords s (respond r u) := by
  have hcmd : (respond r u).cmd = u.cmd := by
    rcases respond_cases r u with ⟨q, -, h⟩ | ⟨-, h⟩ <;> rw [h] <;> rfl
  refine ⟨fun hp => ?_, fun _ => ⟨hle, hcmd.trans hc⟩, fun left r' hw => ?_⟩ <;>
    rcases respond_cases r u with ⟨q, -, h⟩ | ⟨-, h⟩
  · rw [h] at hp; exact absurd (position_eq_descriptor.mp hp).2.1 (by simp)
  · rw [h] at hp; exact absurd (position_eq_descriptor.mp hp).1 (by simp)
  · rw [h] at hw; simp at hw
  · rw [h] at hw; simp at hw

theorem popStop_spends (st : Status) (n : Size) (e : SrcErr) (s : State) : SpendsWords s (popStop st n e s) := by
  rw [popStop]
  rcases drain_cases (s.nf.toNat - s.fi.toNat - 1) (populateResponse st n e s.sc s.fi) s with ⟨hle, h⟩ | ⟨hlt, h⟩ <;> rw [h]
  · exact respond_spends hle rfl
  · refine ⟨fun hp => absurd (position_eq_descriptor.mp hp).1 (by simp), fun hp => ?_, fun left r hw => ?_⟩
    · rcases hp with hp | ⟨r, hp⟩
      · exact absurd (position_eq_command.mp hp).1 (by simp)
      · simp at hp
    · simp only [State.setWork_work, Work.drain.injEq] at hw
      obtain ⟨rfl, -⟩ := hw
      exact ⟨rfl, Nat.add_sub_cancel' (Nat.le_of_lt hlt)⟩

/-- From a state with the counters and the words of `s`, what is spent is spent from `s`. -/
theorem SpendsWords.of_eq {s u t : State} (hf : u.fi = s.fi) (hn : u.nf = s.nf) (hc : u.cmd = s.cmd)
    (h : SpendsWords u t) : SpendsWords s t := by
  obtain ⟨h1, h2, h3⟩ := h
  simp only [State.wordsAfter, hf, hn, hc] at h1 h2 h3
  exact ⟨h1, h2, h3⟩

theorem fieldEnd_spends (stop : Option Size) {s : State} (hm : s.mode = .pop) (hfi : s.fi.toNat < s.nf.toNat) :
    SpendsWords s (fieldEnd stop s) := by
  cases stop with
  | some n => exact popStop_spends _ _ _ s
  | none =>
    rw [fieldEnd]
    rcases popNext_cases (s.setFi (s.fi + 1)) with ⟨-, h⟩ | ⟨hge, h⟩ <;> rw [h]
    · refine ⟨fun _ => ⟨rfl, rfl, rfl⟩, fun hp => ?_, fun left r hw => by simp at hw⟩
      rcases hp with hp | ⟨r, hw⟩
      · exact absurd (position_eq_command.mp hp).2 (by simp [hm])
      · simp at hw
    · have hzero : s.wordsAfter = 0 := by
        rw [BitVec.lt_def, State.setFi_fi, State.setFi_nf, succ_toNat_of_lt hfi] at hge
        rw [State.wordsAfter]; omega
      exact respond_spends (by omega) (by rw [hzero]; rfl)

theorem fieldSlot_spends (k : Width) (skip : Bool) (value : Value) (stop : Option Size) {s : State}
    (hm : s.mode = .pop) (hfi : s.fi.toNat < s.nf.toNat) : SpendsWords s (fieldSlot k skip value stop s) := by
  unfold fieldSlot
  split
  · exact fieldEnd_spends stop hm hfi
  · split
    · rename_i t ht
      obtain ⟨q, -, rfl⟩ := takeBeat_eq_some ht
      refine SpendsWords.of_eq ?_ ?_ ?_ (fieldEnd_spends stop ?_ ?_)
      exacts [rfl, rfl, rfl, hm, hfi]
    · exact spendsWords_of_elsewhere (by simp) (by simp) (by simp)

theorem fieldStep_spends (k : Width) (skip : Bool) (n : Size) {s : State} (hm : s.mode = .pop)
    (hfi : s.fi.toNat < s.nf.toNat) : SpendsWords s (fieldStep k skip n s) := by
  rcases fieldStep_cases k skip n s with ⟨-, h⟩ | ⟨-, h⟩ <;> rw [h]
  · exact popStop_spends _ _ _ s
  · have hx := (setAccum_reads 0 0 s).trans (xwLoop_reads (chunks k n.toNat) _)
    rw [extractStart, extractRun]
    generalize xwLoop (chunks k n.toNat) (s.setAccum 0 0) = out at hx
    have hm' : out.2.mode = .pop := hx.mode.trans hm
    have hfi' : out.2.fi.toNat < out.2.nf.toNat := by rw [hx.fi, hx.nf]; exact hfi
    refine SpendsWords.of_eq hx.fi hx.nf hx.cmd ?_
    cases out.1 with
    | ok value => exact fieldSlot_spends _ _ _ _ hm' hfi'
    | exhausted value nv => exact fieldSlot_spends _ _ _ _ hm' hfi'
    | sourceError e => exact popStop_spends _ _ _ _
    | wait cs => exact spendsWords_of_elsewhere (by simp [extractEnd]) (by simp [extractEnd]) (by simp [extractEnd])

/-- Settles O41: a stop consumes the words it owes, the last descriptor owes none, and a field that waits has consumed
none. -/
theorem populateConsumesExactlyItsWords : Obligations.PopulateConsumesExactlyItsWords := by
  intro i s t hp h
  obtain ⟨-, hm, hfi⟩ := position_eq_descriptor.mp hp
  rw [exec_eq_run hp] at h
  cases h
  have hspends : SpendsWords s (instrRun .descriptor i s) :=
    instrRun_cases (P := fun p _ run => p = .descriptor → SpendsWords s (run s))
      (fun p _ hd => by rw [hd]; exact popStop_spends _ _ _ s) (by simp) (by simp) (by simp) (by simp)
      (fun k skip n _ => fieldStep_spends k skip n hm hfi) (fun _ _ _ _ => popStop_spends _ _ _ s) .descriptor i rfl
  exact ⟨hspends.goesOn, hspends.ends, hspends.drains⟩

end Sys2Proof.Machine
end

section
/-!
PROOFS. XW over every plan and every source, and the four XBITS: laws 1 to 5 of spec/40_cursor.md R102, R103, R44, and the
wait for the source (spec/70_reset_and_hazards.md R169).
-/

namespace Sys2Proof.Machine

/-! ### XW while no read can be made -/

/-- The state as it is while the source is silent and no abandoned read is outstanding. -/
def State.silent (s : State) : State := { s with src := [], late := false }

/-- While an abandoned read is unanswered, XW does what it does at a silent source: it makes no read (log entry 8). -/
theorem xwLoop_late {cs : List Nat} {s : State} (hl : s.late = true) :
    xwLoop cs s = ((xwLoop cs s.silent).1, { (xwLoop cs s.silent).2 with src := s.src, late := true }) := by
  have hself : { s.silent with src := s.src, late := true } = s := by rw [← hl]; rfl
  induction cs generalizing s with
  | nil => rw [xwLoop, xwLoop, hself]; rfl
  | cons c cs ih =>
    by_cases hn : c ≤ s.v.toNat
    · have hs := p8_of_le hn
      have hs' := p8_of_le (s := s.silent) hn
      simp only [xwLoop, hs, hs', p8Serve]
      exact ih hl (by rw [← hl]; rfl)
    · have hs := p8_wait (srcRead_eq_none.mpr (.inl hl)) (Nat.not_le.mp hn)
      have hs' := p8_wait (s := s.silent) (srcRead_eq_none.mpr (.inr rfl)) (Nat.not_le.mp hn)
      simp only [xwLoop, hs, hs', hself]

/-- The bytes a source answers before anything else, up to `n` of them. -/
theorem exists_bytes_prefix (src : List Answer) (n : Nat) :
    ∃ (bytes : List Byte) (tail : List Answer), src = bytes.map .byte ++ tail ∧
      (bytes.length = n ∨ bytes.length < n ∧
        (tail = [] ∨ (∃ rest, tail = .eof :: rest) ∨ ∃ e rest, tail = .err e :: rest)) := by
  induction n generalizing src with
  | zero => exact ⟨[], src, rfl, .inl rfl⟩
  | succ n ih =>
    match src with
    | [] => exact ⟨[], [], rfl, .inr ⟨Nat.succ_pos n, .inl rfl⟩⟩
    | .eof :: rest => exact ⟨[], _, rfl, .inr ⟨Nat.succ_pos n, .inr (.inl ⟨rest, rfl⟩)⟩⟩
    | .err e :: rest => exact ⟨[], _, rfl, .inr ⟨Nat.succ_pos n, .inr (.inr ⟨e, rest, rfl⟩)⟩⟩
    | .byte b :: src =>
      obtain ⟨bytes, tail, rfl, h⟩ := ih src
      refine ⟨b :: bytes, tail, rfl, ?_⟩
      simp only [List.length_cons, Nat.add_right_cancel_iff, Nat.add_lt_add_iff_right]
      exact h

/-! ### Everything XW can do, whatever the plan -/

/-- What XW leaves when an answer that is no byte ends it: the cursor is empty, `bytes` and that answer were read. -/
def xwEmptied (s : State) (bytes : List Byte) (a : Answer) (rest : List Answer) (acc : Value) (nacc : Size) : State :=
  { s.holding [] with
    started := s.started || !bytes.isEmpty
    acc := acc
    nacc := nacc
    src := rest
    trace := s.trace ++ readEvents bytes ++ [.read a] }

/-- The value of an extraction of `n` bits that ends EXHAUSTED: ACC, the available bits, and zeros (R94). -/
def exhaustedValue (s : State) (bytes : List Byte) (n : Nat) : Value :=
  BitVec.ofNat 64 ((s.acc.toNat * 2 ^ (s.available bytes).length + bitsVal (s.available bytes)) *
    2 ^ (n - (s.available bytes).length))

/-- The bytes that a core waiting for the source has read, and the answers that are left to it: all it was given, or none
while an abandoned read is unanswered. -/
def WaitsAfter (s : State) (bytes : List Byte) (rest : List Answer) : Prop :=
  s.late = true ∧ bytes = [] ∧ rest = s.src ∨ s.late = false ∧ s.src = bytes.map .byte ∧ rest = []

/-- XW waits after too few bytes, whatever the plan; what is left of the plan is the plan's own. -/
theorem xwLoop_waits {s : State} (hc : CursorInv s) {bytes : List Byte} {rest : List Answer} {cs : List Nat}
    (hw : WaitsAfter s bytes rest) (hp : Plan cs) (hb : (s.available bytes).length < cs.sum) :
    ∃ left, left <:+ cs ∧ xwLoop cs s = (.wait left, xwDone s bytes rest (cs.sum - left.sum)) ∧
      cs.sum - left.sum ≤ (s.available bytes).length := by
  rcases hw with ⟨hl, rfl, rfl⟩ | ⟨hl, hs, rfl⟩
  · obtain ⟨left, hsuf, hx, hle, -⟩ := xwLoop_wait hp (s := s.silent) (bytes := []) hc rfl rfl hb
    refine ⟨left, hsuf, ?_, hle⟩
    rw [xwLoop_late hl, hx]
    simp only [xwDone, ← hl]
    rfl
  · obtain ⟨left, hsuf, hx, hle, -⟩ := xwLoop_wait hp hc hl hs hb
    exact ⟨left, hsuf, hx, hle⟩

/-- Everything XW can do with a request of `n` bits: the bytes read and how it ends are the same for every plan. -/
theorem xwLoop_outcomes {s : State} (hc : CursorInv s) (n : Nat) :
    (∃ bytes rest, bytes.length = readsFor n s.v.toNat ∧ ∀ cs, Plan cs → cs.sum = n →
      xwLoop cs s = (.ok (xwDone s bytes rest n).acc, xwDone s bytes rest n)) ∨
    (∃ bytes rest, (s.available bytes).length < n ∧ ∀ cs, Plan cs → cs.sum = n → ∃ acc,
      xwLoop cs s = (.exhausted (exhaustedValue s bytes n) (s.nacc + BitVec.ofNat 7 (s.available bytes).length),
        xwEmptied s bytes .eof rest acc (s.nacc + BitVec.ofNat 7 (s.available bytes).length))) ∨
    (∃ bytes e rest, ∀ cs, Plan cs → cs.sum = n → ∃ acc nacc,
      xwLoop cs s = (.sourceError e, xwEmptied s bytes (.err e) rest acc nacc)) ∨
    (∃ bytes rest, ∀ cs, Plan cs → cs.sum = n → ∃ left m,
      xwLoop cs s = (.wait left, xwDone s bytes rest m)) := by
  have short : ∀ {bytes : List Byte}, bytes.length < readsFor n s.v.toNat → (s.available bytes).length < n := by
    intro bytes h
    rw [State.available_length]
    unfold readsFor at h
    omega
  have waits : ∀ {bytes rest}, WaitsAfter s bytes rest → bytes.length < readsFor n s.v.toNat →
      ∀ cs, Plan cs → cs.sum = n → ∃ left m, xwLoop cs s = (.wait left, xwDone s bytes rest m) := by
    intro bytes rest hw hlt cs hp hsum
    obtain ⟨left, -, hx, -⟩ := xwLoop_waits hc hw hp (by rw [hsum]; exact short hlt)
    exact ⟨left, _, hx⟩
  cases hl : s.late with
  | true =>
    by_cases h0 : readsFor n s.v.toNat = 0
    · refine .inl ⟨[], s.src, h0.symm, fun cs hp hsum => ?_⟩
      have hx := xwLoop_ok hp (s := s.silent) (bytes := []) (rest := []) hc rfl rfl (by rw [hsum]; exact h0.symm)
      rw [xwLoop_late hl, hx, hsum]
      simp only [xwDone, ← hl]
      rfl
    · exact .inr (.inr (.inr ⟨[], s.src, waits (.inl ⟨hl, rfl, rfl⟩) (Nat.pos_of_ne_zero h0)⟩))
  | false =>
    obtain ⟨bytes, tail, hs, hlen | ⟨hlt, rfl | ⟨rest, rfl⟩ | ⟨e, rest, rfl⟩⟩⟩ :=
      exists_bytes_prefix s.src (readsFor n s.v.toNat)
    · refine .inl ⟨bytes, tail, hlen, fun cs hp hsum => ?_⟩
      rw [xwLoop_ok hp hc hl hs (by rw [hsum]; exact hlen), hsum]
    · exact .inr (.inr (.inr ⟨bytes, [], waits (.inr ⟨hl, by simpa using hs, rfl⟩) hlt⟩))
    · refine .inr (.inl ⟨bytes, rest, short hlt, fun cs hp hsum => ?_⟩)
      obtain ⟨acc, hx⟩ := xwLoop_eof hp hc hl hs (by rw [hsum]; exact short hlt)
      exact ⟨acc, by rw [hx, hsum]; rfl⟩
    · refine .inr (.inr (.inl ⟨bytes, e, rest, fun cs hp hsum => ?_⟩))
      exact xwLoop_err hp hc hl hs (by rw [hsum]; exact short hlt)

/-- Settles O23: how XW ends, what it reads and what cursor it leaves depend on the sum of the plan alone. -/
theorem chunkPlanIsUnobservable : Obligations.ChunkPlanIsUnobservable := by
  intro cs ds s hc hcs hds hsum
  rcases xwLoop_outcomes hc ds.sum with ⟨bytes, rest, -, h⟩ | ⟨bytes, rest, -, h⟩ | ⟨bytes, e, rest, h⟩ |
    ⟨bytes, rest, h⟩
  · rw [h cs hcs hsum, h ds hds rfl]
    exact ⟨rfl, rfl, .inr ⟨rfl, rfl, rfl, rfl⟩⟩
  · obtain ⟨acc, hx⟩ := h cs hcs hsum
    obtain ⟨acc', hx'⟩ := h ds hds rfl
    rw [hx, hx']
    exact ⟨rfl, rfl, .inr ⟨rfl, rfl, rfl, rfl⟩⟩
  · obtain ⟨acc, nacc, hx⟩ := h cs hcs hsum
    obtain ⟨acc', nacc', hx'⟩ := h ds hds rfl
    rw [hx, hx']
    exact ⟨rfl, rfl, .inr ⟨rfl, rfl, rfl, rfl⟩⟩
  · obtain ⟨left, m, hx⟩ := h cs hcs hsum
    obtain ⟨left', m', hx'⟩ := h ds hds rfl
    rw [hx, hx']
    exact ⟨rfl, rfl, .inl ⟨left, left', rfl, rfl⟩⟩

/-! ### XBITS from its position -/

/-- An XBITS of a legal size is the extraction; MODE alone is written before it. -/
theorem exec_xbits_legal {w : Width} {size : Size} {s : State} (hp : s.position = some .command)
    (h1 : 1 ≤ size.toNat) (h2 : size.toNat ≤ w.bits) :
    exec (.xbits w size) s = .next (extractStart w .xbits size (s.setMode .xbits)) := by
  rw [exec_xbits hp, xbits, if_neg (by simp [sizeBad_eq_false h1 h2])]

/-- Settles O19: the extraction ends OK, and its response ends the command. -/
theorem xbitsReturnsLeadingBits : Obligations.XbitsReturnsLeadingBits := by
  intro w size s bytes rest q hp hc hl hq h1 h2 hs hb
  obtain ⟨hwork, hmode⟩ := position_eq_command.mp hp
  rw [exec_xbits_legal hp h1 h2, extractStart_ok .xbits (s := s.setMode .xbits) hc hl h1 h2 hs hb]
  simp only [extractEnd, State.available_setMode]
  rw [respond_eq_of_take (q := q)]
  · congr 1
    apply State.ext <;> simp [hwork, hmode, State.holding]
  · exact hq

/-- Settles O20: the extraction ends EXHAUSTED, and its response ends the command. -/
theorem xbitsExhaustedReturnsAvailableBits : Obligations.XbitsExhaustedReturnsAvailableBits := by
  intro w size s bytes rest q hp hc hl hq h2 hs hb
  obtain ⟨hwork, hmode⟩ := position_eq_command.mp hp
  obtain ⟨acc, hx⟩ := extractStart_eof .xbits (s := s.setMode .xbits) hc hl h2 hs hb
  refine ⟨acc, ?_⟩
  rw [exec_xbits_legal hp (by omega) h2, hx]
  simp only [extractEnd, State.available_setMode]
  rw [respond_eq_of_take (q := q)]
  · congr 1
    apply State.ext <;> simp [hwork, hmode]
  · exact hq

/-- Settles O21: the extraction ends SOURCE_ERROR, and its response ends the command. -/
theorem xbitsSourceErrorLosesPendingBits : Obligations.XbitsSourceErrorLosesPendingBits := by
  intro w size s bytes e rest q hp hc hl hq h2 hs hb
  obtain ⟨hwork, hmode⟩ := position_eq_command.mp hp
  obtain ⟨acc, nacc, hx⟩ := extractStart_err .xbits (s := s.setMode .xbits) hc hl h2 hs hb
  refine ⟨acc, nacc, ?_⟩
  rw [exec_xbits_legal hp (by omega) h2, hx]
  simp only [extractEnd]
  rw [respond_eq_of_take (q := q)]
  · congr 1
    apply State.ext <;> simp [hwork, hmode]
  · exact hq

/-! ### The wait for the source -/

/-- An extraction of more bits than there are waits, with the bytes that were there read and nothing else changed but the
cursor and the accumulator. -/
theorem extractStart_wait {w : Width} {size : Size} (sink : Sink) {s : State} {bytes : List Byte} (hc : CursorInv s)
    (h2 : size.toNat ≤ w.bits)
    (hw : s.late = true ∧ bytes = [] ∨ s.late = false ∧ s.src = bytes.map .byte)
    (hb : (s.available bytes).length < size.toNat) :
    ∃ t cs, extractStart w sink size s = t.setWork (.extract sink size cs) ∧ ReadFrame s t ∧
      t.trace = s.trace ++ readEvents bytes ∧ (s.late = false → t.src = []) := by
  obtain ⟨hp, hsum, -⟩ := chunks_plan (w := w) (n := size.toNat) (by omega) h2
  obtain ⟨rest, hw', hrest⟩ : ∃ rest, WaitsAfter s bytes rest ∧ (s.late = false → rest = []) := by
    rcases hw with ⟨hl, hb⟩ | ⟨hl, hs⟩
    · exact ⟨s.src, .inl ⟨hl, hb, rfl⟩, fun h => absurd hl (by simp [h])⟩
    · exact ⟨[], .inr ⟨hl, hs, rfl⟩, fun _ => rfl⟩
  obtain ⟨left, -, hx, -⟩ := xwLoop_waits (s := s.setAccum 0 0) hc hw' hp (by rw [hsum]; exact hb)
  have hreads := xwLoop_reads (chunks w size.toNat) (s.setAccum 0 0)
  rw [hx] at hreads
  refine ⟨_, left, ?_, (setAccum_reads 0 0 s).trans hreads, rfl, hrest⟩
  rw [extractStart, extractRun, hx]
  cases sink <;> rfl

/-- Settles O22: the extraction waits, and the registers that say where the core is are as the extraction began. -/
theorem xbitsWaitsForTheSource : Obligations.XbitsWaitsForTheSource := by
  intro w size s bytes hp hc h2 hw hb
  obtain ⟨t, cs, hx, hf, htr, hsrc⟩ := extractStart_wait .xbits (s := s.setMode .xbits) hc h2 hw hb
  refine ⟨t.setWork (.extract .xbits size cs), cs, by rw [exec_xbits_legal hp (by omega) h2, hx], rfl, hf.mode,
    position_of_waiting (by simp), rfl, ?_, htr, hsrc, hf.cmd⟩
  simp [State.srcReq, State.awaitsRead, hf.late, hf.rst]

/-! ### Laws over several extractions -/

theorem ofNat_shiftLeft_or_ofNat {x y n : Nat} (h : y < 2 ^ n) :
    BitVec.ofNat 64 x <<< n ||| BitVec.ofNat 64 y = BitVec.ofNat 64 (x * 2 ^ n + y) := by
  have h1 : BitVec.ofNat 64 x <<< n = BitVec.ofNat 64 (x * 2 ^ n) := by
    apply BitVec.eq_of_toNat_eq
    simp [BitVec.toNat_shiftLeft, Nat.shiftLeft_eq]
  rw [h1, ← BitVec.ofNat_or, ← Nat.shiftLeft_eq, ← Nat.shiftLeft_add_eq_or_of_lt h]

/-- The values of two adjacent pieces of a bit string make up the value of both. -/
theorem valueOf_take_add (A : List Bool) {m n : Nat} (h : m + n ≤ A.length) :
    valueOf (A.take (m + n)) = valueOf (A.take m) <<< n ||| valueOf ((A.drop m).take n) := by
  have hlen : ((A.drop m).take n).length = n := by rw [List.length_take, List.length_drop]; omega
  have hlt := bitsVal_lt ((A.drop m).take n)
  rw [hlen] at hlt
  rw [valueOf, valueOf, valueOf, ofNat_shiftLeft_or_ofNat hlt, List.take_add, bitsVal_append, hlen]

/-- The state an XBITS of `size` bits that ends OK leaves (R102, law 1). -/
def afterXbits (s : State) (size : Size) (bytes : List Byte) (rest : List Answer) (q : Ready) : State :=
  { s.holding ((s.available bytes).drop size.toNat) with
    started := s.started || !bytes.isEmpty
    acc := valueOf ((s.available bytes).take size.toNat)
    nacc := size
    src := rest
    rspReady := q
    trace := s.trace ++ readEvents bytes ++
      [.response { status := .ok, value := valueOf ((s.available bytes).take size.toNat), nvalid := size }] }

theorem exec_xbits_ok {w : Width} {size : Size} {s : State} {bytes : List Byte} {rest : List Answer} {q : Ready}
    (hp : s.position = some .command) (hc : CursorInv s) (hl : s.late = false) (hq : s.rspReady.take = some q)
    (h1 : 1 ≤ size.toNat) (h2 : size.toNat ≤ w.bits) (hs : s.src = bytes.map .byte ++ rest)
    (hb : bytes.length = readsFor size.toNat s.v.toNat) :
    exec (.xbits w size) s = .next (afterXbits s size bytes rest q) :=
  xbitsReturnsLeadingBits w size s bytes rest q hp hc hl hq h1 h2 hs hb

/-- A response that ends an XBITS is the last event. -/
theorem afterXbits_getLast? (s : State) (size : Size) (bytes : List Byte) (rest : List Answer) (q : Ready) :
    (afterXbits s size bytes rest q).trace.getLast? =
      some (.response { status := .ok, value := valueOf ((s.available bytes).take size.toNat), nvalid := size }) :=
  List.getLast?_concat

/-- An extraction leaves less than a byte. -/
theorem drop_available_length_le {s : State} {n : Nat} {bytes : List Byte}
    (hb : bytes.length = readsFor n s.v.toNat) : ((s.available bytes).drop n).length ≤ 7 := by
  have hv := s.v.isLt
  rw [List.length_drop, State.available_length, hb]
  unfold readsFor; omega

theorem afterXbits_pending {s : State} {size : Size} {bytes : List Byte} (rest : List Answer) (q : Ready)
    (hb : bytes.length = readsFor size.toNat s.v.toNat) :
    (afterXbits s size bytes rest q).pending = (s.available bytes).drop size.toNat :=
  State.holding_pending s (drop_available_length_le hb)

theorem afterXbits_cursorInv {s : State} {size : Size} {bytes : List Byte} (rest : List Answer) (q : Ready)
    (hb : bytes.length = readsFor size.toNat s.v.toNat) : CursorInv (afterXbits s size bytes rest q) :=
  State.holding_cursorInv s (drop_available_length_le hb)

/-- Settles O24: the second extraction starts from the bits the first left, and the values of the two pieces make up that
of the whole. -/
theorem splitExtractionsCompose : Obligations.SplitExtractionsCompose := by
  intro w₁ w₂ w m n k s bytes rest q hp hc hl hq hm1 hm2 hn1 hn2 hk hkw hs hb
  obtain ⟨q₁, hq₁, hq₂⟩ := Ready.takeN_succ_eq_some.mp hq
  rw [Ready.takeN_one] at hq₂
  have hle : readsFor m.toNat s.v.toNat ≤ bytes.length := by rw [hb]; unfold readsFor; omega
  obtain ⟨xs, ys, rfl, hxs⟩ : ∃ xs ys, bytes = xs ++ ys ∧ xs.length = readsFor m.toNat s.v.toNat :=
    ⟨bytes.take _, bytes.drop _, (List.take_append_drop _ bytes).symm, by rw [List.length_take, Nat.min_eq_left hle]⟩
  have hs₁ : s.src = xs.map .byte ++ (ys.map .byte ++ rest) := by rw [hs, List.map_append, List.append_assoc]
  have hlen := s.available_length xs
  have hm : m.toNat ≤ (s.available xs).length := by rw [hlen, hxs]; unfold readsFor; omega
  let t₁ := afterXbits s m xs (ys.map .byte ++ rest) q₁
  have hpend : t₁.pending = (s.available xs).drop m.toNat := afterXbits_pending _ q₁ hxs
  have hA : t₁.available ys = (s.available (xs ++ ys)).drop m.toNat := by
    rw [State.available, hpend, State.available_append, List.drop_append_of_le_length hm]
  have hys : ys.length = readsFor n.toNat t₁.v.toNat := by
    rw [List.length_append, hk, hxs] at hb
    rw [← State.pending_length, hpend, List.length_drop, hlen, hxs]
    unfold readsFor at hb ⊢
    omega
  have hval := valueOf_take_add (s.available (xs ++ ys)) (m := m.toNat) (n := n.toNat)
    (by rw [State.available_length, hb]; unfold readsFor; omega)
  rw [← hk, ← hA] at hval
  have hdrop : (t₁.available ys).drop n.toNat = (s.available (xs ++ ys)).drop k.toNat := by
    rw [hA, List.drop_drop, hk]
  have htake : (s.available xs).take m.toNat = (s.available (xs ++ ys)).take m.toNat := by
    rw [State.available_append, List.take_append_of_le_length hm]
  refine ⟨t₁, afterXbits t₁ n ys rest q, afterXbits s k (xs ++ ys) rest q₁, _, _, _,
    exec_xbits_ok hp hc hl hq₁ hm1 hm2 hs₁ hxs,
    exec_xbits_ok hp (afterXbits_cursorInv _ q₁ hxs) hl hq₂ hn1 hn2 rfl hys,
    exec_xbits_ok hp hc hl hq₁ (by omega) hkw hs hb,
    afterXbits_getLast? _ _ _ _ _, afterXbits_getLast? _ _ _ _ _, afterXbits_getLast? _ _ _ _ _, rfl, rfl, rfl,
    by rw [hval, htake], congrArg leftAlign hdrop, congrArg (fun bits : List Bool => BitVec.ofNat 3 bits.length) hdrop, rfl, rfl⟩

/-! ### The bits of one extraction -/

theorem readEvents_countP_isByteRead (bytes : List Byte) :
    (readEvents bytes).countP Event.isByteRead = bytes.length := by
  induction bytes with
  | nil => rfl
  | cons b bytes ih => exact (List.countP_cons_of_pos rfl).trans (congrArg (· + 1) ih)

/-- A response that has left the core at a command position is the last event. -/
theorem respond_ended {r r' : Response} {s : State} (hp : (respond r s).position = some .command)
    (hl : (respond r s).trace.getLast? = some (.response r')) :
    r' = r ∧ (respond r s).trace = s.trace ++ [.response r] := by
  rcases respond_cases r s with ⟨q, -, h⟩ | ⟨-, h⟩ <;> rw [h] at hp hl ⊢
  · refine ⟨?_, rfl⟩
    simpa [eq_comm] using hl
  · exact absurd (position_eq_command.mp hp).1 (by simp)

theorem State.byteReads_of_trace {s t : State} {bytes : List Byte} {es : List Event}
    (h : t.trace = s.trace ++ readEvents bytes ++ es) (hes : es.countP Event.isByteRead = 0) :
    t.byteReads = s.byteReads + bytes.length := by
  rw [State.byteReads, State.byteReads, h, List.countP_append, List.countP_append, readEvents_countP_isByteRead, hes,
    Nat.add_zero]

/-- The conservation of bits over an XBITS that has run XW, which ended OK or EXHAUSTED. -/
theorem extractRun_conserves {size : Size} {s t : State} {r : Response} {cs : List Nat} (hc : CursorInv s)
    (hp : Plan cs) (hsum : cs.sum = size.toNat) (h64 : size.toNat ≤ 64) (hn : s.nacc = 0)
    (ht : extractRun .xbits size cs s = t) (hpos : t.position = some .command)
    (hlast : t.trace.getLast? = some (.response r)) (hst : r.status = .ok ∨ r.status = .exhausted) :
    s.v.toNat + 8 * t.byteReads = r.nvalid.toNat + t.v.toNat + 8 * s.byteReads := by
  have hv := s.v.isLt
  rw [extractRun] at ht
  rcases xwLoop_outcomes hc size.toNat with ⟨bytes, rest, hlen, hx⟩ | ⟨bytes, rest, hlt, hx⟩ | ⟨bytes, e, rest, hx⟩ |
    ⟨bytes, rest, hx⟩
  · rw [hx cs hp hsum] at ht
    subst ht
    obtain ⟨rfl, htr⟩ := respond_ended hpos hlast
    have hle := readsFor_le size.toNat s.v.toNat (by omega)
    have hv' := xwDone_v s bytes rest size.toNat (by rw [State.available_length]; omega)
    have hreads : State.byteReads (respond _ (xwDone s bytes rest size.toNat)) = _ :=
      State.byteReads_of_trace (es := [.response _]) htr rfl
    simp only [extractEnd, (respond_tail _ _).v, hreads, hv']
    omega
  · obtain ⟨acc, hx⟩ := hx cs hp hsum
    rw [hx] at ht
    subst ht
    obtain ⟨rfl, htr⟩ := respond_ended hpos hlast
    have hlen := s.available_length bytes
    have hreads : State.byteReads (respond _ (xwEmptied s bytes .eof rest acc _)) = _ :=
      State.byteReads_of_trace (htr.trans (List.append_assoc (s.trace ++ readEvents bytes) [.read .eof] [.response _])) rfl
    have hnv : (s.nacc + BitVec.ofNat 7 (s.available bytes).length).toNat = (s.available bytes).length := by
      rw [hn]; simp; omega
    have hv0 : (xwEmptied s bytes .eof rest acc (s.nacc + BitVec.ofNat 7 (s.available bytes).length)).v.toNat = 0 := rfl
    simp only [extractEnd, (respond_tail _ _).v, hreads, hnv, hv0]
    omega
  · obtain ⟨acc, nacc, hx⟩ := hx cs hp hsum
    rw [hx] at ht
    subst ht
    obtain ⟨rfl, -⟩ := respond_ended hpos hlast
    simp at hst
  · obtain ⟨left, m, hx⟩ := hx cs hp hsum
    rw [hx] at ht
    subst ht
    exact absurd (position_eq_command.mp hpos).1 (by simp [extractEnd])

/-- Settles O25: by how XW ends. An OK end leaves the available bits but the first `size`; an EXHAUSTED end returns them
all; and the size check refuses the request with another status. -/
theorem xbitsConservesBits : Obligations.XbitsConservesBits := by
  intro w size s t r hp hc h ht hlast hst
  rw [exec_xbits hp] at h
  cases h
  rcases xbits_cases w size s with ⟨-, h⟩ | ⟨hok, h⟩ <;> rw [h] at ht hlast ⊢
  · obtain ⟨rfl, -⟩ := respond_ended ht hlast
    simp [sizeOverflowResponse] at hst
  · obtain ⟨h1, h2⟩ := sizeBad_legal hok
    obtain ⟨hplan, hsum, -⟩ := chunks_plan h1 h2
    exact extractRun_conserves (s := (s.setMode .xbits).setAccum 0 0) hc hplan hsum (h2.trans (Width.bits_le w)) rfl rfl
      ht hlast hst

/-! ### An Eof is not remembered -/

theorem valueOf_byteBits (b : Byte) : valueOf (byteBits b) = b.setWidth 64 := by
  rw [valueOf, bitsVal_byteBits, BitVec.ofNat_toNat]

/-- An XBITS.8 that meets an Eof in its one chunk responds from an empty cursor, whatever was pending. -/
theorem exec_xbits8_eof {n : Size} {s : State} {rest : List Answer} (hp : s.position = some .command)
    (hl : s.late = false) (hn : s.v.toNat < n.toNat) (h8 : n.toNat ≤ 8) (hs : s.src = .eof :: rest) :
    ∃ r u, exec (.xbits8 n) s = .next (respond r u) ∧ u.v = 0 ∧ u.l = 0 ∧ u.src = rest ∧ u.late = false ∧
      u.rspReady = s.rspReady := by
  have hx := p8_of_answer (s := (s.setMode .xbits).setAccum 0 0) hn hl hs
  have hbits : Width.bits .w8 = 8 := rfl
  have hexec : exec (.xbits8 n) s = .next (extractStart .w8 .xbits n (s.setMode .xbits)) :=
    exec_xbits_legal (w := .w8) hp (by omega) (by omega)
  have hplan : chunks .w8 n.toNat = [n.toNat] := rfl
  rw [hexec, extractStart, extractRun, hplan, xwLoop, hx]
  exact ⟨_, _, rfl, rfl, rfl, rfl, hl, rfl⟩

/-- Settles O26: the Eof is taken from the source and leaves the cursor empty, so that the next extraction reads the byte
and returns its eight bits. -/
theorem eofIsNotSticky : Obligations.EofIsNotSticky := by
  intro n s b rest q hp hl hq hn h8 hs
  obtain ⟨q₁, hq₁, hq₂⟩ := Ready.takeN_succ_eq_some.mp hq
  rw [Ready.takeN_one] at hq₂
  obtain ⟨r, u, hexec, hv, hl0, hsrc, hlate, hready⟩ := exec_xbits8_eof hp hl hn h8 hs
  rw [respond_of_take (q := q₁) (by rw [hready, hq₁])] at hexec
  generalize ht : (((u.setRspReady q₁).log (.response r)).setMode .idle).setWork .boundary = t at hexec
  have htl : t.l = 0 := by rw [← ht]; exact hl0
  have htv : t.v = 0 := by rw [← ht]; exact hv
  have htsrc : t.src = .byte b :: rest := by rw [← ht]; exact hsrc
  have htpos : t.position = some .command := by rw [← ht]; exact position_eq_command.mpr ⟨rfl, rfl⟩
  have hpend : t.pending = [] := by rw [State.pending, htv]; rfl
  have hbits : (t.available [b]).take 8 = byteBits b := by
    rw [State.available, hpend]; simp [byteBits_length]
  have hexec₂ : exec (.xbits8 8) t = .next (afterXbits t 8 [b] rest q) :=
    exec_xbits_ok (w := .w8) htpos (by rw [CursorInv, htl]; rfl) (by rw [← ht]; exact hlate) (by rw [← ht]; exact hq₂)
      (by decide) (by decide) (by rw [htsrc]; rfl) (by rw [htv]; rfl)
  have hdrop : (t.available [b]).drop 8 = [] := by
    rw [State.available, hpend]; simp [byteBits_length]
  refine ⟨t, _, hexec, hexec₂, htsrc, rfl, ?_, ?_⟩
  · have hval : valueOf ((t.available [b]).take (8 : Size).toNat) = b.setWidth 64 := by
      rw [show (8 : Size).toNat = 8 from rfl, hbits, valueOf_byteBits]
    rw [afterXbits]
    simp only [hval]
    simp [readEvents]
  · have : (afterXbits t 8 [b] rest q).v = BitVec.ofNat 3 ((t.available [b]).drop 8).length := rfl
    rw [this, hdrop]; rfl

end Sys2Proof.Machine
end

section
/-!
PROOFS. XBYTES (spec/40_cursor.md R100): its loop over the bytes that the source answers and the host takes, and the five
ways it stops; law 6 of R102.
-/

namespace Sys2Proof.Machine

/-! ### The loop over bytes that are answered and taken -/

/-- What the loop of XBYTES leaves after `bytes`: each was read and its beat taken, and as many bits are pending as before. -/
def bytesDone (s : State) (bytes : List Byte) (rest : List Answer) (q : Ready) : State :=
  { s.holding ((s.available bytes).drop (8 * bytes.length)) with
    started := s.started || !bytes.isEmpty
    bc := s.bc + BitVec.ofNat 24 bytes.length
    src := rest
    outReady := q
    trace := s.trace ++ byteEvents s.bc s.pending bytes }

/-- After whole bytes as many bits are pending as before: less than a byte. -/
theorem drop_available_bytes_length (s : State) (bytes : List Byte) :
    ((s.available bytes).drop (8 * bytes.length)).length = s.v.toNat := by
  rw [List.length_drop, State.available_length]; omega

theorem bytesDone_pending (s : State) (bytes : List Byte) (rest : List Answer) (q : Ready) :
    (bytesDone s bytes rest q).pending = (s.available bytes).drop (8 * bytes.length) :=
  State.holding_pending s (by have := s.v.isLt; rw [drop_available_bytes_length]; omega)

theorem bytesDone_cursorInv (s : State) (bytes : List Byte) (rest : List Answer) (q : Ready) :
    CursorInv (bytesDone s bytes rest q) :=
  State.holding_cursorInv s (by have := s.v.isLt; rw [drop_available_bytes_length]; omega)

theorem bytesDone_v (s : State) (bytes : List Byte) (rest : List Answer) (q : Ready) :
    (bytesDone s bytes rest q).v = s.v := by
  have h : (bytesDone s bytes rest q).v = BitVec.ofNat 3 ((s.available bytes).drop (8 * bytes.length)).length := rfl
  rw [h, drop_available_bytes_length, BitVec.ofNat_toNat, BitVec.setWidth_eq]

theorem bytesDone_nil {s : State} (hc : CursorInv s) : bytesDone s [] s.src s.outReady = s := by
  have hself : s.holding (s.available []) = s := by
    rw [State.available, List.flatMap_nil, List.append_nil, State.holding_self hc]
  rw [bytesDone, List.length_nil, Nat.mul_zero, List.drop_zero, hself]
  apply State.ext <;> simp [byteEvents]

/-- The byte that eight bits of the pending bits and the next source byte make up. -/
def joinedByte (s : State) (b : Byte) : Byte := BitVec.ofNat 8 (bitsVal ((s.pending ++ byteBits b).take 8))

/-- What the P8(8) of one byte leaves. -/
def afterByte (s : State) (b : Byte) (rest : List Answer) : State :=
  (((s.setSrc rest).log (.read (.byte b))).holding ((s.pending ++ byteBits b).drop 8)).setStarted true

theorem p8_byte {s : State} {b : Byte} {rest : List Answer} (hl : s.late = false) (hs : s.src = .byte b :: rest) :
    p8 8 s = (.ok (joinedByte s b), afterByte s b rest) :=
  p8_pull hl hs s.v.isLt (Nat.le_refl 8)

/-- What one pass of the loop leaves, when the byte is answered and its beat taken. -/
def byteTaken (s : State) (b : Byte) (rest : List Answer) (q : Ready) : State :=
  (((afterByte s b rest).setOutReady q).log (.beat (.byte s.bc (joinedByte s b)))).setBc (s.bc + 1)

theorem rest_of_byte_length (s : State) (b : Byte) : ((s.pending ++ byteBits b).drop 8).length ≤ 7 := by
  have := s.v.isLt; simp; omega

theorem byteTaken_pending (s : State) (b : Byte) (rest : List Answer) (q : Ready) :
    (byteTaken s b rest q).pending = (s.pending ++ byteBits b).drop 8 :=
  State.holding_pending s (rest_of_byte_length s b)

theorem byteTaken_cursorInv (s : State) (b : Byte) (rest : List Answer) (q : Ready) :
    CursorInv (byteTaken s b rest q) :=
  State.holding_cursorInv s (rest_of_byte_length s b)

theorem bytesLoop_byte (n : Count) (left : Nat) {s : State} {b : Byte} {rest : List Answer} {q : Ready}
    (hl : s.late = false) (hs : s.src = .byte b :: rest) (hq : s.outReady.take = some q) :
    bytesLoop n (left + 1) s = bytesLoop n left (byteTaken s b rest q) := by
  have hbeat := takeBeat_of_take (b := .byte s.bc (joinedByte s b)) (s := afterByte s b rest) hq
  have hbc : (afterByte s b rest).bc = s.bc := rfl
  simp only [bytesLoop, p8_byte hl hs, hbc, hbeat]
  rfl

/-- The first of some bytes and then the others are all of them. -/
theorem bytesDone_byteTaken (s : State) (b : Byte) (bytes : List Byte) (rest : List Answer) (q q' : Ready) :
    bytesDone (byteTaken s b (bytes.map .byte ++ rest) q') bytes rest q = bytesDone s (b :: bytes) rest q := by
  have hpend := byteTaken_pending s b (bytes.map .byte ++ rest) q'
  have hav : ((byteTaken s b (bytes.map .byte ++ rest) q').available bytes).drop (8 * bytes.length) =
      (s.available (b :: bytes)).drop (8 * (bytes.length + 1)) := by
    rw [State.available, hpend, State.available, List.flatMap_cons, ← List.append_assoc,
      ← List.drop_append_of_le_length (by simp), List.drop_drop]
    congr 1; omega
  have hbc : s.bc + 1 + BitVec.ofNat 24 bytes.length = s.bc + BitVec.ofNat 24 (bytes.length + 1) := by
    rw [BitVec.add_assoc, Nat.add_comm bytes.length 1, BitVec.ofNat_add]; rfl
  have htr : s.trace ++ [.read (.byte b)] ++ [.beat (.byte s.bc (joinedByte s b))] ++
      byteEvents (s.bc + 1) ((s.pending ++ byteBits b).drop 8) bytes =
      s.trace ++ byteEvents s.bc s.pending (b :: bytes) := by
    simp [byteEvents, joinedByte]
  rw [bytesDone, bytesDone, hav, hpend, List.length_cons, ← hbc, ← htr]
  apply State.ext <;> simp [byteTaken, afterByte, State.holding]

/-- The loop of XBYTES over bytes that are answered and taken (R100). -/
theorem bytesLoop_bytes (n : Count) (left : Nat) {s : State} {bytes : List Byte} {rest : List Answer} {q : Ready}
    (hc : CursorInv s) (hl : s.late = false) (hs : s.src = bytes.map .byte ++ rest)
    (hq : s.outReady.takeN bytes.length = some q) :
    bytesLoop n (bytes.length + left) s = bytesLoop n left (bytesDone s bytes rest q) := by
  induction bytes generalizing s with
  | nil =>
    cases hq
    obtain rfl : s.src = rest := hs
    rw [bytesDone_nil hc, List.length_nil, Nat.zero_add]
  | cons b bytes ih =>
    obtain ⟨q', hq', hq⟩ := Ready.takeN_succ_eq_some.mp hq
    have hih := ih (byteTaken_cursorInv s b (bytes.map .byte ++ rest) q') hl rfl hq
    rw [List.length_cons, Nat.add_right_comm, bytesLoop_byte n _ hl hs hq']
    exact hih.trans (by rw [bytesDone_byteTaken])

/-! ### XBYTES from its position -/

/-- What XBYTES leaves after `bytes`: they are the first from BC = 0. -/
def xbytesDone (s : State) (bytes : List Byte) (rest : List Answer) (q : Ready) : State :=
  { s.holding ((s.available bytes).drop (8 * bytes.length)) with
    started := s.started || !bytes.isEmpty
    mode := .xbytes
    bc := BitVec.ofNat 24 bytes.length
    src := rest
    outReady := q
    trace := s.trace ++ byteEvents 0 s.pending bytes }

theorem bytesDone_start (s : State) (bytes : List Byte) (rest : List Answer) (q : Ready) :
    bytesDone ((s.setMode .xbytes).setBc 0) bytes rest q = xbytesDone s bytes rest q := by
  apply State.ext
  case bc => exact BitVec.zero_add _
  all_goals rfl

theorem xbytesDone_cursorInv (s : State) (bytes : List Byte) (rest : List Answer) (q : Ready) :
    CursorInv (xbytesDone s bytes rest q) := by
  rw [← bytesDone_start]; exact bytesDone_cursorInv _ _ _ _

theorem xbytesDone_pending (s : State) (bytes : List Byte) (rest : List Answer) (q : Ready) :
    (xbytesDone s bytes rest q).pending = (s.available bytes).drop (8 * bytes.length) := by
  rw [← bytesDone_start]; exact bytesDone_pending _ _ _ _

theorem xbytesDone_v (s : State) (bytes : List Byte) (rest : List Answer) (q : Ready) :
    (xbytesDone s bytes rest q).v = s.v := by
  rw [← bytesDone_start]; exact bytesDone_v _ _ _ _

/-- XBYTES where the source answers `bytes` and the host takes their beats: the loop goes on after them. -/
theorem exec_xbytes_bytes {n : Count} {s : State} {bytes : List Byte} {rest : List Answer} {q : Ready}
    (hp : s.position = some .command) (hc : CursorInv s) (hl : s.late = false)
    (hs : s.src = bytes.map .byte ++ rest) (hq : s.outReady.takeN bytes.length = some q) (hle : bytes.length ≤ n.toNat) :
    exec (.xbytes n) s = .next (bytesLoop n (n.toNat - bytes.length) (xbytesDone s bytes rest q)) := by
  have h := bytesLoop_bytes n (n.toNat - bytes.length) (s := (s.setMode .xbytes).setBc 0) hc hl hs hq
  rw [Nat.add_sub_cancel' hle, bytesDone_start] at h
  rw [exec_xbytes hp, ← h]; rfl

/-- The same where bytes are left to be extracted: the loop makes another pass. -/
theorem exec_xbytes_pass {n : Count} {s : State} {bytes : List Byte} {rest : List Answer} {q : Ready}
    (hp : s.position = some .command) (hc : CursorInv s) (hl : s.late = false)
    (hs : s.src = bytes.map .byte ++ rest) (hq : s.outReady.takeN bytes.length = some q) (hlt : bytes.length < n.toNat) :
    ∃ left, exec (.xbytes n) s = .next (bytesLoop n (left + 1) (xbytesDone s bytes rest q)) :=
  ⟨n.toNat - bytes.length - 1, by rw [exec_xbytes_bytes hp hc hl hs hq (by omega)]; congr 2; omega⟩

/-- Settles O27: the loop runs over all the bytes, and its response ends the command. -/
theorem xbytesEmitsEveryByte : Obligations.XbytesEmitsEveryByte := by
  intro n s bytes rest q q' hp hc hl hq hq' hs hb
  obtain ⟨hwork, hmode⟩ := position_eq_command.mp hp
  rw [exec_xbytes_bytes hp hc hl hs (by rw [hb]; exact hq) (by omega), hb, Nat.sub_self, bytesLoop,
    respond_eq_of_take (q := q')]
  · congr 1
    apply State.ext <;> simp [xbytesDone, hwork, hmode, hb, State.holding]
  · exact hq'

/-- Settles O28: the pass after the bytes meets the Eof with the pending bits it began with. -/
theorem xbytesExhaustedKeepsPrefix : Obligations.XbytesExhaustedKeepsPrefix := by
  intro n s bytes rest q q' hp hc hl hq hq' hs hlt
  obtain ⟨hwork, hmode⟩ := position_eq_command.mp hp
  obtain ⟨left, hexec⟩ := exec_xbytes_pass hp hc hl hs hq hlt
  have hpend := xbytesDone_pending s bytes (.eof :: rest) q
  have hv := xbytesDone_v s bytes (.eof :: rest) q
  have h8 := p8_eof (n := 8) (xbytesDone_cursorInv s bytes (.eof :: rest) q) hl rfl (BitVec.isLt _) (Nat.le_refl 8)
  rw [hpend, hv] at h8
  have hvalue : (BitVec.ofNat 8 (bitsVal ((s.available bytes).drop (8 * bytes.length)) * 2 ^ (8 - s.v.toNat))).setWidth 64 =
      BitVec.ofNat 64 (bitsVal ((s.available bytes).drop (8 * bytes.length)) <<< (8 - s.v.toNat)) := by
    have hlt := bitsVal_lt ((s.available bytes).drop (8 * bytes.length))
    rw [drop_available_bytes_length] at hlt
    have hlt8 : bitsVal ((s.available bytes).drop (8 * bytes.length)) * 2 ^ (8 - s.v.toNat) < 2 ^ 8 :=
      calc _ < 2 ^ s.v.toNat * 2 ^ (8 - s.v.toNat) := Nat.mul_lt_mul_of_pos_right hlt (by positivity)
        _ = 2 ^ 8 := by rw [← Nat.pow_add]; congr 1; have := s.v.isLt; omega
    apply BitVec.eq_of_toNat_eq
    rw [BitVec.toNat_setWidth, BitVec.toNat_ofNat, BitVec.toNat_ofNat, Nat.shiftLeft_eq, Nat.mod_eq_of_lt hlt8]
  have hnvalid : s.v.setWidth 7 = BitVec.ofNat 7 s.v.toNat := by rw [BitVec.ofNat_toNat]
  rw [hexec, bytesLoop, h8]
  simp only [hvalue, hnvalid]
  rw [respond_eq_of_take (q := q')]
  · congr 1
    apply State.ext <;> simp [xbytesDone, hwork, hmode, State.holding, leftAlign, bitsVal]
  · exact hq'

/-- Settles O29: the pass after the bytes meets the error. -/
theorem xbytesSourceErrorKeepsPrefix : Obligations.XbytesSourceErrorKeepsPrefix := by
  intro n s bytes e rest q q' hp hc hl hq hq' hs hlt
  obtain ⟨hwork, hmode⟩ := position_eq_command.mp hp
  obtain ⟨left, hexec⟩ := exec_xbytes_pass hp hc hl hs hq hlt
  have h8 := p8_err (n := 8) (s := xbytesDone s bytes (.err e :: rest) q) hl rfl (BitVec.isLt _)
  rw [hexec, bytesLoop, h8]
  simp only
  rw [respond_eq_of_take (q := q')]
  · congr 1
    apply State.ext <;> simp [xbytesDone, hwork, hmode, State.holding, leftAlign, bitsVal]
  · exact hq'

/-- XBYTES that runs out of answers after `bytes` waits for the read of the next byte (R169). -/
theorem exec_xbytes_wait {n : Count} {s : State} {bytes : List Byte} {q : Ready} (hp : s.position = some .command)
    (hc : CursorInv s) (hl : s.late = false) (hq : s.outReady.takeN bytes.length = some q)
    (hs : s.src = bytes.map .byte) (hlt : bytes.length < n.toNat) :
    exec (.xbytes n) s = .next ((xbytesDone s bytes [] q).setWork (.byteRead n)) := by
  obtain ⟨left, hexec⟩ := exec_xbytes_pass (rest := []) hp hc hl (by simpa using hs) hq hlt
  have h8 := p8_wait (n := 8) (s := xbytesDone s bytes [] q) (srcRead_eq_none.mpr (.inr rfl)) (BitVec.isLt _)
  rw [hexec, bytesLoop, h8]

/-- XBYTES while an abandoned read is unanswered waits for the read of its first byte (log entry 8). -/
theorem exec_xbytes_late {n : Count} {s : State} (hp : s.position = some .command) (hl : s.late = true) (hn : n ≠ 0) :
    exec (.xbytes n) s = .next { s with mode := .xbytes, bc := 0, work := .byteRead n } := by
  have h8 := p8_wait (n := 8) (s := (s.setMode .xbytes).setBc 0) (srcRead_eq_none.mpr (.inl hl)) (BitVec.isLt _)
  obtain ⟨left, hleft⟩ : ∃ left, n.toNat - ((s.setMode .xbytes).setBc 0).bc.toNat = left + 1 :=
    Nat.exists_eq_succ_of_ne_zero (by simpa [BitVec.toNat_eq] using hn)
  rw [exec_xbytes hp, bytesRun, hleft, bytesLoop, h8]
  rfl

/-! ### A beat that is not taken -/

theorem Ready.takeN_upTo (m : Nat) : (Ready.upTo m).takeN m = some (.upTo 0) := by
  induction m with
  | zero => rfl
  | succ m ih => exact ih

/-- The events of bytes in two parts: the second begins at the index and the pending bits that the first leaves. -/
theorem byteEvents_append (i : Count) (bits : List Bool) (xs ys : List Byte) :
    byteEvents i bits (xs ++ ys) = byteEvents i bits xs ++
      byteEvents (i + BitVec.ofNat 24 xs.length) ((bits ++ xs.flatMap byteBits).drop (8 * xs.length)) ys := by
  induction xs generalizing i bits with
  | nil => simp [byteEvents]
  | cons x xs ih =>
    have hi : i + 1 + BitVec.ofNat 24 xs.length = i + BitVec.ofNat 24 (xs.length + 1) := by
      rw [BitVec.add_assoc, Nat.add_comm xs.length 1, BitVec.ofNat_add]; rfl
    have hbits : ((bits ++ byteBits x).drop 8 ++ xs.flatMap byteBits).drop (8 * xs.length) =
        (bits ++ (x :: xs).flatMap byteBits).drop (8 * (xs.length + 1)) := by
      rw [List.flatMap_cons, ← List.append_assoc, ← List.drop_append_of_le_length (by simp), List.drop_drop]
      congr 1; omega
    simp only [List.cons_append, byteEvents, ih, hi, hbits, List.length_cons]

/-- XBYTES whose host takes the beats of `bytes` and no more stops with the beat of the next byte pending (R170). -/
theorem exec_xbytes_beat {n : Count} {s : State} {bytes : List Byte} {b : Byte} {rest : List Answer}
    (hp : s.position = some .command) (hc : CursorInv s) (hl : s.late = false)
    (hq : s.outReady = .upTo bytes.length) (hs : s.src = bytes.map .byte ++ .byte b :: rest)
    (hlt : bytes.length < n.toNat) :
    exec (.xbytes n) s = .next ((afterByte (xbytesDone s bytes (.byte b :: rest) (.upTo 0)) b rest).setWork
      (.byteBeat n (joinedByte (xbytesDone s bytes (.byte b :: rest) (.upTo 0)) b))) := by
  obtain ⟨left, hexec⟩ := exec_xbytes_pass hp hc hl hs (by rw [hq, Ready.takeN_upTo]) hlt
  have hbeat : ∀ beat, takeBeat beat (afterByte (xbytesDone s bytes (.byte b :: rest) (.upTo 0)) b rest) = none :=
    fun _ => takeBeat_eq_none.mpr rfl
  have h8 := p8_byte (s := xbytesDone s bytes (.byte b :: rest) (.upTo 0)) hl rfl
  rw [hexec]
  simp only [bytesLoop, h8, hbeat]

/-! ### From V = 0 -/

/-- From no pending bits the beats are the source's bytes. -/
theorem byteEvents_nil_beats (i : Count) (bytes : List Byte) :
    (byteEvents i [] bytes).filter Event.isBeat = bytes.mapIdx fun k b => .beat (.byte (i + BitVec.ofNat 24 k) b) := by
  induction bytes generalizing i with
  | nil => rfl
  | cons b bytes ih =>
    have htake : (byteBits b).take 8 = byteBits b := List.take_of_length_le (by simp)
    have hdrop : (byteBits b).drop 8 = [] := List.drop_of_length_le (by simp)
    have hi : ∀ k, i + 1 + BitVec.ofNat 24 k = i + BitVec.ofNat 24 (k + 1) := fun k => by
      rw [BitVec.add_assoc, Nat.add_comm k 1, BitVec.ofNat_add]; rfl
    simp only [byteEvents, List.nil_append, htake, hdrop, bitsVal_byteBits, BitVec.ofNat_toNat, BitVec.setWidth_eq,
      List.mapIdx_cons, List.filter_cons, Event.isBeat, ih, hi]
    simp

/-- Settles O30: the beats are those of the loop from no pending bits, and V is as before. -/
theorem alignedXbytesIsTheIdentity : Obligations.AlignedXbytesIsTheIdentity := by
  intro n s bytes rest q q' hp hc hl hv hq hq' hs hb
  have hpend : s.pending = [] := by rw [State.pending, hv]; rfl
  refine ⟨_, xbytesEmitsEveryByte n s bytes rest q q' hp hc hl hq hq' hs hb, ?_, ?_⟩
  · have hlen := drop_available_bytes_length s bytes
    rw [hb] at hlen
    have hv' : BitVec.ofNat 3 ((s.available bytes).drop (8 * n.toNat)).length = 0 := by rw [hlen, hv]; rfl
    exact hv'
  · have hbeats := byteEvents_nil_beats 0 bytes
    simp only [zero_add] at hbeats
    simp only [hpend, List.append_assoc, List.drop_left, List.filter_append, hbeats]
    simp [Event.isBeat]

end Sys2Proof.Machine
end

section
/-!
PROOFS. The sequencer: the header and the ends of a POPULATE, each way a field of a supported kind ends
(spec/41_sequencer.md R120, R121, R129 to R131), and a whole record as slices of the bit string (R127, R128).
-/

namespace Sys2Proof.Machine

/-! ### The header -/

/-- Settles O32: the loop's first test leads to descriptor 0. -/
theorem populateStartsTheSequencer : Obligations.PopulateStartsTheSequencer := by
  intro n s hp hn
  obtain ⟨hwork, -⟩ := position_eq_command.mp hp
  have hlt : (0 : FieldIndex) < n := by
    rw [BitVec.lt_def]
    exact Nat.pos_of_ne_zero (by simpa [BitVec.toNat_eq] using hn)
  have hpos : ({ s with mode := .pop, nf := n, fi := 0, sc := 0 } : State).position = some .descriptor :=
    position_eq_descriptor.mpr ⟨hwork, rfl, hlt⟩
  refine ⟨?_, hpos⟩
  rcases popNext_cases ((((s.setMode .pop).setNf n).setFi 0).setSc 0) with ⟨-, h⟩ | ⟨hge, -⟩
  · rw [exec_populate hp, h]
    congr 1
    apply State.ext <;> simp [hwork]
  · exact absurd hlt hge

/-- Settles O33: the loop's first test ends the command. -/
theorem emptyPopulateResponds : Obligations.EmptyPopulateResponds := by
  intro s q hp hq
  obtain ⟨hwork, hmode⟩ := position_eq_command.mp hp
  rcases popNext_cases ((((s.setMode .pop).setNf 0).setFi 0).setSc 0) with ⟨hlt, -⟩ | ⟨-, h⟩
  · exact absurd hlt (by simp)
  · rw [exec_populate hp, h, respond_eq_of_take (q := q)]
    · congr 1
      apply State.ext <;> simp [hwork, hmode, populateResponse]
    · exact hq

/-! ### One field -/

/-- A field of a legal width is the extraction. -/
theorem exec_field_legal {k : Width} {skip : Bool} {w : Size} {s : State} (hp : s.position = some .descriptor)
    (h1 : 1 ≤ w.toNat) (h2 : w.toNat ≤ k.bits) :
    exec (.field k skip w) s = .next (extractStart k (.field k skip) w s) := by
  rw [exec_field hp, fieldStep, if_neg (by simp [sizeBad_eq_false h1 h2])]

/-- What the extraction of a field that ends OK leaves, before its slot. -/
def fieldBits (s : State) (w : Size) (bytes : List Byte) (rest : List Answer) : State :=
  { s.holding ((s.available bytes).drop w.toNat) with
    started := s.started || !bytes.isEmpty
    acc := valueOf ((s.available bytes).take w.toNat)
    nacc := w
    src := rest
    trace := s.trace ++ readEvents bytes }

/-- A field with bytes enough: its slot, and then the sequencer goes on with the next descriptor. -/
theorem exec_field_ok {k : Width} {skip : Bool} {w : Size} {s : State} {bytes : List Byte} {rest : List Answer}
    {q : Ready} (hp : s.position = some .descriptor) (hc : CursorInv s) (hl : s.late = false)
    (hq : s.outReady.takeN (if skip then 0 else 1) = some q) (h1 : 1 ≤ w.toNat) (h2 : w.toNat ≤ k.bits)
    (hs : s.src = bytes.map .byte ++ rest) (hb : bytes.length = readsFor w.toNat s.v.toNat) :
    exec (.field k skip w) s = .next (popNext
      { fieldBits s w bytes rest with
        fi := s.fi + 1
        sc := if skip then s.sc else s.sc + 1
        outReady := q
        trace := s.trace ++ readEvents bytes ++
          if skip then [] else [.beat (.slot s.sc k (valueOf ((s.available bytes).take w.toNat)))] }) := by
  have hslot := fieldSlot_of_take (k := k) (skip := skip) (value := valueOf ((s.available bytes).take w.toNat))
    (stop := none) (s := fieldBits s w bytes rest) hq
  rw [exec_field_legal hp h1 h2, extractStart_ok (.field k skip) hc hl h1 h2 hs hb]
  exact congrArg Host.Outcome.next hslot

/-- Settles O34: after the field's slot there is a further descriptor. -/
theorem fieldTakesLeadingBits : Obligations.FieldTakesLeadingBits := by
  intro k skip w s bytes rest q hp hc hl hfi hq h1 h2 hs hb
  obtain ⟨hwork, -, -⟩ := position_eq_descriptor.mp hp
  rw [exec_field_ok hp hc hl hq h1 h2 hs hb, popNext, if_pos (by exact hfi)]
  congr 1
  apply State.ext <;> simp [fieldBits, State.holding, hwork]

/-- Settles O35: after the field's slot there is no further descriptor. -/
theorem lastFieldEndsPopulate : Obligations.LastFieldEndsPopulate := by
  intro k skip w s bytes rest q q' hp hc hl hfi hq hq' h1 h2 hs hb
  obtain ⟨hwork, -, -⟩ := position_eq_descriptor.mp hp
  have hend : ¬ s.fi + 1 < s.nf := by rw [hfi]; exact BitVec.lt_irrefl _
  rw [exec_field_ok hp hc hl hq h1 h2 hs hb, popNext, if_neg (by exact hend), respond_eq_of_take (q := q')]
  · congr 1
    apply State.ext <;> simp [fieldBits, State.holding, hwork, ← hfi, populateResponse]
  · exact hq'

/-- Settles O36: the field ends EXHAUSTED; its slot is emitted first, and then the POPULATE stops at it. -/
theorem exhaustedFieldStopsPopulate : Obligations.ExhaustedFieldStopsPopulate := by
  intro k skip w s bytes rest skipped words q q' hp hc hl hq hq' h2 hs hb hcmd hlen
  obtain ⟨hwork, -, -⟩ := position_eq_descriptor.mp hp
  obtain ⟨acc, hx⟩ := extractStart_eof (.field k skip) hc hl h2 hs hb
  refine ⟨acc, ?_⟩
  rw [exec_field_legal hp (by omega) h2, hx, extractEnd, fieldSlot_of_take (q := q)]
  · rw [fieldEnd, popStop_of_words (q := q') (skipped := skipped) (words := words)]
    · congr 1
      apply State.ext <;> simp [hwork, populateResponse]
    · exact hcmd
    · exact hlen
    · exact hq'
  · exact hq

/-- Settles O37: the field ends SOURCE_ERROR and the POPULATE stops at it. -/
theorem fieldSourceErrorStopsPopulate : Obligations.FieldSourceErrorStopsPopulate := by
  intro k skip w s bytes e rest skipped words q hp hc hl hq h2 hs hb hcmd hlen
  obtain ⟨hwork, -, -⟩ := position_eq_descriptor.mp hp
  obtain ⟨acc, nacc, hx⟩ := extractStart_err (.field k skip) hc hl h2 hs hb
  refine ⟨acc, nacc, ?_⟩
  rw [exec_field_legal hp (by omega) h2, hx, extractEnd,
    popStop_of_words (q := q) (skipped := skipped) (words := words)]
  · congr 1
    apply State.ext <;> simp [hwork, populateResponse]
  · exact hcmd
  · exact hlen
  · exact hq

/-- Settles O38: the size check refuses the width before the extraction, and the POPULATE stops at the field. -/
theorem fieldSizeOverflowStopsPopulate : Obligations.FieldSizeOverflowStopsPopulate := by
  intro k skip w s skipped words q hp hq hsize hcmd hlen
  obtain ⟨hwork, -, -⟩ := position_eq_descriptor.mp hp
  rw [exec_field hp, fieldStep, if_pos (sizeBad_eq_true.mpr hsize), popStop_of_words hcmd hlen hq]
  congr 1
  apply State.ext <;> simp [hwork, populateResponse]

/-! ### A whole record -/

theorem core_run_succ {s t : State} (h : step s = .next t) (k : Nat) : core.run (k + 1) s = core.run k t := by
  have h' : core.step s = .next t := h
  exact (Host.Core.run.eq_2 core s k).trans (by rw [h'])

theorem decode_field_word (f : FieldSpec) : decode f.word = .ok (.field f.kind f.skip f.width) :=
  decodeOfEncodeIsTheInstruction _ (by cases f.kind <;> rfl)

/-- A step at a descriptor position, with the word of a field there, runs the field. -/
theorem step_field {s : State} {f : FieldSpec} {rest : List Word} (hr : s.rst = false) (hl : s.late = false)
    (hp : s.position = some .descriptor) (hc : s.cmd = f.word :: rest) :
    step s = exec (.field f.kind f.skip f.width) (s.setCmd rest) := by
  have h := (stepRunsDecodedInstruction s .descriptor f.word rest _ hr hp hc (decode_field_word f)).2
  rw [dropLate_of_not_late hl] at h
  exact h

/-- What a record of the fields `fs` from a descriptor position leaves: their bits are taken, their slots emitted, their
words consumed, and the POPULATE has ended OK. -/
def recordDone (s : State) (fs : List FieldSpec) (bytes : List Byte) (rest : List Answer) (words : List Word)
    (q q' : Ready) (acc : Value) (nacc : Size) : State :=
  { s.holding ((s.available bytes).drop (schemaBits fs)) with
    started := s.started || !bytes.isEmpty
    acc := acc
    nacc := nacc
    mode := .idle
    fi := s.nf
    sc := s.sc + BitVec.ofNat 16 (schemaSlots fs)
    cmd := words
    src := rest
    outReady := q
    rspReady := q'
    trace := s.trace ++ recordEvents fs s.sc s.pending bytes ++
      [.response {
        status := .ok
        count := (s.sc + BitVec.ofNat 16 (schemaSlots fs)).setWidth 24
        field := s.nf }] }

theorem schemaBits_cons (f : FieldSpec) (fs : List FieldSpec) : schemaBits (f :: fs) = f.width.toNat + schemaBits fs :=
  List.sum_cons

theorem schemaSlots_cons (f : FieldSpec) (fs : List FieldSpec) :
    schemaSlots (f :: fs) = (if f.skip then 0 else 1) + schemaSlots fs := by
  rw [schemaSlots, schemaSlots, List.countP_cons]
  cases f.skip <;> simp [Nat.add_comm]

theorem Ready.takeN_add {m n : Nat} {q r : Ready} (h : q.takeN (m + n) = some r) :
    ∃ p, q.takeN m = some p ∧ p.takeN n = some r := by
  induction m generalizing q with
  | zero => exact ⟨q, rfl, by simpa using h⟩
  | succ m ih =>
    rw [Nat.succ_add, Ready.takeN_succ_eq_some] at h
    obtain ⟨p, hp, h⟩ := h
    obtain ⟨p', hp', h⟩ := ih h
    exact ⟨p', Ready.takeN_succ_eq_some.mpr ⟨p, hp, hp'⟩, h⟩

/-- What one field of a record leaves, where further descriptors follow. -/
def afterField (s : State) (f : FieldSpec) (bytes : List Byte) (rest : List Answer) (words : List Word) (q : Ready) :
    State :=
  { s.holding ((s.available bytes).drop f.width.toNat) with
    started := s.started || !bytes.isEmpty
    acc := valueOf ((s.available bytes).take f.width.toNat)
    nacc := f.width
    fi := s.fi + 1
    sc := if f.skip then s.sc else s.sc + 1
    cmd := words
    src := rest
    outReady := q
    trace := s.trace ++ readEvents bytes ++
      if f.skip then [] else [.beat (.slot s.sc f.kind (valueOf ((s.available bytes).take f.width.toNat)))] }

theorem afterField_pending {s : State} {f : FieldSpec} {bytes : List Byte} (rest : List Answer) (words : List Word)
    (q : Ready) (hb : bytes.length = readsFor f.width.toNat s.v.toNat) :
    (afterField s f bytes rest words q).pending = (s.available bytes).drop f.width.toNat :=
  State.holding_pending s (drop_available_length_le hb)

theorem afterField_cursorInv {s : State} {f : FieldSpec} {bytes : List Byte} (rest : List Answer) (words : List Word)
    (q : Ready) (hb : bytes.length = readsFor f.width.toNat s.v.toNat) :
    CursorInv (afterField s f bytes rest words q) :=
  State.holding_cursorInv s (drop_available_length_le hb)

/-- The record of a first field and then of the others is the record of them all. -/
theorem recordDone_afterField {s : State} {f : FieldSpec} {fs : List FieldSpec} {xs ys : List Byte}
    (rest : List Answer) (words words' : List Word) (p q q' : Ready) (acc : Value) (nacc : Size)
    (hx : xs.length = readsFor f.width.toNat s.v.toNat) :
    recordDone (afterField s f xs (ys.map .byte ++ rest) words' p) fs ys rest words q q' acc nacc =
      recordDone s (f :: fs) (xs ++ ys) rest words q q' acc nacc := by
  have hv := s.v.isLt
  have hle : f.width.toNat ≤ (s.available xs).length := by
    rw [State.available_length, hx]; unfold readsFor; omega
  have hpend := afterField_pending (ys.map .byte ++ rest) words' p hx
  have hbits : ((afterField s f xs (ys.map .byte ++ rest) words' p).available ys).drop (schemaBits fs) =
      (s.available (xs ++ ys)).drop (schemaBits (f :: fs)) := by
    rw [State.available, hpend, State.available_append, schemaBits_cons, ← List.drop_drop,
      List.drop_append_of_le_length hle]
  have hsc : (if f.skip then s.sc else s.sc + 1) + BitVec.ofNat 16 (schemaSlots fs) =
      s.sc + BitVec.ofNat 16 (schemaSlots (f :: fs)) := by
    rw [schemaSlots_cons]
    cases f.skip
    · rw [if_neg (by decide), if_neg (by decide), BitVec.ofNat_add, ← BitVec.add_assoc]; rfl
    · simp
  have hst : (s.started || !xs.isEmpty || !ys.isEmpty) = (s.started || !(xs ++ ys).isEmpty) := by
    cases s.started <;> cases xs <;> cases ys <;> rfl
  have htake : (xs ++ ys).take (readsFor f.width.toNat s.pending.length) = xs := by
    rw [State.pending_length, ← hx, List.take_left]
  have hdrop : (xs ++ ys).drop (readsFor f.width.toNat s.pending.length) = ys := by
    rw [State.pending_length, ← hx, List.drop_left]
  have hev : recordEvents (f :: fs) s.sc s.pending (xs ++ ys) =
      readEvents xs ++ ((if f.skip then []
        else [.beat (.slot s.sc f.kind (valueOf ((s.available xs).take f.width.toNat)))]) ++
        recordEvents fs (if f.skip then s.sc else s.sc + 1) ((s.available xs).drop f.width.toNat) ys) := by
    rw [recordEvents]
    simp only [htake, hdrop]
    rfl
  rw [recordDone, recordDone, hbits, hev, ← hsc, ← hst, hpend]
  apply State.ext <;> simp [afterField, State.holding]

/-- A record from the loop's test on, one step for each descriptor (R120, R127 to R129). -/
theorem run_record (fs : List FieldSpec) {s : State} {bytes : List Byte} {rest : List Answer} {words : List Word}
    {q q' : Ready} (hwork : s.work = .boundary) (hm : s.mode = .pop) (hr : s.rst = false) (hl : s.late = false)
    (hc : CursorInv s) (hn : s.fi.toNat + fs.length = s.nf.toNat) (hok : ∀ f ∈ fs, sizeBad f.kind f.width = false)
    (hcmd : s.cmd = fs.map FieldSpec.word ++ words) (hs : s.src = bytes.map .byte ++ rest)
    (hb : bytes.length = readsFor (schemaBits fs) s.v.toNat) (hq : s.outReady.takeN (schemaSlots fs) = some q)
    (hq' : s.rspReady.take = some q') :
    ∃ acc nacc, core.run fs.length (popNext s) = .next (recordDone s fs bytes rest words q q' acc nacc) := by
  have hv := s.v.isLt
  induction fs generalizing s bytes with
  | nil =>
    have hbytes : bytes = [] := by
      apply List.eq_nil_of_length_eq_zero
      rw [hb, schemaBits, List.map_nil, List.sum_nil, readsFor]; omega
    subst hbytes
    obtain rfl : s.src = rest := hs
    obtain rfl : s.cmd = words := hcmd
    cases hq
    have hfi : s.fi = s.nf := BitVec.eq_of_toNat_eq hn
    have hend : ¬ s.fi < s.nf := by rw [hfi]; exact BitVec.lt_irrefl _
    refine ⟨s.acc, s.nacc, ?_⟩
    have hself : s.holding ((s.available []).drop (schemaBits [])) = s := by
      rw [State.available, List.flatMap_nil, List.append_nil]; exact State.holding_self hc
    have hdone : popNext s = recordDone s [] [] s.src s.cmd s.outReady q' s.acc s.nacc := by
      rw [popNext, if_neg hend, respond_eq_of_take hq', recordDone, hself]
      apply State.ext <;> simp [recordEvents, schemaSlots, populateResponse, hfi, hwork]
    rw [hdone]; rfl
  | cons f fs ih =>
    have hfi : s.fi.toNat < s.nf.toNat := by rw [List.length_cons] at hn; omega
    have hp : s.position = some .descriptor := position_eq_descriptor.mpr ⟨hwork, hm, hfi⟩
    have htest : popNext s = s := by rw [popNext, if_pos (by exact hfi), ← hwork]; rfl
    obtain ⟨h1, h2⟩ := sizeBad_legal (hok f (by simp))
    rw [schemaBits_cons] at hb
    rw [schemaSlots_cons] at hq
    obtain ⟨p, hpq, hq⟩ := Ready.takeN_add hq
    obtain ⟨xs, ys, rfl, hxs⟩ : ∃ xs ys, bytes = xs ++ ys ∧ xs.length = readsFor f.width.toNat s.v.toNat :=
      ⟨bytes.take _, bytes.drop _, (List.take_append_drop _ bytes).symm, by
        rw [List.length_take, Nat.min_eq_left]; rw [hb]; unfold readsFor; omega⟩
    rw [List.map_append, List.append_assoc] at hs
    generalize ht : afterField s f xs (ys.map .byte ++ rest) (fs.map FieldSpec.word ++ words) p = t
    have hstep : step s = .next (popNext t) := by
      rw [step_field (rest := fs.map FieldSpec.word ++ words) hr hl hp hcmd,
        exec_field_ok (s := s.setCmd (fs.map FieldSpec.word ++ words)) hp hc hl hpq h1 h2 hs hxs, ← ht]
      rfl
    have hpend : t.pending = (s.available xs).drop f.width.toNat := by
      rw [← ht]; exact afterField_pending _ _ p hxs
    have hvt : t.v.toNat = s.v.toNat + 8 * xs.length - f.width.toNat := by
      rw [← State.pending_length, hpend, List.length_drop, State.available_length]
    have hys : ys.length = readsFor (schemaBits fs) t.v.toNat := by
      rw [List.length_append, hxs] at hb
      rw [hvt, hxs]
      unfold readsFor at hb ⊢
      omega
    have hnt : t.fi.toNat + fs.length = t.nf.toNat := by
      have hfit : t.fi.toNat = s.fi.toNat + 1 := by rw [← ht]; exact succ_toNat_of_lt hfi
      have hnft : t.nf = s.nf := by rw [← ht]; rfl
      rw [hfit, hnft, ← hn, List.length_cons]; omega
    obtain ⟨acc, nacc, hrun⟩ := ih (s := t) (bytes := ys) (by rw [← ht]; exact hwork) (by rw [← ht]; exact hm)
      (by rw [← ht]; exact hr) (by rw [← ht]; exact hl) (by rw [← ht]; exact afterField_cursorInv _ _ p hxs) hnt
      (fun d hd => hok d (List.mem_cons_of_mem f hd)) (by rw [← ht]; rfl) (by rw [← ht]; rfl) hys
      (by rw [← ht]; exact hq) (by rw [← ht]; exact hq') t.v.isLt
    refine ⟨acc, nacc, ?_⟩
    rw [htest, List.length_cons, core_run_succ hstep, hrun, ← ht, recordDone_afterField _ _ _ _ _ _ _ _ hxs]

/-- The state at the loop's first test, the header word being consumed. -/
def popHeader (n : FieldIndex) (rest : List Word) (s : State) : State :=
  { s with
    mode := .pop
    nf := n
    fi := 0
    sc := 0
    cmd := rest
    trace := s.trace ++ [.command (encode (.populate n))] }

/-- A step at the header of a POPULATE starts the sequencer. -/
theorem step_populate {s : State} {n : FieldIndex} {rest : List Word} (hr : s.rst = false) (hl : s.late = false)
    (hp : s.position = some .command) (hc : s.cmd = encode (.populate n) :: rest) :
    step s = .next (popNext (popHeader n rest s)) := by
  have h := (stepRunsDecodedInstruction s .command _ rest _ hr hp hc (decode_encode_populate n)).2
  rw [dropLate_of_not_late hl, exec_populate (by rw [State.consumed_position, hp])] at h
  exact h

/-- The record after the header, in terms of the state before it. -/
theorem recordDone_popHeader {n : FieldIndex} {s : State} (fs : List FieldSpec) (bytes : List Byte) (rest : List Answer)
    (words words' : List Word) (q q' : Ready) (acc : Value) (nacc : Size) :
    recordDone (popHeader n words' s) fs bytes rest words q q' acc nacc =
      { s.holding ((s.available bytes).drop (schemaBits fs)) with
        started := s.started || !bytes.isEmpty
        acc := acc
        nacc := nacc
        mode := .idle
        fi := n
        nf := n
        sc := BitVec.ofNat 16 (schemaSlots fs)
        cmd := words
        src := rest
        outReady := q
        rspReady := q'
        trace := s.trace ++ [.command (encode (.populate n))] ++ recordEvents fs 0 s.pending bytes ++
          [.response {
            status := .ok
            count := (BitVec.ofNat 16 (schemaSlots fs)).setWidth 24
            field := n }] } := by
  have hsc : (popHeader n words' s).sc + BitVec.ofNat 16 (schemaSlots fs) = BitVec.ofNat 16 (schemaSlots fs) :=
    BitVec.zero_add _
  rw [recordDone, hsc]
  rfl

/-- Settles O42: the header reaches the loop's test with FI and SC 0, and the record runs from there. -/
theorem populateSlicesTheBitString : Obligations.PopulateSlicesTheBitString := by
  intro fs s bytes rest words q q' hp hr hl hc hlen hok hcmd hs hb hq hq'
  obtain ⟨hwork, hmode⟩ := position_eq_command.mp hp
  have hnf : (BitVec.ofNat 16 fs.length).toNat = fs.length := by rw [BitVec.toNat_ofNat, Nat.mod_eq_of_lt hlen]
  have hslots : schemaSlots fs < 2 ^ 16 := Nat.lt_of_le_of_lt List.countP_le_length hlen
  have hcount : (BitVec.ofNat 16 (schemaSlots fs)).setWidth 24 = BitVec.ofNat 24 (schemaSlots fs) := by
    apply BitVec.eq_of_toNat_eq
    rw [BitVec.toNat_setWidth, BitVec.toNat_ofNat, BitVec.toNat_ofNat, Nat.mod_eq_of_lt hslots]
  generalize hn : BitVec.ofNat 16 fs.length = n at hcmd hnf ⊢
  obtain ⟨acc, nacc, hrun⟩ := run_record fs (s := popHeader n (fs.map FieldSpec.word ++ words) s) hwork rfl hr hl hc
    (by rw [popHeader, hnf]; exact Nat.zero_add _) hok rfl hs hb hq hq'
  refine ⟨acc, nacc, ?_⟩
  rw [core_run_succ (step_populate hr hl hp hcmd), hrun, recordDone_popHeader, hcount]
  congr 1
  apply State.ext <;> simp [hmode]

end Sys2Proof.Machine
end

section
/-!
PROOFS. The bound on the reads of an instruction (spec/70_reset_and_hazards.md R172), and that an instruction ends once the
outside world does its duties (R169, R170, R173).
-/

namespace Sys2Proof.Machine

/-! ### Reads made are answers taken -/

theorem countP_isRead_reads (as : List Answer) : (as.map Event.read).countP Event.isRead = as.length := by
  induction as with
  | nil => rfl
  | cons a as ih => exact (List.countP_cons_of_pos rfl).trans (congrArg (· + 1) ih)

/-- Every answer taken is logged as a read, and nothing else is. -/
theorem Flow.reads {s t : State} (h : Flow s t) : t.reads + t.src.length = s.reads + s.src.length := by
  induction h with
  | quiet h =>
    obtain ⟨es, htr, hes⟩ := h.trace
    have hnone : es.countP Event.isRead = 0 := by
      refine List.countP_eq_zero.mpr fun e he => ?_
      have hkind := hes e he
      cases e with
      | read a => simp [Event.isBeat, Event.isResponse] at hkind
      | command | beat | response => simp [Event.isRead]
    rw [State.reads, State.reads, htr, List.countP_append, hnone, h.src, Nat.add_zero]
  | p8 n s =>
    obtain ⟨as, hsrc, htr⟩ := (p8_reads n s).reads
    rw [State.reads, State.reads, htr, List.countP_append, countP_isRead_reads, hsrc, List.length_append]
    omega
  | drop s =>
    rcases dropLate_cases s with ⟨h, -⟩ | ⟨a, rest, -, hs, h⟩ <;> rw [h]
    simp [State.reads, Event.isRead, hs]
    omega
  | clear s => rfl
  | trans _ _ ih₁ ih₂ => exact ih₂.trans ih₁

/-- The reads made from `s` to `t` and those left at `t` are at most `bound`, counted by the answers that are left. -/
def ReadsWithin (bound : Nat) (s t : State) : Prop := s.src.length + t.readsLeft ≤ bound + t.src.length

/-- An operation that reads nothing and leaves nothing to read. -/
theorem ReadsWithin.of_src_eq {bound : Nat} {s t : State} (h : t.src = s.src) (hleft : t.readsLeft = 0) :
    ReadsWithin bound s t := by
  rw [ReadsWithin, h, hleft]; omega

/-! ### What ends or suspends an instruction leaves no reads -/

theorem respond_readsLeft (r : Response) (s : State) : (respond r s).readsLeft = 0 := by
  rcases respond_cases r s with ⟨q, -, h⟩ | ⟨-, h⟩ <;> rw [h] <;> rfl

theorem popStop_readsLeft (st : Status) (n : Size) (e : SrcErr) (s : State) : (popStop st n e s).readsLeft = 0 := by
  rw [popStop]
  rcases drain_cases (s.nf.toNat - s.fi.toNat - 1) (populateResponse st n e s.sc s.fi) s with ⟨-, h⟩ | ⟨-, h⟩ <;> rw [h]
  · exact respond_readsLeft _ _
  · rfl

theorem drain_readsLeft (left : Nat) (r : Response) (s : State) : (drain left r s).readsLeft = 0 := by
  rcases drain_cases left r s with ⟨-, h⟩ | ⟨-, h⟩ <;> rw [h]
  · exact respond_readsLeft _ _
  · rfl

theorem popNext_readsLeft (s : State) : (popNext s).readsLeft = 0 := by
  rcases popNext_cases s with ⟨-, h⟩ | ⟨-, h⟩ <;> rw [h]
  · rfl
  · exact respond_readsLeft _ _

theorem fieldEnd_readsLeft (stop : Option Size) (s : State) : (fieldEnd stop s).readsLeft = 0 := by
  cases stop with
  | none => exact popNext_readsLeft _
  | some n => exact popStop_readsLeft _ _ _ s

theorem fieldSlot_readsLeft (k : Width) (skip : Bool) (value : Value) (stop : Option Size) (s : State) :
    (fieldSlot k skip value stop s).readsLeft = 0 := by
  unfold fieldSlot
  split
  · exact fieldEnd_readsLeft stop s
  · split
    · exact fieldEnd_readsLeft stop _
    · rfl

/-- The reads that the result of XW leaves to be made. -/
def xwReadsLeft : XwResult → State → Nat
  | .wait left, t => readsFor left.sum t.v.toNat
  | _, _ => 0

theorem extractEnd_readsLeft (sink : Sink) (size : Size) (r : XwResult) (s : State) :
    (extractEnd sink size r s).readsLeft = xwReadsLeft r s := by
  cases sink with
  | xbits =>
    cases r with
    | ok | exhausted | sourceError => exact respond_readsLeft _ s
    | wait cs => rfl
  | field k skip =>
    cases r with
    | ok value => exact fieldSlot_readsLeft _ _ _ _ s
    | exhausted value nv => exact fieldSlot_readsLeft _ _ _ _ s
    | sourceError e => exact popStop_readsLeft _ _ _ s
    | wait cs => rfl

/-! ### The bounds -/

/-- P8 uses up the bits of its chunk: what it reads and what is left to read of a request that goes on after it. -/
theorem p8_ok_readsFor {c n : Nat} {s t : State} {b : Byte} (h8 : c ≤ 8) (h : p8 c s = (.ok b, t)) :
    s.src.length + readsFor n t.v.toNat ≤ readsFor (c + n) s.v.toNat + t.src.length := by
  have hv := s.v.isLt
  rcases p8_cases c s with ⟨hn, h'⟩ | ⟨hn, ⟨b', rest, -, hs, h'⟩ | ⟨rest, -, -, h'⟩ | ⟨e, rest, -, -, h'⟩ | ⟨-, h'⟩⟩ <;>
    rw [h] at h'
  · obtain rfl : t = _ := congrArg Prod.snd h'
    have hv' : (p8Serve c s).2.v.toNat = s.v.toNat - c := by
      simp only [p8Serve, State.setCursor_v, BitVec.toNat_ofNat]; omega
    have hsrc : (p8Serve c s).2.src = s.src := rfl
    rw [hv', hsrc]
    unfold readsFor; omega
  · obtain rfl : t = _ := congrArg Prod.snd h'
    have hv' : (p8Byte c b' ((s.setSrc rest).log (.read (.byte b')))).2.v.toNat = 8 - (c - s.v.toNat) := by
      simp only [p8Byte, State.setStarted_v, State.setCursor_v, State.log_v, State.setSrc_v, BitVec.toNat_ofNat]; omega
    have hsrc : (p8Byte c b' ((s.setSrc rest).log (.read (.byte b')))).2.src = rest := rfl
    rw [hv', hsrc, hs, List.length_cons]
    unfold readsFor; omega
  · exact absurd (congrArg Prod.fst h') (by simp [p8Eof])
  · exact absurd (congrArg Prod.fst h') (by simp [p8Err])
  · exact absurd (congrArg Prod.fst h') (by simp)

/-- A P8 that does not end OK makes one read at most, and only for a chunk longer than the pending bits. -/
theorem p8_not_ok_reads {c : Nat} {s t : State} {r : P8Result} (h : p8 c s = (r, t)) (hr : ∀ b, r ≠ .ok b) :
    s.v.toNat < c ∧ s.src.length ≤ t.src.length + 1 := by
  rcases p8_cases c s with ⟨hn, h'⟩ | ⟨hn, h'⟩
  · rw [h] at h'; exact absurd (congrArg Prod.fst h') (by simpa [p8Serve] using hr _)
  · refine ⟨hn, ?_⟩
    rcases h' with ⟨b', rest, -, hs, h'⟩ | ⟨rest, -, hs, h'⟩ | ⟨e, rest, -, hs, h'⟩ | ⟨-, h'⟩ <;> rw [h] at h' <;>
      obtain rfl : t = _ := congrArg Prod.snd h'
    · rw [hs]; rfl
    · rw [hs]; rfl
    · rw [hs]; rfl
    · omega

theorem xwLoop_readsWithin {cs : List Nat} (hp : Plan cs) (s : State) :
    s.src.length + xwReadsLeft (xwLoop cs s).1 (xwLoop cs s).2 ≤
      readsFor cs.sum s.v.toNat + (xwLoop cs s).2.src.length := by
  induction cs generalizing s with
  | nil => simp [xwLoop, xwReadsLeft]
  | cons c cs ih =>
    obtain ⟨h1, h8⟩ := hp c (by simp)
    rcases hx : p8 c s with ⟨r, t⟩
    rw [List.sum_cons]
    cases r with
    | ok b =>
      have hhead := p8_ok_readsFor (n := cs.sum) h8 hx
      have htail := ih (fun d hd => hp d (by simp [hd])) (accumulate c b (BitVec.ofNat 7 c) t)
      have hsrc : (accumulate c b (BitVec.ofNat 7 c) t).src = t.src := rfl
      have hv : (accumulate c b (BitVec.ofNat 7 c) t).v = t.v := rfl
      rw [hsrc, hv] at htail
      simp only [xwLoop, hx]
      omega
    | exhausted value nv =>
      obtain ⟨hn, hle⟩ := p8_not_ok_reads hx (by simp)
      have hsrc : (accumulate c value nv t).src = t.src := rfl
      simp only [xwLoop, hx, xwReadsLeft, hsrc]
      unfold readsFor; omega
    | sourceError e =>
      obtain ⟨hn, hle⟩ := p8_not_ok_reads hx (by simp)
      simp only [xwLoop, hx, xwReadsLeft]
      unfold readsFor; omega
    | wait =>
      obtain rfl := p8_wait_state hx
      simp only [xwLoop, hx, xwReadsLeft, List.sum_cons]
      omega

theorem extractRun_readsWithin (sink : Sink) (size : Size) {cs : List Nat} (hp : Plan cs) (s : State) :
    ReadsWithin (readsFor cs.sum s.v.toNat) s (extractRun sink size cs s) := by
  rw [ReadsWithin, extractRun, extractEnd_readsLeft, (extractEnd_tail _ _ _ _).src]
  exact xwLoop_readsWithin hp s

theorem takeBeat_src {b : Beat} {s t : State} (h : takeBeat b s = some t) : t.src = s.src := (takeBeat_tail h).src

theorem bytesLoop_readsWithin {n : Count} {left : Nat} {s : State} (hleft : left = n.toNat - s.bc.toNat) :
    ReadsWithin left s (bytesLoop n left s) := by
  induction left generalizing s with
  | zero => exact .of_src_eq (respond_tail _ s).src (respond_readsLeft _ s)
  | succ left ih =>
    have hlt : s.bc.toNat < n.toNat := by omega
    rcases bytesLoop_cases n left s with ⟨b, t, u, h8, hb, h⟩ | ⟨b, t, h8, -, h⟩ | ⟨value, nv, t, h8, h⟩ | ⟨e, t, h8, h⟩ |
      ⟨h8, h⟩ <;> rw [h, ReadsWithin] <;> have hframe := p8_reads_of_eq h8
    · have hread := p8_ok_readsFor (n := 0) (Nat.le_refl 8) h8
      have hbc : u.bc = t.bc := (takeBeat_tail hb).bc
      have htail := ih (s := u.setBc (u.bc + 1)) (by
        rw [State.setBc_bc, hbc, hframe.bc, succ_toNat_of_lt hlt]; omega)
      rw [ReadsWithin, State.setBc_src, takeBeat_src hb] at htail
      unfold readsFor at hread
      omega
    · have hread := p8_ok_readsFor (n := 0) (Nat.le_refl 8) h8
      have hl : (t.setWork (.byteBeat n b)).readsLeft = left := by
        simp only [State.readsLeft, State.setWork_work, State.setWork_bc, hframe.bc]; omega
      rw [hl, State.setWork_src]
      unfold readsFor at hread
      omega
    · have hread := (p8_not_ok_reads h8 (by simp)).2
      rw [respond_readsLeft, (respond_tail _ _).src]; omega
    · have hread := (p8_not_ok_reads h8 (by simp)).2
      rw [respond_readsLeft, (respond_tail _ _).src]; omega
    · have hl : (s.setWork (.byteRead n)).readsLeft = left + 1 := hleft.symm
      rw [hl, State.setWork_src]; omega

theorem byteEmit_readsWithin {n : Count} {b : Byte} {s : State} (hlt : s.bc.toNat < n.toNat) :
    ReadsWithin (n.toNat - s.bc.toNat - 1) s (byteEmit n b s) := by
  rcases byteEmit_cases n b s with ⟨q, -, h⟩ | ⟨-, h⟩ <;> rw [h]
  · have hleft := bytesLoop_readsWithin (n := n)
      (s := ((s.setOutReady q).log (.beat (.byte s.bc b))).setBc (s.bc + 1)) rfl
    rw [State.setBc_bc, succ_toNat_of_lt hlt, ← Nat.sub_sub] at hleft
    rw [bytesRun, State.setBc_bc, succ_toNat_of_lt hlt, ← Nat.sub_sub]
    exact hleft
  · exact Nat.le_of_eq (Nat.add_comm _ _)

theorem illegalRun_readsWithin (p : Position) (bound : Nat) (s : State) : ReadsWithin bound s (illegalRun p s) := by
  cases p
  · exact .of_src_eq (respond_tail _ s).src (respond_readsLeft _ s)
  · exact .of_src_eq (popStop_tail _ _ _ s).src (popStop_readsLeft _ _ _ s)

theorem readBound_xbits (v : Nat) (k : Width) (n : Size) :
    readBound v (.xbits k n) = if sizeBad k n then 0 else readsFor n.toNat v := by
  cases k <;> rfl

theorem readBound_field (v : Nat) (k : Width) (skip : Bool) (n : Size) :
    readBound v (.field k skip n) = if sizeBad k n then 0 else readsFor n.toNat v := by
  cases k <;> rfl

/-- The extraction of a legal request makes the reads of its bound. -/
theorem extractStart_readsWithin {k : Width} {size : Size} (sink : Sink) (h : sizeBad k size = false) (s : State) :
    ReadsWithin (readsFor size.toNat s.v.toNat) s (extractStart k sink size s) := by
  obtain ⟨h1, h2⟩ := sizeBad_legal h
  obtain ⟨hp, hsum, -⟩ := chunks_plan h1 h2
  have hx := extractRun_readsWithin sink size hp (s.setAccum 0 0)
  rw [hsum] at hx
  exact hx

theorem instrRun_readsWithin (p : Position) (i : Instr) (s : State) :
    ReadsWithin (readBound s.v.toNat i) s (instrRun p i s) := by
  refine instrRun_cases (P := fun _ i run => ReadsWithin (readBound s.v.toNat i) s (run s))
    (fun p i => illegalRun_readsWithin p _ s) (fun k n => ?_) (fun n => ?_)
    (fun n => .of_src_eq (popNext_tail _).src (popNext_readsLeft _))
    (.of_src_eq (respond_tail _ _).src (respond_readsLeft _ _)) (fun k skip n => ?_)
    (fun _ _ _ => .of_src_eq (popStop_tail _ _ _ s).src (popStop_readsLeft _ _ _ s)) p i
  · rcases xbits_cases k n s with ⟨-, h⟩ | ⟨hok, h⟩ <;> rw [h]
    · exact .of_src_eq (respond_tail _ _).src (respond_readsLeft _ _)
    · rw [readBound_xbits, hok]
      exact extractStart_readsWithin .xbits hok (s.setMode .xbits)
  · exact bytesLoop_readsWithin (s := (s.setMode .xbytes).setBc 0) rfl
  · rcases fieldStep_cases k skip n s with ⟨-, h⟩ | ⟨hok, h⟩ <;> rw [h]
    · exact .of_src_eq (popStop_tail _ _ _ s).src (popStop_readsLeft _ _ _ s)
    · rw [readBound_field, hok]
      exact extractStart_readsWithin (.field k skip) hok s

theorem resume_readsWithin {s : State} (hc : ControlInv s) : ReadsWithin s.readsLeft s (resume s) := by
  cases hw : s.work with
  | boundary => rw [resume, hw]; exact Nat.le_of_eq (Nat.add_comm _ _)
  | extract sink size cs =>
    have hleft : s.readsLeft = readsFor cs.sum s.v.toNat := by simp [State.readsLeft, hw]
    rw [resume_of_extract hw, hleft]
    exact extractRun_readsWithin _ _ (hc.sinkOk hw).2.1.plan s
  | byteRead n =>
    have hleft : s.readsLeft = n.toNat - s.bc.toNat := by simp [State.readsLeft, hw]
    rw [resume_of_byteRead hw, hleft]
    exact bytesLoop_readsWithin rfl
  | byteBeat n b =>
    have hleft : s.readsLeft = n.toNat - s.bc.toNat - 1 := by simp [State.readsLeft, hw]
    rw [ControlInv, controlOk, hw, Bool.and_eq_true, decide_eq_true_eq, decide_eq_true_eq] at hc
    rw [resume_of_byteBeat hw, hleft]
    exact byteEmit_readsWithin hc.2
  | slotBeat k value stop =>
    rw [resume_of_slotBeat hw]
    exact .of_src_eq (fieldSlot_tail _ _ _ _ s).src (fieldSlot_readsLeft _ _ _ _ s)
  | drain left r =>
    rw [resume_of_drain hw]
    exact .of_src_eq (drain_tail _ _ s).src (drain_readsLeft _ _ s)
  | respond r =>
    rw [resume_of_respond hw]
    exact .of_src_eq (respond_tail _ s).src (respond_readsLeft _ s)

/-- Settles O52: the reads made are the answers taken, and these stay within the bound. -/
theorem instructionReadsAreBounded : Obligations.InstructionReadsAreBounded := by
  refine ⟨fun i s t _ h => ?_, fun s t hc hr hl hw h => ?_⟩
  · obtain ⟨p, -, rfl⟩ := exec_eq_next h
    have hflow := (instrRun_flow p i s).reads
    have hbound : s.src.length + _ ≤ _ := instrRun_readsWithin p i s
    omega
  · rw [step_of_waiting hr hw, dropLate_of_not_late hl] at h
    cases h
    have hflow := (resume_flow s).reads
    have hbound : s.src.length + _ ≤ _ := resume_readsWithin hc
    omega

end Sys2Proof.Machine
end

section
/-!
PROOFS. An instruction ends once the outside world does its duties, from its start and from any wait (spec/70_reset_and_hazards.md
R169, R170, R173).
-/

namespace Sys2Proof.Machine

/-- The host takes every beat and response, and no abandoned read is outstanding. -/
structure HostReady (s : State) : Prop where
  out : s.outReady = .always
  rsp : s.rspReady = .always
  late : s.late = false

theorem HostReady.of_reads {s t : State} (h : HostReady s) (hf : ReadFrame s t) : HostReady t :=
  ⟨by rw [hf.outReady, h.out], by rw [hf.rspReady, h.rsp], by rw [hf.late, h.late]⟩

/-! ### The ends -/

theorem respond_ends {r : Response} {s : State} (h : s.rspReady = .always) : (respond r s).work = .boundary := by
  rw [respond_of_take (q := .always) (by rw [h]; rfl)]; rfl

theorem drain_ends {left : Nat} {r : Response} {s : State} (h : s.rspReady = .always) (hw : left ≤ s.cmd.length) :
    (drain left r s).work = .boundary := by
  rw [drain, if_pos hw]
  exact respond_ends h

theorem popStop_ends {st : Status} {n : Size} {e : SrcErr} {s : State} (h : s.rspReady = .always)
    (hw : s.wordsAfter ≤ s.cmd.length) : (popStop st n e s).work = .boundary := drain_ends h hw

theorem popNext_ends {s : State} (h : s.rspReady = .always) : (popNext s).work = .boundary := by
  rcases popNext_cases s with ⟨-, h'⟩ | ⟨-, h'⟩ <;> rw [h']
  · rfl
  · exact respond_ends h

theorem fieldEnd_ends (stop : Option Size) {s : State} (h : s.rspReady = .always) (hw : s.wordsAfter ≤ s.cmd.length) :
    (fieldEnd stop s).work = .boundary := by
  cases stop with
  | none => exact popNext_ends h
  | some n => exact popStop_ends h hw

theorem fieldSlot_ends (k : Width) (skip : Bool) (value : Value) (stop : Option Size) {s : State} (h : HostReady s)
    (hw : s.wordsAfter ≤ s.cmd.length) : (fieldSlot k skip value stop s).work = .boundary := by
  unfold fieldSlot
  split
  · exact fieldEnd_ends stop h.rsp hw
  · rw [takeBeat_of_take (q := .always) (by rw [h.out]; rfl)]
    exact fieldEnd_ends stop h.rsp hw

/-! ### Extractions -/

/-- What the end of an extraction needs of the command stream: a field may have to consume the words after it. -/
def SinkFed (s : State) : Sink → Prop
  | .xbits => True
  | .field _ _ => s.wordsAfter ≤ s.cmd.length

/-- With the reads of its plan answered, XW does not wait. -/
theorem xwLoop_not_wait {cs : List Nat} (hp : Plan cs) {s : State} (hl : s.late = false)
    (hs : readsFor cs.sum s.v.toNat ≤ s.src.length) (left : List Nat) : (xwLoop cs s).1 ≠ .wait left := by
  intro hwait
  have hreads := xwLoop_readsWithin hp s
  obtain ⟨-, hv, hnone⟩ := xwLoop_eq_wait (t := (xwLoop cs s).2) (Prod.ext hwait rfl)
  have hsrc : (xwLoop cs s).2.src = [] := by
    rcases srcRead_eq_none.mp hnone with h | h
    · rw [(xwLoop_reads cs s).late, hl] at h; cases h
    · exact h
  have hsum : (xwLoop cs s).2.v.toNat < left.sum := by
    cases left with
    | nil => simp at hv
    | cons c left => rw [List.headD_cons] at hv; rw [List.sum_cons]; omega
  rw [hwait, hsrc, List.length_nil, xwReadsLeft] at hreads
  have hpos : 1 ≤ readsFor left.sum (xwLoop cs s).2.v.toNat := by unfold readsFor; omega
  omega

theorem extractEnd_ends {sink : Sink} (size : Size) {r : XwResult} {s : State} (h : HostReady s) (hw : SinkFed s sink)
    (hr : ∀ left, r ≠ .wait left) : (extractEnd sink size r s).work = .boundary := by
  cases r with
  | wait left => exact absurd rfl (hr left)
  | ok value =>
    cases sink with
    | xbits => exact respond_ends h.rsp
    | field k skip => exact fieldSlot_ends _ _ _ _ h hw
  | exhausted value nv =>
    cases sink with
    | xbits => exact respond_ends h.rsp
    | field k skip => exact fieldSlot_ends _ _ _ _ h hw
  | sourceError e =>
    cases sink with
    | xbits => exact respond_ends h.rsp
    | field k skip => exact popStop_ends h.rsp hw

theorem SinkFed.of_reads {s t : State} {sink : Sink} (h : SinkFed s sink) (hf : ReadFrame s t) : SinkFed t sink := by
  cases sink with
  | xbits => trivial
  | field k skip =>
    have h' : s.nf.toNat - s.fi.toNat - 1 ≤ s.cmd.length := h
    rw [SinkFed, State.wordsAfter, hf.nf, hf.fi, hf.cmd]
    exact h'

theorem extractRun_ends {sink : Sink} (size : Size) {cs : List Nat} (hp : Plan cs) {s : State} (h : HostReady s)
    (hw : SinkFed s sink) (hs : readsFor cs.sum s.v.toNat ≤ s.src.length) :
    (extractRun sink size cs s).work = .boundary :=
  extractEnd_ends size (h.of_reads (xwLoop_reads cs s)) (hw.of_reads (xwLoop_reads cs s))
    (xwLoop_not_wait hp h.late hs)

theorem extractStart_ends {k : Width} {sink : Sink} {size : Size} (hok : sizeBad k size = false) {s : State}
    (h : HostReady s) (hw : SinkFed s sink) (hs : readsFor size.toNat s.v.toNat ≤ s.src.length) :
    (extractStart k sink size s).work = .boundary := by
  obtain ⟨h1, h2⟩ := sizeBad_legal hok
  obtain ⟨hp, hsum, -⟩ := chunks_plan h1 h2
  have hw' : SinkFed (s.setAccum 0 0) sink := by cases sink <;> exact hw
  exact extractRun_ends (s := s.setAccum 0 0) size hp ⟨h.out, h.rsp, h.late⟩ hw' (by rw [hsum]; exact hs)

/-! ### XBYTES -/

theorem bytesLoop_ends {n : Count} {left : Nat} {s : State} (h : HostReady s) (hs : left ≤ s.src.length) :
    (bytesLoop n left s).work = .boundary := by
  induction left generalizing s with
  | zero => exact respond_ends h.rsp
  | succ left ih =>
    rcases bytesLoop_cases n left s with ⟨b, t, u, h8, hb, h'⟩ | ⟨b, t, h8, hq, -⟩ | ⟨value, nv, t, h8, h'⟩ |
      ⟨e, t, h8, h'⟩ | ⟨h8, -⟩ <;> have ht := h.of_reads (p8_reads_of_eq h8)
    · have hread := p8_ok_readsFor (n := 0) (Nat.le_refl 8) h8
      obtain ⟨q, hq, rfl⟩ := takeBeat_eq_some hb
      rw [ht.out] at hq
      cases hq
      rw [h']
      refine ih ⟨rfl, ht.rsp, ht.late⟩ ?_
      simp only [State.setBc_src, State.log_src, State.setOutReady_src]
      unfold readsFor at hread
      omega
    · rw [ht.out] at hq; cases hq
    · rw [h']; exact respond_ends ht.rsp
    · rw [h']; exact respond_ends ht.rsp
    · rcases srcRead_eq_none.mp (p8_eq_wait h8).2 with hl | hnil
      · rw [h.late] at hl; cases hl
      · rw [hnil] at hs; simp at hs

/-! ### Instructions and waits -/

theorem instrRun_ends {p : Position} {s : State} (i : Instr) (h : HostReady s)
    (hs : readBound s.v.toNat i ≤ s.src.length) (hw : p = .descriptor → s.wordsAfter ≤ s.cmd.length) :
    (instrRun p i s).work = .boundary := by
  refine instrRun_cases (P := fun p i run => readBound s.v.toNat i ≤ s.src.length →
    (p = .descriptor → s.wordsAfter ≤ s.cmd.length) → (run s).work = .boundary)
    (fun p _ _ hw => ?_) (fun k n hs _ => ?_) (fun n hs _ => ?_) (fun n _ _ => popNext_ends h.rsp)
    (fun _ _ => respond_ends h.rsp) (fun k skip n hs hw => ?_) (fun _ _ _ _ hw => popStop_ends h.rsp (hw rfl)) p i hs hw
  · cases p
    · exact respond_ends h.rsp
    · exact popStop_ends h.rsp (hw rfl)
  · rcases xbits_cases k n s with ⟨-, h'⟩ | ⟨hok, h'⟩ <;> rw [h']
    · exact respond_ends h.rsp
    · rw [readBound_xbits, hok] at hs
      exact extractStart_ends (s := s.setMode .xbits) (sink := .xbits) hok ⟨h.out, h.rsp, h.late⟩ trivial hs
  · exact bytesLoop_ends (s := (s.setMode .xbytes).setBc 0) ⟨h.out, h.rsp, h.late⟩ hs
  · rcases fieldStep_cases k skip n s with ⟨-, h'⟩ | ⟨hok, h'⟩ <;> rw [h']
    · exact popStop_ends h.rsp (hw rfl)
    · rw [readBound_field, hok] at hs
      exact extractStart_ends (sink := .field k skip) hok h (hw rfl) hs

/-- What the duties of the outside world are. -/
theorem dutiesMet_iff {s : State} : dutiesMet s = true ↔
    HostReady s ∧ s.rst = false ∧ s.readsLeft ≤ s.src.length ∧ s.wordsLeft ≤ s.cmd.length := by
  simp only [dutiesMet, Bool.and_eq_true, decide_eq_true_eq, Bool.not_eq_true']
  exact ⟨fun ⟨⟨⟨⟨⟨h1, h2⟩, h3⟩, h4⟩, h5⟩, h6⟩ => ⟨⟨h1, h2, h3⟩, h4, h5, h6⟩,
    fun ⟨⟨h1, h2, h3⟩, h4, h5, h6⟩ => ⟨⟨⟨⟨⟨h1, h2⟩, h3⟩, h4⟩, h5⟩, h6⟩⟩

/-- Settles O54: each meaning reaches the boundary with the answers of its bound and the words it may have to consume. -/
theorem instructionEndsWhenDutiesAreMet : Obligations.InstructionEndsWhenDutiesAreMet := by
  intro i s hp _ hd hs hw
  obtain ⟨p, hp⟩ := Option.ne_none_iff_exists'.mp hp
  exact ⟨_, exec_eq_run hp i, instrRun_ends i (dutiesMet_iff.mp hd).1 hs fun h => hw (by rw [hp, h])⟩

/-- A command that waits ends with the answers and the words that are left to it. -/
theorem resume_ends {s : State} (hc : ControlInv s) (hd : dutiesMet s = true) : (resume s).work = .boundary := by
  obtain ⟨h, -, hreads, hwords⟩ := dutiesMet_iff.mp hd
  cases hw : s.work with
  | boundary => rw [resume, hw]; exact hw
  | extract sink size cs =>
    rw [resume_of_extract hw]
    refine extractRun_ends size (hc.sinkOk hw).2.1.plan h ?_ (by simpa [State.readsLeft, hw] using hreads)
    cases sink with
    | xbits => trivial
    | field k skip => simpa [SinkFed, State.wordsLeft, hw] using hwords
  | byteRead n =>
    rw [resume_of_byteRead hw]
    exact bytesLoop_ends h (by simpa [State.readsLeft, hw] using hreads)
  | byteBeat n b =>
    rw [State.readsLeft, hw] at hreads
    rw [ControlInv, controlOk, hw, Bool.and_eq_true, decide_eq_true_eq, decide_eq_true_eq] at hc
    rw [resume_of_byteBeat hw]
    rcases byteEmit_cases n b s with ⟨q, hq, h'⟩ | ⟨hq, -⟩
    · rw [h.out] at hq
      cases hq
      rw [h']
      refine bytesLoop_ends ⟨rfl, h.rsp, h.late⟩ ?_
      rw [State.setBc_bc, succ_toNat_of_lt hc.2]
      exact (by omega : n.toNat - (s.bc.toNat + 1) ≤ s.src.length)
    · rw [h.out] at hq; cases hq
  | slotBeat k value stop =>
    rw [resume_of_slotBeat hw]
    exact fieldSlot_ends _ _ _ _ h (by simpa [State.wordsLeft, hw] using hwords)
  | drain left r =>
    rw [resume_of_drain hw]
    exact drain_ends h.rsp (by simpa [State.wordsLeft, hw] using hwords)
  | respond r => rw [resume_of_respond hw]; exact respond_ends h.rsp

end Sys2Proof.Machine
end

section
/-!
PROOFS. A command that had to wait goes on as if it had had everything at once (spec/70_reset_and_hazards.md R169, R170, R173):
what each operation does with more supply is what it does without it, or the wait it came to, resumed.
-/

namespace Sys2Proof.Machine

/-! ### What P8 and XW have no use for -/

/-- An update of registers and inputs that P8 and XW neither read nor write. -/
structure Inert (g : State → State) : Prop where
  l : ∀ s, (g s).l = s.l
  v : ∀ s, (g s).v = s.v
  acc : ∀ s, (g s).acc = s.acc
  nacc : ∀ s, (g s).nacc = s.nacc
  src : ∀ s, (g s).src = s.src
  late : ∀ s, (g s).late = s.late
  setCursor : ∀ s l v, (g s).setCursor l v = g (s.setCursor l v)
  setStarted : ∀ s b, (g s).setStarted b = g (s.setStarted b)
  setAccum : ∀ s acc nacc, (g s).setAccum acc nacc = g (s.setAccum acc nacc)
  setSrc : ∀ s as, (g s).setSrc as = g (s.setSrc as)
  log : ∀ s e, (g s).log e = g (s.log e)

theorem setWork_inert (w : Work) : Inert (State.setWork · w) :=
  ⟨fun _ => rfl, fun _ => rfl, fun _ => rfl, fun _ => rfl, fun _ => rfl, fun _ => rfl, fun _ _ _ => rfl, fun _ _ => rfl,
    fun _ _ _ => rfl, fun _ _ => rfl, fun _ _ => rfl⟩

theorem setRspReady_inert (q : Ready) : Inert (State.setRspReady · q) :=
  ⟨fun _ => rfl, fun _ => rfl, fun _ => rfl, fun _ => rfl, fun _ => rfl, fun _ => rfl, fun _ _ _ => rfl, fun _ _ => rfl,
    fun _ _ _ => rfl, fun _ _ => rfl, fun _ _ => rfl⟩

theorem Inert.p8 {g : State → State} (hg : Inert g) (n : Nat) (s : State) :
    p8 n (g s) = ((p8 n s).1, g (p8 n s).2) := by
  by_cases hn : n ≤ s.v.toNat
  · rw [p8_of_le hn, p8_of_le (by rw [hg.v]; exact hn)]
    simp only [p8Serve, hg.l, hg.v, hg.setCursor]
  · have hn' : s.v.toNat < n := Nat.not_le.mp hn
    have hgn : (g s).v.toNat < n := by rw [hg.v]; exact hn'
    cases hr : srcRead s with
    | none =>
      have hr' : srcRead (g s) = none := by rw [srcRead_eq_none, hg.late, hg.src]; exact srcRead_eq_none.mp hr
      rw [p8_wait hr hn', p8_wait hr' hgn]
    | some out =>
      obtain ⟨a, t⟩ := out
      obtain ⟨hl, rest, hs, -⟩ := srcRead_eq_some hr
      rw [p8_of_answer hn' hl hs, p8_of_answer hgn (by rw [hg.late, hl]) (by rw [hg.src, hs]), hg.setSrc, hg.log]
      cases a with
      | byte b => simp only [p8Answer, p8Byte, State.pend, hg.l, hg.v, hg.setCursor, hg.setStarted]
      | eof => simp only [p8Answer, p8Eof, hg.l, hg.v, hg.setCursor]
      | err e => simp only [p8Answer, p8Err, hg.setCursor]

theorem Inert.accumulate {g : State → State} (hg : Inert g) (c : Nat) (b : Byte) (nv : Size) (s : State) :
    accumulate c b nv (g s) = g (accumulate c b nv s) := by
  simp only [Machine.accumulate, hg.acc, hg.nacc, hg.setAccum]

theorem Inert.xwLoop {g : State → State} (hg : Inert g) (cs : List Nat) (s : State) :
    xwLoop cs (g s) = ((xwLoop cs s).1, g (xwLoop cs s).2) := by
  induction cs generalizing s with
  | nil => simp only [Machine.xwLoop, hg.acc]
  | cons c cs ih =>
    rcases hp : Machine.p8 c s with ⟨r, t⟩
    have hgp := hg.p8 c s
    rw [hp] at hgp
    cases r with
    | ok value => simp only [Machine.xwLoop, hp, hgp, hg.accumulate, ih]
    | exhausted value nv => simp only [Machine.xwLoop, hp, hgp, hg.accumulate, hg.acc, hg.nacc]
    | sourceError e => simp only [Machine.xwLoop, hp, hgp]
    | wait => simp only [Machine.xwLoop, hp, hgp]

/-! ### An operation does not look at the place it is resumed from -/

theorem respond_setWork (r : Response) (w : Work) (s : State) : respond r (s.setWork w) = respond r s := by
  cases h : s.rspReady.take with
  | some q => rw [respond_of_take h, respond_of_take (s := s.setWork w) h]; rfl
  | none => simp only [respond, State.setWork_rspReady, h]; rfl

theorem drain_setWork (left : Nat) (r : Response) (w : Work) (s : State) :
    drain left r (s.setWork w) = drain left r s := by
  by_cases h : left ≤ s.cmd.length
  · rw [drain, drain, if_pos h, if_pos (by exact h)]
    exact respond_setWork r w (s.setCmd (s.cmd.drop left))
  · rw [drain, drain, if_neg h, if_neg (by exact h)]; rfl

theorem popNext_setWork (w : Work) (s : State) : popNext (s.setWork w) = popNext s := by
  by_cases h : s.fi < s.nf
  · rw [popNext, popNext, if_pos h, if_pos (by exact h)]; rfl
  · rw [popNext, popNext, if_neg h, if_neg (by exact h)]
    exact respond_setWork _ w s

theorem fieldEnd_setWork (stop : Option Size) (w : Work) (s : State) :
    fieldEnd stop (s.setWork w) = fieldEnd stop s := by
  cases stop with
  | none => exact popNext_setWork w (s.setFi (s.fi + 1))
  | some n => exact drain_setWork _ _ w s

theorem takeBeat_setWork (b : Beat) (w : Work) (s : State) :
    takeBeat b (s.setWork w) = (takeBeat b s).map (State.setWork · w) := by
  cases h : s.outReady.take with
  | some q => rw [takeBeat_of_take h, takeBeat_of_take (s := s.setWork w) h]; rfl
  | none => rw [takeBeat_eq_none.mpr h, (takeBeat_eq_none (s := s.setWork w)).mpr h]; rfl

theorem fieldSlot_setWork (k : Width) (skip : Bool) (value : Value) (stop : Option Size) (w : Work) (s : State) :
    fieldSlot k skip value stop (s.setWork w) = fieldSlot k skip value stop s := by
  cases skip with
  | true => exact fieldEnd_setWork stop w s
  | false =>
    cases hb : takeBeat (.slot s.sc k value) s with
    | some t =>
      have hb' : takeBeat (.slot s.sc k value) (s.setWork w) = some (t.setWork w) := by rw [takeBeat_setWork, hb]; rfl
      simp only [fieldSlot, hb, hb', Bool.false_eq_true, if_false, State.setWork_sc]
      exact fieldEnd_setWork stop w (t.setSc (t.sc + 1))
    | none =>
      have hb' : takeBeat (.slot s.sc k value) (s.setWork w) = none := by rw [takeBeat_setWork, hb]; rfl
      simp only [fieldSlot, hb, hb', Bool.false_eq_true, if_false, State.setWork_sc]
      rfl

theorem extractEnd_setWork (sink : Sink) (size : Size) (r : XwResult) (w : Work) (s : State) :
    extractEnd sink size r (s.setWork w) = extractEnd sink size r s := by
  cases sink with
  | xbits =>
    cases r with
    | ok | exhausted | sourceError => exact respond_setWork _ w s
    | wait cs => rfl
  | field k skip =>
    cases r with
    | ok value => exact fieldSlot_setWork _ _ _ _ w s
    | exhausted value nv => exact fieldSlot_setWork _ _ _ _ w s
    | sourceError e => exact drain_setWork _ _ w s
    | wait cs => rfl

theorem extractRun_setWork (sink : Sink) (size : Size) (cs : List Nat) (w : Work) (s : State) :
    extractRun sink size cs (s.setWork w) = extractRun sink size cs s := by
  simp only [extractRun, (setWork_inert w).xwLoop, extractEnd_setWork]

theorem bytesLoop_setWork (n : Count) (left : Nat) (w : Work) (s : State) :
    bytesLoop n left (s.setWork w) = bytesLoop n left s := by
  induction left generalizing s with
  | zero => exact respond_setWork _ w s
  | succ left ih =>
    have hp := (setWork_inert w).p8 8 s
    rcases h8 : p8 8 s with ⟨r, t⟩
    rw [h8] at hp
    cases r with
    | ok b =>
      cases hb : takeBeat (.byte t.bc b) t with
      | some u =>
        have hb' : takeBeat (.byte t.bc b) (t.setWork w) = some (u.setWork w) := by rw [takeBeat_setWork, hb]; rfl
        simp only [bytesLoop, hp, h8, State.setWork_bc, hb, hb']
        exact ih (u.setBc (u.bc + 1))
      | none =>
        have hb' : takeBeat (.byte t.bc b) (t.setWork w) = none := by rw [takeBeat_setWork, hb]; rfl
        simp only [bytesLoop, hp, h8, State.setWork_bc, hb, hb']
        rfl
    | exhausted value nv =>
      simp only [bytesLoop, hp, h8]
      exact respond_setWork _ w t
    | sourceError e =>
      simp only [bytesLoop, hp, h8]
      exact respond_setWork _ w t
    | wait =>
      simp only [bytesLoop, hp, h8]
      rfl

theorem byteEmit_setWork (n : Count) (b : Byte) (w : Work) (s : State) :
    byteEmit n b (s.setWork w) = byteEmit n b s := by
  rw [byteEmit, byteEmit, State.setWork_bc, takeBeat_setWork]
  cases takeBeat (.byte s.bc b) s with
  | some t => exact bytesLoop_setWork n _ w (t.setBc (t.bc + 1))
  | none => rfl

/-- A pass of the loop of XBYTES whose P8 ends OK goes on with the beat of its byte. -/
theorem bytesLoop_eq_byteEmit {n : Count} {left : Nat} {b : Byte} {s t : State} (h8 : p8 8 s = (.ok b, t))
    (hleft : left + 1 = n.toNat - s.bc.toNat) : bytesLoop n (left + 1) s = byteEmit n b t := by
  have hbc : t.bc = s.bc := (p8_reads_of_eq h8).bc
  have hlt : s.bc.toNat < n.toNat := by omega
  cases hb : takeBeat (.byte t.bc b) t with
  | some u =>
    have hleft' : left = n.toNat - (u.setBc (u.bc + 1)).bc.toNat := by
      rw [State.setBc_bc, (takeBeat_tail hb).bc, hbc, succ_toNat_of_lt hlt]; omega
    simp only [bytesLoop, h8, byteEmit, hb, bytesRun, ← hleft']
  | none => simp only [bytesLoop, h8, byteEmit, hb]

/-! ### The end without the supply, or the wait resumed with it -/

section
variable {as : List Answer} {ws : List Word} {out rsp : Ready}

/-- With the supply an operation leads to `u`, and without it to `t`: where `t` is at the boundary, `u` is `t` with the
supply left over, and where `t` waits, `u` is what comes of `t` once the supply is there. -/
def GoesOn (as : List Answer) (ws : List Word) (out rsp : Ready) (t u : State) : Prop :=
  (t.work = .boundary → u = t.supply as ws out rsp) ∧ (t.work ≠ .boundary → u = resume (t.supply as ws out rsp))

theorem GoesOn.of_boundary {t u : State} (hw : t.work = .boundary) (h : u = t.supply as ws out rsp) :
    GoesOn as ws out rsp t u :=
  ⟨fun _ => h, fun h' => absurd hw h'⟩

theorem GoesOn.of_waiting {t u : State} (hw : t.work ≠ .boundary) (h : u = resume (t.supply as ws out rsp)) :
    GoesOn as ws out rsp t u :=
  ⟨fun h' => absurd h' hw, fun _ => h⟩

theorem respond_goesOn (r : Response) (s : State) :
    GoesOn as ws out rsp (respond r s) (respond r (s.supply as ws out rsp)) := by
  rcases respond_cases r s with ⟨q, hq, h⟩ | ⟨-, h⟩
  · refine .of_boundary (by rw [h]; rfl) (respond_supply hq)
  · rw [h]
    exact .of_waiting (by simp) (respond_setWork r (.respond r) (s.supply as ws out rsp)).symm

theorem drain_goesOn (left : Nat) (r : Response) (s : State) :
    GoesOn as ws out rsp (drain left r s) (drain left r (s.supply as ws out rsp)) := by
  rcases drain_cases left r s with ⟨hle, h⟩ | ⟨hlt, h⟩ <;> rw [h]
  · have hcmd : (s.cmd ++ ws).drop left = s.cmd.drop left ++ ws := List.drop_append_of_le_length hle
    have hrun : drain left r (s.supply as ws out rsp) = respond r ((s.setCmd (s.cmd.drop left)).supply as ws out rsp) := by
      rw [drain, if_pos (by rw [State.supply_cmd, List.length_append]; omega), State.supply_cmd, hcmd]; rfl
    rw [hrun]
    exact respond_goesOn r _
  · refine .of_waiting (by simp) ?_
    have hres : resume (((s.setCmd []).setWork (.drain (left - s.cmd.length) r)).supply as ws out rsp) =
        drain (left - s.cmd.length) r ((s.setCmd []).supply as ws out rsp) :=
      (resume_of_drain rfl).trans (drain_setWork _ _ _ ((s.setCmd []).supply as ws out rsp))
    have hcmd : ((s.setCmd []).supply as ws out rsp).cmd = ws := rfl
    rw [hres, drain, drain, hcmd, State.supply_cmd, List.length_append]
    by_cases hle : left - s.cmd.length ≤ ws.length
    · rw [if_pos hle, if_pos (by omega), List.drop_append, List.drop_of_length_le (Nat.le_of_lt hlt), List.nil_append]
      rfl
    · rw [if_neg hle, if_neg (by omega), ← Nat.sub_sub]
      rfl

theorem popStop_goesOn (st : Status) (n : Size) (e : SrcErr) (s : State) :
    GoesOn as ws out rsp (popStop st n e s) (popStop st n e (s.supply as ws out rsp)) := drain_goesOn _ _ s

theorem popNext_goesOn (s : State) : GoesOn as ws out rsp (popNext s) (popNext (s.supply as ws out rsp)) := by
  rcases popNext_cases s with ⟨hlt, h⟩ | ⟨hge, h⟩ <;> rw [h]
  · refine .of_boundary rfl ?_
    rw [popNext, if_pos (by exact hlt)]; rfl
  · rw [popNext, if_neg (by exact hge)]
    exact respond_goesOn _ s

theorem fieldEnd_goesOn (stop : Option Size) (s : State) :
    GoesOn as ws out rsp (fieldEnd stop s) (fieldEnd stop (s.supply as ws out rsp)) := by
  cases stop with
  | none => exact popNext_goesOn (s.setFi (s.fi + 1))
  | some n => exact popStop_goesOn _ _ _ s

theorem fieldSlot_goesOn (k : Width) (skip : Bool) (value : Value) (stop : Option Size) (s : State) :
    GoesOn as ws out rsp (fieldSlot k skip value stop s) (fieldSlot k skip value stop (s.supply as ws out rsp)) := by
  cases skip with
  | true => exact fieldEnd_goesOn stop s
  | false =>
    cases hb : takeBeat (.slot s.sc k value) s with
    | some t =>
      have hb' : takeBeat (.slot s.sc k value) (s.supply as ws out rsp) = some (t.supply as ws out rsp) :=
        takeBeat_supply hb
      simp only [fieldSlot, hb, hb', Bool.false_eq_true, if_false, State.supply_sc]
      exact fieldEnd_goesOn stop (t.setSc (t.sc + 1))
    | none =>
      simp only [fieldSlot, hb, Bool.false_eq_true, if_false]
      refine .of_waiting (by simp) ?_
      exact (fieldSlot_setWork k false value stop (.slotBeat k value stop) (s.supply as ws out rsp)).symm

theorem extractEnd_goesOn (sink : Sink) (size : Size) {r : XwResult} (s : State) (hr : ∀ left, r ≠ .wait left) :
    GoesOn as ws out rsp (extractEnd sink size r s) (extractEnd sink size r (s.supply as ws out rsp)) := by
  cases r with
  | wait left => exact absurd rfl (hr left)
  | ok value =>
    cases sink with
    | xbits => exact respond_goesOn _ s
    | field k skip => exact fieldSlot_goesOn _ _ _ _ s
  | exhausted value nv =>
    cases sink with
    | xbits => exact respond_goesOn _ s
    | field k skip => exact fieldSlot_goesOn _ _ _ _ s
  | sourceError e =>
    cases sink with
    | xbits => exact respond_goesOn _ s
    | field k skip => exact popStop_goesOn _ _ _ s

theorem extractRun_goesOn (sink : Sink) (size : Size) (cs : List Nat) (s : State) :
    GoesOn as ws out rsp (extractRun sink size cs s) (extractRun sink size cs (s.supply as ws out rsp)) := by
  by_cases hw : ∃ left, (xwLoop cs s).1 = .wait left
  · obtain ⟨left, hw⟩ := hw
    have hx : xwLoop cs s = (.wait left, (xwLoop cs s).2) := Prod.ext hw rfl
    have hend : extractRun sink size cs s = (xwLoop cs s).2.setWork (.extract sink size left) := by
      rw [extractRun, hw]; cases sink <;> rfl
    rw [hend]
    refine .of_waiting (by simp) ?_
    have hres : resume (((xwLoop cs s).2.setWork (.extract sink size left)).supply as ws out rsp) =
        extractRun sink size left ((xwLoop cs s).2.supply as ws out rsp) :=
      (resume_of_extract rfl).trans (extractRun_setWork _ _ _ _ ((xwLoop cs s).2.supply as ws out rsp))
    rw [hres, extractRun, extractRun, xwLoop_resume hx]
  · have hx := xwLoop_supply (cs := cs) (s := s) (as := as) (ws := ws) (out := out) (rsp := rsp)
      fun left hl => hw ⟨left, hl⟩
    rw [extractRun, extractRun, hx]
    exact extractEnd_goesOn sink size _ fun left hl => hw ⟨left, hl⟩

theorem bytesLoop_goesOn {n : Count} {left : Nat} {s : State} (hleft : left = n.toNat - s.bc.toNat) :
    GoesOn as ws out rsp (bytesLoop n left s) (bytesLoop n left (s.supply as ws out rsp)) := by
  induction left generalizing s with
  | zero => exact respond_goesOn _ s
  | succ left ih =>
    have hlt : s.bc.toNat < n.toNat := by omega
    have hsup : ∀ {r t}, p8 8 s = (r, t) → r ≠ .wait → p8 8 (s.supply as ws out rsp) = (r, t.supply as ws out rsp) := by
      intro r t h8 hr
      have h := p8_supply (n := 8) (s := s) (as := as) (ws := ws) (out := out) (rsp := rsp) (by rw [h8]; exact hr)
      rwa [h8] at h
    rcases bytesLoop_cases n left s with ⟨b, t, u, h8, hb, h⟩ | ⟨b, t, h8, hq, h⟩ | ⟨value, nv, t, h8, h⟩ |
      ⟨e, t, h8, h⟩ | ⟨h8, h⟩ <;> rw [h]
    · have hb' : takeBeat (.byte t.bc b) (t.supply as ws out rsp) = some (u.supply as ws out rsp) := takeBeat_supply hb
      have hbc : u.bc = s.bc := (takeBeat_tail hb).bc.trans (p8_reads_of_eq h8).bc
      have hrun : bytesLoop n (left + 1) (s.supply as ws out rsp) =
          bytesLoop n left ((u.setBc (u.bc + 1)).supply as ws out rsp) := by
        simp only [bytesLoop, hsup h8 (by simp), State.supply_bc, hb']; rfl
      rw [hrun]
      exact ih (by rw [State.setBc_bc, hbc, succ_toNat_of_lt hlt]; omega)
    · refine .of_waiting (by simp) ?_
      have hres : resume ((t.setWork (.byteBeat n b)).supply as ws out rsp) =
          byteEmit n b ((t.supply as ws out rsp).setWork (.byteBeat n b)) := resume_of_byteBeat rfl
      rw [hres, byteEmit_setWork, bytesLoop_eq_byteEmit (hsup h8 (by simp)) hleft]
    · have hrun : bytesLoop n (left + 1) (s.supply as ws out rsp) = respond
          { status := .exhausted, value := value.setWidth 64, nvalid := nv, count := t.bc } (t.supply as ws out rsp) := by
        simp only [bytesLoop, hsup h8 (by simp)]; rfl
      rw [hrun]
      exact respond_goesOn _ t
    · have hrun : bytesLoop n (left + 1) (s.supply as ws out rsp) =
          respond { status := .sourceError, count := t.bc, srcerr := e } (t.supply as ws out rsp) := by
        simp only [bytesLoop, hsup h8 (by simp)]; rfl
      rw [hrun]
      exact respond_goesOn _ t
    · refine .of_waiting (by simp) ?_
      have hres : resume ((s.setWork (.byteRead n)).supply as ws out rsp) =
          bytesRun n ((s.supply as ws out rsp).setWork (.byteRead n)) := resume_of_byteRead rfl
      rw [hres, bytesRun, State.setWork_bc, State.supply_bc, ← hleft, bytesLoop_setWork]

theorem byteEmit_goesOn (n : Count) (b : Byte) (s : State) :
    GoesOn as ws out rsp (byteEmit n b s) (byteEmit n b (s.supply as ws out rsp)) := by
  cases hb : takeBeat (.byte s.bc b) s with
  | some t =>
    have hb' : takeBeat (.byte s.bc b) (s.supply as ws out rsp) = some (t.supply as ws out rsp) := takeBeat_supply hb
    simp only [byteEmit, State.supply_bc, hb, hb']
    exact bytesLoop_goesOn (s := t.setBc (t.bc + 1)) rfl
  | none =>
    have hwait : byteEmit n b s = s.setWork (.byteBeat n b) := by simp only [byteEmit, hb]
    have hres : resume ((s.setWork (.byteBeat n b)).supply as ws out rsp) =
        byteEmit n b ((s.supply as ws out rsp).setWork (.byteBeat n b)) := resume_of_byteBeat rfl
    rw [hwait]
    exact .of_waiting (by simp) (by rw [hres, byteEmit_setWork])

theorem extractStart_goesOn (k : Width) (sink : Sink) (size : Size) (s : State) :
    GoesOn as ws out rsp (extractStart k sink size s) (extractStart k sink size (s.supply as ws out rsp)) :=
  extractRun_goesOn sink size _ (s.setAccum 0 0)

theorem illegalRun_goesOn (p : Position) (s : State) :
    GoesOn as ws out rsp (illegalRun p s) (illegalRun p (s.supply as ws out rsp)) := by
  cases p
  · exact respond_goesOn _ s
  · exact popStop_goesOn _ _ _ s

theorem instrRun_goesOn (p : Position) (i : Instr) (s : State) :
    GoesOn as ws out rsp (instrRun p i s) (instrRun p i (s.supply as ws out rsp)) := by
  refine instrRun_cases (P := fun _ _ run => GoesOn as ws out rsp (run s) (run (s.supply as ws out rsp)))
    (fun p _ => illegalRun_goesOn p s) (fun k n => ?_) (fun n => ?_) (fun n => ?_) ?_ (fun k skip n => ?_)
    (fun _ _ _ => popStop_goesOn _ _ _ s) p i
  · cases hbad : sizeBad k n
    · simp only [xbits, hbad, Bool.false_eq_true, if_false]
      exact extractStart_goesOn k .xbits n (s.setMode .xbits)
    · simp only [xbits, hbad, if_true]
      exact respond_goesOn _ (s.setMode .xbits)
  · exact bytesLoop_goesOn (s := (s.setMode .xbytes).setBc 0) rfl
  · exact popNext_goesOn ((((s.setMode .pop).setNf n).setFi 0).setSc 0)
  · exact respond_goesOn _ ((s.setCursor 0 0).setStarted false)
  · cases hbad : sizeBad k n
    · simp only [fieldStep, hbad, Bool.false_eq_true, if_false]
      exact extractStart_goesOn k (.field k skip) n s
    · simp only [fieldStep, hbad, if_true]
      exact popStop_goesOn _ _ _ s

theorem resume_goesOn {s : State} (hb : s.work ≠ .boundary) :
    GoesOn as ws out rsp (resume s) (resume (s.supply as ws out rsp)) := by
  cases hw : s.work with
  | boundary => exact absurd hw hb
  | extract sink size cs =>
    rw [resume_of_extract hw, resume_of_extract (s := s.supply as ws out rsp) hw]
    exact extractRun_goesOn _ _ _ s
  | byteRead n =>
    rw [resume_of_byteRead hw, resume_of_byteRead (s := s.supply as ws out rsp) hw]
    exact bytesLoop_goesOn rfl
  | byteBeat n b =>
    rw [resume_of_byteBeat hw, resume_of_byteBeat (s := s.supply as ws out rsp) hw]
    exact byteEmit_goesOn n b s
  | slotBeat k value stop =>
    rw [resume_of_slotBeat hw, resume_of_slotBeat (s := s.supply as ws out rsp) hw]
    exact fieldSlot_goesOn _ _ _ _ s
  | drain left r =>
    rw [resume_of_drain hw, resume_of_drain (s := s.supply as ws out rsp) hw]
    exact drain_goesOn _ _ s
  | respond r =>
    rw [resume_of_respond hw, resume_of_respond (s := s.supply as ws out rsp) hw]
    exact respond_goesOn r s

end

/-! ### The step from a wait -/

theorem Flow.rst {s t : State} (h : Flow s t) : t.rst = s.rst := by
  induction h with
  | quiet h => exact h.rst
  | p8 n s => exact (p8_reads n s).rst
  | drop s => rcases dropLate_cases s with ⟨h, -⟩ | ⟨a, rest, -, -, h⟩ <;> rw [h]; rfl
  | clear s => rfl
  | trans _ _ ih₁ ih₂ => exact ih₂.trans ih₁

/-- No operation abandons a read. -/
theorem Flow.late_eq_false {s t : State} (h : Flow s t) (hl : s.late = false) : t.late = false := by
  induction h with
  | quiet h => rw [h.late, hl]
  | p8 n s => rw [(p8_reads n s).late, hl]
  | drop s => rw [dropLate_of_not_late hl, hl]
  | clear s => exact hl
  | trans _ _ ih₁ ih₂ => exact ih₂ (ih₁ hl)

/-- Where an operation has come to, the step with more supply is what the operation does with it. -/
theorem GoesOn.outcomes {as : List Answer} {ws : List Word} {out rsp : Ready} {s t u : State} (h : GoesOn as ws out rsp t u)
    (hf : Flow s t) (hr : s.rst = false) (hl : s.late = false) :
    (t.work = .boundary → .next u = (.next (t.supply as ws out rsp) : Host.Outcome State Fault Refusal)) ∧
      (t.work ≠ .boundary → .next u = step (t.supply as ws out rsp)) := by
  refine ⟨fun hw => by rw [h.1 hw], fun hw => ?_⟩
  have hl' : (t.supply as ws out rsp).late = false := hf.late_eq_false hl
  have hr' : (t.supply as ws out rsp).rst = false := hf.rst.trans hr
  rw [step_of_waiting hr' hw, dropLate_of_not_late hl', h.2 hw]

/-- Settles O55: with its duties met a command that waits runs to its end; and each operation, given more, comes to what it
came to without it and then resumed. -/
theorem waitingCommandEndsWhenDutiesAreMet : Obligations.WaitingCommandEndsWhenDutiesAreMet := by
  refine ⟨fun s hc hw hd => ?_, fun i s t as ws out rsp hr hl h => ?_, fun s t as ws out rsp hr hl hw h => ?_⟩
  · obtain ⟨hready, hr, -, -⟩ := dutiesMet_iff.mp hd
    exact ⟨_, by rw [step_of_waiting hr hw, dropLate_of_not_late hready.late], resume_ends hc hd⟩
  · obtain ⟨p, hp, rfl⟩ := exec_eq_next h
    rw [exec_eq_run (s := s.supply as ws out rsp) hp]
    exact (instrRun_goesOn p i s).outcomes (instrRun_flow p i s) hr hl
  · rw [step_of_waiting hr hw, dropLate_of_not_late hl] at h
    cases h
    have hl' : (s.supply as ws out rsp).late = false := hl
    rw [step_of_waiting (s := s.supply as ws out rsp) hr hw, dropLate_of_not_late hl']
    exact (resume_goesOn hw).outcomes (resume_flow s) hr hl

end Sys2Proof.Machine
end

section
/-!
PROOFS. The waits themselves: a silent source (spec/70_reset_and_hazards.md R169), and a host that does not take a beat or a
response (R170, spec/20_memory.md R53).
-/

namespace Sys2Proof.Machine

/-! ### The wait for a read -/

theorem setWork_self {s : State} {w : Work} (h : s.work = w) : s.setWork w = s := by
  rw [← h]; rfl

/-- An extraction that waits and still has no answer stays as it is. -/
theorem extractRun_of_srcRead_none {sink : Sink} {size : Size} {cs : List Nat} {s : State} (hw : s.work = .extract sink size cs)
    (hv : s.v.toNat < cs.headD 0) (hr : srcRead s = none) : extractRun sink size cs s = s := by
  cases cs with
  | nil => simp at hv
  | cons c cs =>
    have hlt : s.v.toNat < c := hv
    rw [extractRun, xwLoop, p8_wait hr hlt]
    cases sink <;> exact setWork_self hw

/-- An XBYTES that waits and still has no answer stays as it is. -/
theorem bytesRun_of_srcRead_none {n : Count} {s : State} (hw : s.work = .byteRead n) (hbc : s.bc < n)
    (hr : srcRead s = none) : bytesRun n s = s := by
  obtain ⟨left, hleft⟩ : ∃ left, n.toNat - s.bc.toNat = left + 1 :=
    Nat.exists_eq_succ_of_ne_zero (Nat.sub_ne_zero_of_lt hbc)
  rw [bytesRun, hleft, bytesLoop, p8_wait hr s.v.isLt]
  exact setWork_self hw

theorem waiting_of_awaitsRead {s : State} (h : s.awaitsRead = true) : s.work ≠ .boundary := by
  intro hw; simp [State.awaitsRead, hw] at h

/-- A step of a command that waits for a read, with no answer, changes nothing. -/
theorem step_of_silent_source {s : State} (hc : ControlInv s) (hr : s.rst = false) (ha : s.awaitsRead = true)
    (hs : s.src = []) : step s = .next s := by
  have hnone : srcRead s = none := srcRead_eq_none.mpr (.inr hs)
  have hdrop : dropLate s = s := by
    rcases dropLate_cases s with ⟨h, -⟩ | ⟨a, rest, -, hs', -⟩
    · exact h
    · rw [hs] at hs'; cases hs'
  rw [step_of_waiting hr (waiting_of_awaitsRead ha), hdrop]
  congr 1
  cases hw : s.work with
  | extract sink size cs => rw [resume_of_extract hw, extractRun_of_srcRead_none hw (hc.sinkOk hw).2.2 hnone]
  | byteRead n =>
    rw [ControlInv, controlOk, hw, Bool.and_eq_true, decide_eq_true_eq, decide_eq_true_eq] at hc
    rw [resume_of_byteRead hw, bytesRun_of_srcRead_none hw hc.2 hnone]
  | boundary | byteBeat | slotBeat | drain | respond => simp [State.awaitsRead, hw] at ha

/-- Settles O50: the wait is a fixed point of the step, and XBYTES and the fields come to it with the answers used up. -/
theorem silentSourceStallsTheCore : Obligations.SilentSourceStallsTheCore := by
  refine ⟨fun s hc hr ha hs => step_of_silent_source hc hr ha hs,
    fun n s bytes q hp hc hl hq hs hlt => exec_xbytes_wait hp hc hl hq hs hlt,
    fun n s hp hl hn => exec_xbytes_late hp hl hn, fun k skip w s bytes hp hc h2 hw hb => ?_⟩
  obtain ⟨-, hm, -⟩ := position_eq_descriptor.mp hp
  obtain ⟨t, cs, hx, hf, htr, hsrc⟩ := extractStart_wait (.field k skip) hc h2 hw hb
  exact ⟨t.setWork (.extract (.field k skip) w cs), cs, by rw [exec_field_legal hp (by omega) h2, hx], rfl,
    hf.mode.trans hm, hf.fi, hf.nf, hf.sc, position_of_waiting (by simp), rfl, htr, hsrc, hf.cmd⟩

/-! ### The wait for the host -/

theorem outBeat_isSome {s : State} (h : s.outBeat.isSome = true) :
    (∃ n b, s.work = .byteBeat n b) ∨ ∃ k value stop, s.work = .slotBeat k value stop := by
  cases hw : s.work with
  | byteBeat n b => exact .inl ⟨n, b, rfl⟩
  | slotBeat k value stop => exact .inr ⟨k, value, stop, rfl⟩
  | boundary | extract | byteRead | drain | respond => simp [State.outBeat, hw] at h

theorem rspData_isSome {s : State} (h : s.rspData.isSome = true) : ∃ r, s.work = .respond r := by
  cases hw : s.work with
  | respond r => exact ⟨r, rfl⟩
  | boundary | extract | byteRead | byteBeat | slotBeat | drain => simp [State.rspData, hw] at h

/-- A command that waits for the host to take a beat stays as it is. -/
theorem resume_of_beat_not_taken {s : State} (h : s.outBeat.isSome = true) (hq : s.outReady = .upTo 0) :
    resume s = s ∧ s.work ≠ .boundary := by
  have hnone : ∀ b, takeBeat b s = none := fun _ => takeBeat_eq_none.mpr (by rw [hq]; rfl)
  rcases outBeat_isSome h with ⟨n, b, hw⟩ | ⟨k, value, stop, hw⟩
  · refine ⟨?_, by simp [hw]⟩
    rw [resume_of_byteBeat hw]
    simp only [byteEmit, hnone]
    exact setWork_self hw
  · refine ⟨?_, by simp [hw]⟩
    rw [resume_of_slotBeat hw]
    simp only [fieldSlot, hnone, Bool.false_eq_true, if_false]
    exact setWork_self hw

theorem respond_of_not_taken {r : Response} {s : State} (hq : s.rspReady = .upTo 0) :
    respond r s = s.setWork (.respond r) := by
  simp [respond, hq, Ready.take]

/-- A data field whose slot the host does not take stops with the slot pending. -/
theorem fieldSlot_not_taken {k : Width} {value : Value} {stop : Option Size} {s : State} (hq : s.outReady = .upTo 0) :
    fieldSlot k false value stop s = s.setWork (.slotBeat k value stop) := by
  have hnone : takeBeat (.slot s.sc k value) s = none := takeBeat_eq_none.mpr (by rw [hq]; rfl)
  simp only [fieldSlot, hnone, Bool.false_eq_true, if_false]

/-! ### A response that is not taken -/

/-- `u` is `t` with its last response not taken: where `t` has ended its command, `u` holds the response pending. -/
def HoldsResponse (q : Ready) (t u : State) : Prop :=
  t.position = some .command → ∃ r, u.work = .respond r ∧
    t = { u with work := .boundary, mode := .idle, rspReady := q, trace := u.trace ++ [.response r] }

theorem holdsResponse_of_elsewhere {q : Ready} {t u : State} (h : t.position ≠ some .command) : HoldsResponse q t u :=
  fun hp => absurd hp h

/-- A command that waits inside has not ended. -/
theorem holdsResponse_of_waiting {q : Ready} {t u : State} (h : t.work ≠ .boundary) : HoldsResponse q t u :=
  holdsResponse_of_elsewhere (by simp [position_of_waiting h])

section
variable {q : Ready} {s : State}

/-- The same state with a host that takes no response. -/
def State.muted (s : State) : State := s.setRspReady (.upTo 0)

theorem respond_holds (hq : s.rspReady.take = some q) (r : Response) :
    HoldsResponse q (respond r s) (respond r s.muted) := by
  intro _
  rw [respond_eq_of_take hq, respond_of_not_taken (s := s.muted) rfl]
  exact ⟨r, rfl, rfl⟩

theorem drain_holds (hq : s.rspReady.take = some q) (left : Nat) (r : Response) :
    HoldsResponse q (drain left r s) (drain left r s.muted) := by
  rcases drain_cases left r s with ⟨hle, h⟩ | ⟨-, h⟩ <;> rw [h]
  · rw [drain, if_pos (by exact hle)]
    exact respond_holds (s := s.setCmd (s.cmd.drop left)) hq r
  · exact holdsResponse_of_waiting (by simp)

theorem popNext_holds (hq : s.rspReady.take = some q) (hm : s.mode = .pop) :
    HoldsResponse q (popNext s) (popNext s.muted) := by
  rcases popNext_cases s with ⟨-, h⟩ | ⟨hge, h⟩ <;> rw [h]
  · exact holdsResponse_of_elsewhere fun hp => absurd (position_eq_command.mp hp).2 (by simp [hm])
  · rw [popNext, if_neg (by exact hge)]
    exact respond_holds hq _

theorem fieldEnd_holds (hq : s.rspReady.take = some q) (hm : s.mode = .pop) (stop : Option Size) :
    HoldsResponse q (fieldEnd stop s) (fieldEnd stop s.muted) := by
  cases stop with
  | none => exact popNext_holds (s := s.setFi (s.fi + 1)) hq hm
  | some n => exact drain_holds hq _ _

theorem takeBeat_muted (b : Beat) (s : State) : takeBeat b s.muted = (takeBeat b s).map State.muted := by
  cases h : s.outReady.take with
  | some q => rw [takeBeat_of_take h, takeBeat_of_take (s := s.muted) h]; rfl
  | none => rw [takeBeat_eq_none.mpr h, (takeBeat_eq_none (s := s.muted)).mpr h]; rfl

theorem fieldSlot_holds (hq : s.rspReady.take = some q) (hm : s.mode = .pop) (k : Width) (skip : Bool) (value : Value)
    (stop : Option Size) : HoldsResponse q (fieldSlot k skip value stop s) (fieldSlot k skip value stop s.muted) := by
  cases skip with
  | true => exact fieldEnd_holds hq hm stop
  | false =>
    cases hb : takeBeat (.slot s.sc k value) s with
    | some t =>
      have hb' : takeBeat (.slot s.muted.sc k value) s.muted = some t.muted := by
        rw [takeBeat_muted]
        exact congrArg (Option.map State.muted) hb
      obtain ⟨q', -, rfl⟩ := takeBeat_eq_some hb
      simp only [fieldSlot, hb, hb', Bool.false_eq_true, if_false]
      exact fieldEnd_holds (s := ((s.setOutReady q').log (.beat (.slot s.sc k value))).setSc (s.sc + 1)) hq hm stop
    | none =>
      simp only [fieldSlot, hb, Bool.false_eq_true, if_false]
      exact holdsResponse_of_waiting (by simp)

/-- What an extraction is for does not depend on the host: a field is in a POPULATE. -/
def SinkMode (s : State) : Sink → Prop
  | .xbits => True
  | .field _ _ => s.mode = .pop

theorem extractRun_holds (hq : s.rspReady.take = some q) {sink : Sink} (hm : SinkMode s sink) (size : Size)
    (cs : List Nat) : HoldsResponse q (extractRun sink size cs s) (extractRun sink size cs s.muted) := by
  have hx := (setRspReady_inert (.upTo 0)).xwLoop cs s
  have hf := xwLoop_reads cs s
  have hq' : (xwLoop cs s).2.rspReady.take = some q := by rw [hf.rspReady, hq]
  rw [extractRun, extractRun, State.muted, hx]
  generalize xwLoop cs s = x at hf hq'
  obtain ⟨r, t⟩ := x
  cases r with
  | wait left => exact holdsResponse_of_waiting (by cases sink <;> simp [extractEnd])
  | ok value =>
    cases sink with
    | xbits => exact respond_holds hq' _
    | field k skip => exact fieldSlot_holds hq' (hf.mode.trans hm) _ _ _ _
  | exhausted value nv =>
    cases sink with
    | xbits => exact respond_holds hq' _
    | field k skip => exact fieldSlot_holds hq' (hf.mode.trans hm) _ _ _ _
  | sourceError e =>
    cases sink with
    | xbits => exact respond_holds hq' _
    | field k skip => exact drain_holds hq' _ _

theorem bytesLoop_holds (hq : s.rspReady.take = some q) (n : Count) (left : Nat) :
    HoldsResponse q (bytesLoop n left s) (bytesLoop n left s.muted) := by
  induction left generalizing s with
  | zero => exact respond_holds hq _
  | succ left ih =>
    have hp := (setRspReady_inert (.upTo 0)).p8 8 s
    rcases h8 : p8 8 s with ⟨r, t⟩
    have hq' : t.rspReady.take = some q := by rw [(p8_reads_of_eq h8).rspReady, hq]
    have hp' : p8 8 s.muted = (r, t.muted) := by rw [h8] at hp; exact hp
    cases r with
    | ok b =>
      cases hb : takeBeat (.byte t.bc b) t with
      | some u =>
        have hb' : takeBeat (.byte t.muted.bc b) t.muted = some u.muted := by
          rw [takeBeat_muted]; exact congrArg (Option.map State.muted) hb
        obtain ⟨q'', -, rfl⟩ := takeBeat_eq_some hb
        simp only [bytesLoop, hp', h8, hb, hb']
        exact ih (s := ((t.setOutReady q'').log (.beat (.byte t.bc b))).setBc (t.bc + 1)) hq'
      | none =>
        simp only [bytesLoop, h8, hb]
        exact holdsResponse_of_waiting (by simp)
    | exhausted value nv =>
      simp only [bytesLoop, hp', h8]
      exact respond_holds hq' _
    | sourceError e =>
      simp only [bytesLoop, hp', h8]
      exact respond_holds hq' _
    | wait =>
      simp only [bytesLoop, h8]
      exact holdsResponse_of_waiting (by simp)

/-- Every instruction that ends its command, ends it holding the same response where the host does not take it. -/
theorem instrRun_holds (hq : s.rspReady.take = some q) {p : Position} (hp : p = .descriptor → s.mode = .pop) (i : Instr) :
    HoldsResponse q (instrRun p i s) (instrRun p i s.muted) := by
  refine instrRun_cases (P := fun p _ run => (p = .descriptor → s.mode = .pop) → HoldsResponse q (run s) (run s.muted))
    (fun p _ _ => ?_) (fun k n _ => ?_) (fun n _ => bytesLoop_holds (s := (s.setMode .xbytes).setBc 0) hq n _)
    (fun n _ => popNext_holds (s := (((s.setMode .pop).setNf n).setFi 0).setSc 0) hq rfl)
    (fun _ => respond_holds (s := (s.setCursor 0 0).setStarted false) hq _) (fun k skip n hm => ?_)
    (fun _ _ _ _ => drain_holds hq _ _) p i hp
  · cases p
    · exact respond_holds hq _
    · exact drain_holds hq _ _
  · cases hbad : sizeBad k n
    · simp only [xbits, hbad, Bool.false_eq_true, if_false]
      exact extractRun_holds (s := (s.setMode .xbits).setAccum 0 0) (sink := .xbits) hq trivial n _
    · simp only [xbits, hbad, if_true]
      exact respond_holds (s := s.setMode .xbits) hq _
  · cases hbad : sizeBad k n
    · simp only [fieldStep, hbad, Bool.false_eq_true, if_false]
      exact extractRun_holds (s := s.setAccum 0 0) (sink := .field k skip) hq (hm rfl) n _
    · simp only [fieldStep, hbad, if_true]
      exact drain_holds hq _ _

end

/-- The bytes that XBYTES reads up to the one whose beat is not taken: their events, but for that beat. -/
theorem byteEvents_concat (s : State) (bytes : List Byte) (b : Byte) (rest : List Answer) (q : Ready) :
    byteEvents 0 s.pending (bytes ++ [b]) = byteEvents 0 s.pending bytes ++ [.read (.byte b)] ++
      [.beat (.byte (BitVec.ofNat 24 bytes.length) (joinedByte (xbytesDone s bytes rest q) b))] := by
  have h0 : (0 : Count) + BitVec.ofNat 24 bytes.length = BitVec.ofNat 24 bytes.length := BitVec.zero_add _
  rw [byteEvents_append, h0, joinedByte, xbytesDone_pending]
  simp [byteEvents, State.available]

/-- XBYTES whose host takes `m` beats, fewer than the bytes there are. -/
theorem xbytes_stops_at_beat {n : Count} {s : State} {bytes : List Byte} {rest : List Answer} {m : Nat}
    (hp : s.position = some .command) (hc : CursorInv s) (hl : s.late = false) (hq : s.outReady = .upTo m)
    (hm : m < n.toNat) (hs : s.src = bytes.map .byte ++ rest) (hb : bytes.length = m + 1) :
    ∃ b, (byteEvents 0 s.pending bytes).getLast? = some (.beat (.byte (BitVec.ofNat 24 m) b)) ∧
      exec (.xbytes n) s = .next
        { s.holding ((s.available bytes).drop (8 * bytes.length)) with
          started := true
          mode := .xbytes
          bc := BitVec.ofNat 24 m
          src := rest
          outReady := .upTo 0
          work := .byteBeat n b
          trace := s.trace ++ (byteEvents 0 s.pending bytes).dropLast } := by
  obtain ⟨front, b, rfl⟩ : ∃ front b, bytes = front ++ [b] :=
    ⟨bytes.dropLast, bytes.getLast (by rintro rfl; simp at hb), (List.dropLast_append_getLast _).symm⟩
  rw [List.length_append, List.length_singleton, Nat.add_right_cancel_iff] at hb
  subst hb
  rw [List.map_append, List.append_assoc] at hs
  have hexec := exec_xbytes_beat (rest := rest) hp hc hl hq hs hm
  have hev := byteEvents_concat s front b (.byte b :: rest) (.upTo 0)
  have hav : ((xbytesDone s front (.byte b :: rest) (.upTo 0)).pending ++ byteBits b).drop 8 =
      (s.available (front ++ [b])).drop (8 * (front ++ [b]).length) := by
    rw [xbytesDone_pending, State.available_append, List.flatMap_singleton, ← List.drop_append_of_le_length, List.drop_drop,
      List.length_append, List.length_singleton, Nat.mul_add]
    rw [State.available_length]; omega
  refine ⟨joinedByte (xbytesDone s front (.byte b :: rest) (.upTo 0)) b, by rw [hev]; exact List.getLast?_concat, ?_⟩
  rw [hexec, hev, List.dropLast_concat, afterByte, hav]
  congr 1
  apply State.ext <;> simp [xbytesDone, State.holding]

/-- Settles O51: a wait for the host is a fixed point of the step until the host takes the item, and the instructions come to
such a wait with all they did before it done. -/
theorem pendingOutputWaitsForTheHost : Obligations.PendingOutputWaitsForTheHost := by
  refine ⟨fun s hr hl => ⟨fun hb hq => ?_, fun hd hq => ?_, fun r q hw hq => ?_⟩,
    fun n s bytes rest m hp hc hl hq hm hs hb => xbytes_stops_at_beat hp hc hl hq hm hs hb,
    fun k w s bytes rest hp hc hl hq h1 h2 hs hb => ?_, fun k w s bytes rest hp hc hl hq h2 hs hb => ?_,
    fun i s t r q hq h hp hlast => ?_⟩
  · obtain ⟨hself, hw⟩ := resume_of_beat_not_taken hb hq
    rw [step_of_waiting hr hw, dropLate_of_not_late hl, hself]
  · obtain ⟨r, hw⟩ := rspData_isSome hd
    rw [step_of_waiting hr (by simp [hw]), dropLate_of_not_late hl, resume_of_respond hw, respond_of_not_taken hq,
      setWork_self hw]
  · rw [step_of_waiting hr (by simp [hw]), dropLate_of_not_late hl, resume_of_respond hw, respond_eq_of_take hq]
  · rw [exec_field_legal hp h1 h2, extractStart_ok (.field k false) hc hl h1 h2 hs hb, extractEnd, fieldSlot_not_taken]
    · rfl
    · exact hq
  · obtain ⟨acc, hx⟩ := extractStart_eof (.field k false) hc hl h2 hs hb
    refine ⟨acc, ?_⟩
    rw [exec_field_legal hp (by omega) h2, hx, extractEnd, fieldSlot_not_taken]
    · rfl
    · exact hq
  · obtain ⟨p, hpos, rfl⟩ := exec_eq_next h
    have hmode : p = .descriptor → s.mode = .pop := by
      rintro rfl; exact (position_eq_descriptor.mp hpos).2.1
    obtain ⟨r', hw, ht⟩ := instrRun_holds hq hmode i hp
    have hr : r' = r := by
      rw [ht] at hlast
      simpa using hlast
    subst hr
    exact ⟨_, exec_eq_run (s := s.muted) hpos i, hw, position_of_waiting (by simp [hw]), ht⟩

end Sys2Proof.Machine
end

section
/-!
PROOFS. The words, the codes and the ports of the encoding (spec/30_encoding.md R75, spec/60_exceptions.md R140,
spec/20_memory.md R52), and the assembler (spec/30_encoding.md R77, R78).
-/

namespace Sys2Proof.Machine

/-! ### Sample words, codes and the response -/

/-- Settles O6: each word is computed. -/
theorem sampleWordsDecode : Obligations.SampleWordsDecode :=
  ⟨rfl, rfl, rfl, rfl, rfl, rfl, rfl, rfl, rfl, rfl, rfl, rfl⟩

/-- Settles O58: each code and each answer is read off its definition. -/
theorem statusAndAnswerCodes : Obligations.StatusAndAnswerCodes :=
  ⟨⟨rfl, rfl, rfl, rfl, rfl, rfl, fun st => by cases st <;> decide⟩, fun _ _ => ⟨rfl, rfl, rfl, rfl⟩⟩

/-- Where a field lies in a word, once the fields below it are gone. -/
theorem extract_append_high {n m : Nat} (hi : BitVec n) (lo : BitVec m) (start len : Nat) :
    (hi ++ lo).extractLsb' (m + start) len = hi.extractLsb' start len := by
  rw [BitVec.extractLsb'_append_eq_of_le (Nat.le_add_right m start), Nat.add_sub_cancel_left]

theorem extract_append_field {n m k : Nat} (hi : BitVec n) (field : BitVec m) (lo : BitVec k) :
    (hi ++ field ++ lo).extractLsb' k m = field :=
  (extract_append_high (hi ++ field) lo 0 m).trans BitVec.extractLsb'_append_eq_right

section
variable (r : Response)

/-- The fields above bit 4 of a response: all but STATUS. -/
theorem Response.pack_extract_above_status (start len : Nat) : r.pack.extractLsb' (4 + start) len =
    (r.value ++ r.srcerr ++ r.count ++ r.field ++ 0#5 ++ r.nvalid).extractLsb' start len :=
  extract_append_high _ _ _ _

/-- The fields above bit 16 of a response: FIELD, COUNT, SRCERR and VALUE. -/
theorem Response.pack_extract_above_zeros (start len : Nat) : r.pack.extractLsb' (4 + (7 + (5 + start))) len =
    (r.value ++ r.srcerr ++ r.count ++ r.field).extractLsb' start len := by
  rw [Response.pack_extract_above_status, extract_append_high, extract_append_high]

/-- The fields above bit 56 of a response: SRCERR and VALUE. -/
theorem Response.pack_extract_above_count (start len : Nat) :
    r.pack.extractLsb' (4 + (7 + (5 + (16 + (24 + start))))) len = (r.value ++ r.srcerr).extractLsb' start len := by
  rw [Response.pack_extract_above_zeros, extract_append_high, extract_append_high]

end

/-- Settles O56: the fields are taken off the word from its low end, one by one. -/
theorem responseLayout : Obligations.ResponseLayout := by
  intro r
  refine ⟨BitVec.extractLsb'_append_eq_right, ?_, ?_, ?_, ?_, ?_, ?_⟩
  · rw [r.pack_extract_above_status 0, BitVec.extractLsb'_append_eq_right]
  · rw [r.pack_extract_above_status 7, extract_append_field]; rfl
  · rw [r.pack_extract_above_zeros 0, BitVec.extractLsb'_append_eq_right]
  · rw [r.pack_extract_above_zeros 16, extract_append_field]
  · rw [r.pack_extract_above_count 0, BitVec.extractLsb'_append_eq_right]
  · rw [r.pack_extract_above_count 8, BitVec.extractLsb'_append_eq_left]

/-! ### Lines and their words -/

/-- The instruction of a field line, of a supported kind or not. -/
theorem AsmLine.instr_field (kind : Fin 8) (w : Nat) (skip : Bool) : (AsmLine.field kind w skip).instr =
    if w < 128 then some (fieldInstr (BitVec.ofNat 3 kind.val) skip (BitVec.ofNat 7 w)) else none := by
  fin_cases kind <;> rfl

theorem AsmLine.expand_ne_word {l b : AsmLine} (hl : ∀ raw, l ≠ .word raw) (h : l.expand = some b) (raw : Word) :
    b ≠ .word raw := by
  rintro rfl
  cases l with
  | word w => exact hl w rfl
  | xbitsAuto n | pad w => obtain ⟨k, -, hk⟩ := Option.map_eq_some_iff.mp h; cases hk
  | xbits | xbytes | populate | field | clear | xbit | xbyte | skipLine => cases h

/-- An expansion is no pseudo-instruction. -/
theorem AsmLine.expand_expand {l b : AsmLine} (h : l.expand = some b) : b.expand = some b := by
  cases l with
  | xbitsAuto n | pad w => obtain ⟨k, -, rfl⟩ := Option.map_eq_some_iff.mp h; rfl
  | xbits | xbytes | populate | field | clear | word | xbit | xbyte | skipLine => cases h; rfl

theorem AsmLine.encodeLine_of_expand_none {l : AsmLine} (h : l.expand = none) : l.encodeLine = none := by
  rw [AsmLine.encodeLine, h]; rfl

/-- A line has the word of its expansion. -/
theorem AsmLine.encodeLine_of_expand {l b : AsmLine} (h : l.expand = some b) : l.encodeLine = b.encodeLine := by
  rw [AsmLine.encodeLine, AsmLine.encodeLine, h, AsmLine.expand_expand h]

/-- A line that is neither a pseudo-instruction nor a raw word has the word of its instruction. -/
theorem AsmLine.encodeLine_of_base {l : AsmLine} (h : l.expand = some l) (hl : ∀ raw, l ≠ .word raw) :
    l.encodeLine = l.instr.map encode := by
  rw [AsmLine.encodeLine, h, Option.bind_some]
  split
  · exact absurd rfl (hl _)
  · rfl

/-- The word of a line with one operand, from the number that its instruction's word is. -/
theorem AsmLine.encodeLine_eq_operandWord {l : AsmLine} {i : Instr} {base bound n : Nat} (h : l.expand = some l)
    (hl : ∀ raw, l ≠ .word raw) (hi : l.instr = if n < bound then some i else none)
    (hw : n < bound → (encode i).toNat = base + n) : l.encodeLine = operandWord base bound n := by
  rw [AsmLine.encodeLine_of_base h hl, hi, operandWord]
  split_ifs with hn
  · rw [← hw hn, BitVec.ofNat_toNat, BitVec.setWidth_eq]; rfl
  · rfl

theorem encodeLine_xbits (k : Width) (n : Nat) :
    (AsmLine.xbits k n).encodeLine = operandWord (0x10000000 + k.code * 2 ^ 24) 128 n :=
  AsmLine.encodeLine_eq_operandWord rfl (fun _ h => by cases h) rfl fun hn => by
    rw [encode_xbits_toNat, BitVec.toNat_ofNat, Nat.mod_eq_of_lt hn]

theorem encodeLine_xbytes (n : Nat) : (AsmLine.xbytes n).encodeLine = operandWord 0x20000000 16777216 n :=
  AsmLine.encodeLine_eq_operandWord rfl (fun _ h => by cases h) rfl fun hn => by
    rw [encode_xbytes_toNat, BitVec.toNat_ofNat, Nat.mod_eq_of_lt hn]

theorem encodeLine_populate (n : Nat) : (AsmLine.populate n).encodeLine = operandWord 0x30000000 65536 n :=
  AsmLine.encodeLine_eq_operandWord rfl (fun _ h => by cases h) rfl fun hn => by
    rw [encode_populate_toNat, BitVec.toNat_ofNat, Nat.mod_eq_of_lt hn]

theorem encodeLine_field (kind : Fin 8) (w : Nat) (skip : Bool) : (AsmLine.field kind w skip).encodeLine =
    operandWord (0xD0000000 + skip.toNat * 2 ^ 11 + kind.val * 2 ^ 8) 128 w :=
  AsmLine.encodeLine_eq_operandWord rfl (fun _ h => by cases h) (AsmLine.instr_field kind w skip) fun hw => by
    rw [encode_fieldInstr, encodeField_toNat, BitVec.toNat_ofNat, BitVec.toNat_ofNat, Nat.mod_eq_of_lt hw,
      Nat.mod_eq_of_lt kind.isLt]

/-- R78: a size takes the smallest width that holds it. -/
theorem smallestWidth_map_eq_some (f : Width → AsmLine) (n : Nat) (line : AsmLine) :
    (smallestWidth n).map f = some line ↔
      1 ≤ n ∧ n ≤ 8 ∧ line = f .w8 ∨ 9 ≤ n ∧ n ≤ 16 ∧ line = f .w16 ∨
        17 ≤ n ∧ n ≤ 32 ∧ line = f .w32 ∨ 33 ≤ n ∧ n ≤ 64 ∧ line = f .w64 := by
  unfold smallestWidth
  split_ifs <;> simp only [Option.map_none, Option.map_some, reduceCtorEq, Option.some.injEq] <;> grind

theorem AsmLine.instr_wellFormed {l : AsmLine} {i : Instr} (h : l.instr = some i) : i.WellFormed := by
  cases l with
  | xbits k n => obtain ⟨-, h⟩ := Option.ite_none_right_eq_some.mp h; cases h; cases k <;> rfl
  | xbytes n | populate n => obtain ⟨-, h⟩ := Option.ite_none_right_eq_some.mp h; cases h; rfl
  | field kind w skip =>
    rw [AsmLine.instr_field] at h
    obtain ⟨-, h⟩ := Option.ite_none_right_eq_some.mp h
    cases h
    exact fieldInstr_wellFormed _ _ _
  | clear => cases h; rfl
  | word | xbit | xbyte | xbitsAuto | skipLine | pad => cases h

/-- A line that has a word and is no raw word stands for an instruction, whose word it is. -/
theorem AsmLine.encodeLine_eq_some {l : AsmLine} {w : Word} (hl : ∀ raw, l ≠ .word raw) (h : l.encodeLine = some w) :
    ∃ base i, l.expand = some base ∧ base.instr = some i ∧ encode i = w := by
  cases hb : l.expand with
  | none => rw [AsmLine.encodeLine_of_expand_none hb] at h; cases h
  | some base =>
    rw [AsmLine.encodeLine_of_expand hb,
      AsmLine.encodeLine_of_base (AsmLine.expand_expand hb) (AsmLine.expand_ne_word hl hb)] at h
    obtain ⟨i, hi, hw⟩ := Option.map_eq_some_iff.mp h
    exact ⟨base, i, rfl, hi, hw⟩

/-- Settles O59: the word of a line is that of its instruction, which decodes to it by O7. -/
theorem assembledLinesDecode : Obligations.AssembledLinesDecode := by
  refine ⟨fun n => ⟨encodeLine_xbits .w8 n, encodeLine_xbits .w16 n, encodeLine_xbits .w32 n, encodeLine_xbits .w64 n,
    encodeLine_xbytes n, encodeLine_populate n⟩, encodeLine_field, rfl, fun _ => rfl, rfl, rfl,
    fun n => smallestWidth_map_eq_some (fun k => .xbits k n) n, fun _ _ => rfl,
    fun w => smallestWidth_map_eq_some (fun k => .field (Fin.ofNat 8 k.code) w true) w, fun line => ?_,
    fun line w hl h => ?_⟩
  · cases hb : line.expand with
    | none => exact AsmLine.encodeLine_of_expand_none hb
    | some base => exact AsmLine.encodeLine_of_expand hb
  · obtain ⟨base, i, hb, hi, rfl⟩ := AsmLine.encodeLine_eq_some hl h
    exact ⟨base, i, hb, hi, decodeOfEncodeIsTheInstruction i (AsmLine.instr_wellFormed hi)⟩

/-! ### The placing of field lines -/

theorem assembleFrom_zero_cons (l : AsmLine) (lines : List AsmLine) : assembleFrom 0 (l :: lines) =
    if l.isField then none else l.encodeLine.bind fun w => (assembleFrom l.fieldsAfter lines).map (w :: ·) := rfl

theorem assembleFrom_succ_cons (n : Nat) (l : AsmLine) (lines : List AsmLine) : assembleFrom (n + 1) (l :: lines) =
    if l.isField then l.encodeLine.bind fun w => (assembleFrom n lines).map (w :: ·) else none := rfl

theorem assembleFrom_succ_nil (n : Nat) : assembleFrom (n + 1) [] = none := rfl

/-- A line's word in front of the words of the lines after it. -/
theorem bind_map_cons_eq_some {o : Option Word} {tail : Option (List Word)} {ws : List Word} :
    (o.bind fun w => tail.map (w :: ·)) = some ws ↔ ∃ w rest, o = some w ∧ tail = some rest ∧ ws = w :: rest := by
  simp only [Option.bind_eq_some_iff, Option.map_eq_some_iff, eq_comm (a := ws)]
  constructor
  · rintro ⟨w, hw, rest, hrest, h⟩; exact ⟨w, rest, hw, hrest, h⟩
  · rintro ⟨w, rest, hw, hrest, h⟩; exact ⟨w, hw, rest, hrest, h⟩

/-- What follows the field lines of a POPULATE does not begin with a field line. -/
theorem head_not_field {lines : List AsmLine} {ws : List Word} (h : assemble lines = some ws) {l : AsmLine}
    (hl : lines.head? = some l) : l.isField = false := by
  cases lines with
  | nil => cases hl
  | cons l' lines =>
    cases hl
    rw [assemble, assembleFrom_zero_cons] at h
    cases hf : l.isField with
    | false => rfl
    | true => rw [hf] at h; cases h

/-- With `n` field lines to come: they are there, each has a word, and the rest is a program. -/
theorem assembleFrom_eq_some (n : Nat) (lines : List AsmLine) (ws : List Word) : assembleFrom n lines = some ws ↔
    n ≤ lines.length ∧ (∀ l ∈ lines.take n, l.isField = true) ∧
      ∃ ws₁ ws₂, (lines.take n).map AsmLine.encodeLine = ws₁.map some ∧ assemble (lines.drop n) = some ws₂ ∧
        ws = ws₁ ++ ws₂ := by
  induction n generalizing lines ws with
  | zero =>
    constructor
    · exact fun h => ⟨Nat.zero_le _, by simp, [], ws, rfl, h, rfl⟩
    · rintro ⟨-, -, ws₁, ws₂, h1, h2, rfl⟩
      obtain rfl := List.map_eq_nil_iff.mp h1.symm
      exact h2
  | succ n ih =>
    cases lines with
    | nil => simp [assembleFrom_succ_nil]
    | cons l lines =>
      rw [assembleFrom_succ_cons]
      cases hf : l.isField with
      | false => simp [hf]
      | true =>
        rw [if_pos rfl, bind_map_cons_eq_some]
        simp only [List.length_cons, Nat.add_le_add_iff_right, List.take_succ_cons, List.drop_succ_cons,
          List.forall_mem_cons, hf, true_and, List.map_cons, ih]
        constructor
        · rintro ⟨w, rest, hw, ⟨hlen, hall, ws₁, ws₂, h1, h2, rfl⟩, rfl⟩
          exact ⟨hlen, hall, w :: ws₁, ws₂, by rw [hw, h1, List.map_cons], h2, rfl⟩
        · rintro ⟨hlen, hall, ws₁, ws₂, h1, h2, rfl⟩
          obtain ⟨w, ws₁, rfl⟩ : ∃ w ws, ws₁ = w :: ws := by
            cases ws₁ with
            | nil => cases h1
            | cons w ws => exact ⟨w, ws, rfl⟩
          obtain ⟨hw, h1⟩ := List.cons.inj h1
          exact ⟨w, ws₁ ++ ws₂, hw, ⟨hlen, hall, ws₁, ws₂, h1, h2, rfl⟩, rfl⟩

theorem assemble_populate_eq_some (n : Nat) (lines : List AsmLine) (ws : List Word) :
    assemble (.populate n :: lines) = some ws ↔
      ∃ head rest, (AsmLine.populate n).encodeLine = some head ∧ assembleFrom n lines = some rest ∧ ws = head :: rest :=
  bind_map_cons_eq_some

/-- A line that no field line follows. -/
theorem AsmLine.fieldsAfter_eq_zero {l : AsmLine} (h : ∀ n, l ≠ .populate n) : l.fieldsAfter = 0 := by
  cases l with
  | populate n => exact absurd rfl (h n)
  | xbits | xbytes | field | clear | word | xbit | xbyte | xbitsAuto | skipLine | pad => rfl

/-- Settles O60: `assembleFrom_eq_some` says what the lines after a `populate` must be. -/
theorem assemblerPlacesFieldLines : Obligations.AssemblerPlacesFieldLines := by
  refine ⟨rfl, fun l lines h => ?_, fun l lines hf hp => ?_, fun n lines ws => ?_, fun _ => rfl,
    fun fields ws hf hlen hw => ?_⟩
  · rw [assemble, assembleFrom_zero_cons, if_pos h]
  · rw [assemble, assembleFrom_zero_cons, hf, AsmLine.fieldsAfter_eq_zero hp]; rfl
  · rw [assemble_populate_eq_some]
    simp only [assembleFrom_eq_some]
    constructor
    · rintro ⟨head, rest, hh, ⟨hlen, hall, ws₁, ws₂, h1, h2, rfl⟩, rfl⟩
      exact ⟨hlen, hall, fun l hl => head_not_field h2 hl, head, ws₁, ws₂, hh, h1, h2, rfl⟩
    · rintro ⟨hlen, hall, -, head, ws₁, ws₂, hh, h1, h2, rfl⟩
      exact ⟨head, ws₁ ++ ws₂, hh, ⟨hlen, hall, ws₁, ws₂, h1, h2, rfl⟩, rfl⟩
  · rw [recordLines, assemble_populate_eq_some]
    refine ⟨_, ws, (encodeLine_populate _).trans (if_pos hlen), (assembleFrom_eq_some _ _ _).mpr ⟨le_rfl, ?_, ?_⟩, rfl⟩
    · rwa [List.take_length]
    · exact ⟨ws, [], by rwa [List.take_length], by rw [List.drop_length]; rfl, (List.append_nil ws).symm⟩

end Sys2Proof.Machine
end

section
/-!
PROOFS. Hidden state (spec/10_state.md R25, R31): S is read by nothing, and a scratch register by nothing outside the command that
uses it. Two states that differ in them alone are one state with two choices of its hidden registers.
-/

namespace Sys2Proof.Machine

/-- S and the scratch registers. -/
structure Hidden where
  started : Bool
  fi : FieldIndex
  nf : FieldIndex
  sc : FieldIndex
  bc : Count
  acc : Value
  nacc : Size

/-- The state with its hidden registers given. -/
def State.withHidden (s : State) (h : Hidden) : State :=
  { s with started := h.started, fi := h.fi, nf := h.nf, sc := h.sc, bc := h.bc, acc := h.acc, nacc := h.nacc }

/-- Two states with the same observed part are one state with two choices of its hidden registers. -/
theorem exists_withHidden {s t : State} (h : s.observed = t.observed) : ∃ x, t = s.withHidden x := by
  refine ⟨⟨t.started, t.fi, t.nf, t.sc, t.bc, t.acc, t.nacc⟩, ?_⟩
  simp only [State.observed, Prod.mk.injEq] at h
  obtain ⟨hl, hv, hmode, hwork, hrst, hcmd, hsrc, hlate, hout, hrsp, htrace⟩ := h
  apply State.ext <;> simp only [State.withHidden, *]

/-- The given registers of a POPULATE are the state's own. -/
def FieldsAgree (s : State) (x : Hidden) : Prop := s.fi = x.fi ∧ s.nf = x.nf ∧ s.sc = x.sc

/-- The given accumulator is the state's own. -/
def AccumAgree (s : State) (x : Hidden) : Prop := s.acc = x.acc ∧ s.nacc = x.nacc

theorem Alike.refl (s : State) : Alike s s := by
  refine ⟨rfl, ?_⟩
  cases s.work with
  | extract sink size cs => cases sink <;> simp
  | boundary | byteRead | byteBeat | slotBeat | drain | respond => simp

/-! ### Streams, responses and the end of a POPULATE -/

theorem takeBeat_withHidden (b : Beat) (s : State) (x : Hidden) :
    takeBeat b (s.withHidden x) = (takeBeat b s).map (State.withHidden · x) := by
  cases h : s.outReady.take with
  | some q => rw [takeBeat_of_take h, takeBeat_of_take (s := s.withHidden x) h]; rfl
  | none => rw [takeBeat_eq_none.mpr h, (takeBeat_eq_none (s := s.withHidden x)).mpr h]; rfl

theorem dropLate_withHidden (s : State) (x : Hidden) : dropLate (s.withHidden x) = (dropLate s).withHidden x := by
  rcases dropLate_cases s with ⟨hs, hno⟩ | ⟨a, rest, hl, hsrc, hs⟩
  · rw [hs]
    rcases dropLate_cases (s.withHidden x) with ⟨ht, -⟩ | ⟨a, rest, hl, hsrc, -⟩
    · exact ht
    · have hl' : s.late = true := hl
      have hsrc' : s.src = a :: rest := hsrc
      simp [hl', hsrc'] at hno
  · rw [hs, dropLate_of_late (s := s.withHidden x) hl hsrc]; rfl

/-- A response ends what the hidden registers are for. -/
theorem respond_alike (r : Response) (s : State) (x : Hidden) : Alike (respond r s) (respond r (s.withHidden x)) := by
  cases h : s.rspReady.take with
  | some q =>
    rw [respond_of_take h, respond_of_take (s := s.withHidden x) h]
    exact ⟨rfl, fun hm => by cases hm⟩
  | none =>
    have hs : respond r s = s.setWork (.respond r) := by simp only [respond, h]
    have ht : respond r (s.withHidden x) = (s.withHidden x).setWork (.respond r) := by
      simp only [respond, show (s.withHidden x).rspReady.take = none from h]
    rw [hs, ht]
    exact ⟨rfl, trivial⟩

theorem drain_alike (left : Nat) (r : Response) (s : State) (x : Hidden) :
    Alike (drain left r s) (drain left r (s.withHidden x)) := by
  by_cases h : left ≤ s.cmd.length
  · rw [drain, drain, if_pos h, if_pos (by exact h)]
    exact respond_alike r (s.setCmd (s.cmd.drop left)) x
  · rw [drain, drain, if_neg h, if_neg (by exact h)]
    exact ⟨rfl, trivial⟩

section
variable {s : State} {x : Hidden}

theorem popStop_alike (hf : FieldsAgree s x) (st : Status) (nv : Size) (e : SrcErr) :
    Alike (popStop st nv e s) (popStop st nv e (s.withHidden x)) := by
  obtain ⟨hfi, hnf, hsc⟩ := hf
  simp only [popStop, State.withHidden, hfi, hnf, hsc]
  exact drain_alike _ _ s x

theorem popNext_alike (hf : FieldsAgree s x) : Alike (popNext s) (popNext (s.withHidden x)) := by
  obtain ⟨hfi, hnf, hsc⟩ := hf
  have hlt : (s.withHidden x).fi < (s.withHidden x).nf ↔ s.fi < s.nf := by rw [hfi, hnf]; rfl
  by_cases h : s.fi < s.nf
  · rw [popNext, popNext, if_pos h, if_pos (hlt.mpr h)]
    exact ⟨rfl, fun _ => ⟨hfi, hnf, hsc⟩⟩
  · rw [popNext, popNext, if_neg h, if_neg (mt hlt.mp h), hfi, hsc]
    exact respond_alike _ s x

theorem fieldEnd_alike (hf : FieldsAgree s x) (stop : Option Size) :
    Alike (fieldEnd stop s) (fieldEnd stop (s.withHidden x)) := by
  cases stop with
  | none =>
    obtain ⟨hfi, hnf, hsc⟩ := hf
    exact popNext_alike (s := s.setFi (s.fi + 1)) (x := { x with fi := x.fi + 1 }) ⟨by rw [← hfi]; rfl, hnf, hsc⟩
  | some n => exact popStop_alike hf _ _ _

theorem fieldSlot_alike (hf : FieldsAgree s x) (k : Width) (skip : Bool) (value : Value) (stop : Option Size) :
    Alike (fieldSlot k skip value stop s) (fieldSlot k skip value stop (s.withHidden x)) := by
  cases skip with
  | true => exact fieldEnd_alike hf stop
  | false =>
    obtain ⟨hfi, hnf, hsc⟩ := hf
    have hb' := takeBeat_withHidden (.slot s.sc k value) s x
    simp only [fieldSlot, Bool.false_eq_true, if_false, show (s.withHidden x).sc = s.sc from hsc.symm, hb']
    cases hb : takeBeat (.slot s.sc k value) s with
    | none => exact ⟨rfl, hfi, hnf, hsc⟩
    | some t =>
      obtain ⟨q, -, rfl⟩ := takeBeat_eq_some hb
      exact fieldEnd_alike (s := ((s.setOutReady q).log (.beat (.slot s.sc k value))).setSc (s.sc + 1))
        (x := { x with sc := x.sc + 1 }) ⟨hfi, hnf, by rw [← hsc]; rfl⟩ stop

/-! ### Extractions -/

/-- P8 leaves the accumulator alone. -/
theorem p8_accum (n : Nat) (s : State) : (p8 n s).2.acc = s.acc ∧ (p8 n s).2.nacc = s.nacc := by
  rcases p8_cases n s with ⟨-, h⟩ | ⟨-, ⟨b, rest, -, -, h⟩ | ⟨rest, -, -, h⟩ | ⟨e, rest, -, -, h⟩ | ⟨-, h⟩⟩ <;> rw [h] <;>
    exact ⟨rfl, rfl⟩

/-- P8 writes S and reads no hidden register. -/
theorem p8_withHidden (n : Nat) (s : State) (x : Hidden) :
    ∃ b, p8 n (s.withHidden x) = ((p8 n s).1, (p8 n s).2.withHidden { x with started := b }) := by
  by_cases hn : n ≤ s.v.toNat
  · exact ⟨x.started, by rw [p8_of_le hn, p8_of_le (s := s.withHidden x) hn]; rfl⟩
  · have hlt : s.v.toNat < n := Nat.not_le.mp hn
    cases hr : srcRead s with
    | none =>
      have hr' : srcRead (s.withHidden x) = none := srcRead_eq_none.mpr (srcRead_eq_none (s := s).mp hr)
      exact ⟨x.started, by rw [p8_wait hr hlt, p8_wait hr' hlt]⟩
    | some out =>
      obtain ⟨a, t⟩ := out
      obtain ⟨hl, rest, hs, -⟩ := srcRead_eq_some hr
      rw [p8_of_answer hlt hl hs, p8_of_answer (s := s.withHidden x) hlt hl hs]
      cases a with
      | byte b => exact ⟨true, rfl⟩
      | eof | err => exact ⟨x.started, rfl⟩

/-- XW reads no hidden register but ACC and NACC, and of them it writes S, ACC and NACC. -/
theorem xwLoop_withHidden (ha : AccumAgree s x) (cs : List Nat) :
    ∃ b, xwLoop cs (s.withHidden x) = ((xwLoop cs s).1, (xwLoop cs s).2.withHidden
      { x with started := b, acc := (xwLoop cs s).2.acc, nacc := (xwLoop cs s).2.nacc }) := by
  induction cs generalizing s x with
  | nil =>
    obtain ⟨started, fi, nf, sc, bc, acc, nacc⟩ := x
    obtain ⟨hacc, hnacc⟩ := ha
    cases hacc
    cases hnacc
    exact ⟨started, rfl⟩
  | cons c cs ih =>
    obtain ⟨b, hp'⟩ := p8_withHidden c s x
    have hframe := p8_accum c s
    rcases hp : p8 c s with ⟨r, t⟩
    rw [hp] at hp' hframe
    have hacc : x.acc = t.acc := ha.1.symm.trans hframe.1.symm
    have hnacc : x.nacc = t.nacc := ha.2.symm.trans hframe.2.symm
    obtain ⟨started, fi, nf, sc, bc, acc, nacc⟩ := x
    cases hacc
    cases hnacc
    cases r with
    | ok value =>
      simp only [xwLoop, hp, hp']
      exact ih (s := accumulate c value (BitVec.ofNat 7 c) t) (x := Hidden.mk b fi nf sc bc _ _) ⟨rfl, rfl⟩
    | exhausted value nv => exact ⟨b, by simp only [xwLoop, hp, hp']; rfl⟩
    | sourceError e => exact ⟨b, by simp only [xwLoop, hp, hp']⟩
    | wait => exact ⟨b, by simp only [xwLoop, hp, hp']⟩

/-- The registers that the end of an extraction uses are the state's own. -/
def SinkAgrees (s : State) (x : Hidden) : Sink → Prop
  | .xbits => True
  | .field _ _ => FieldsAgree s x

theorem extractEnd_alike {sink : Sink} (hs : SinkAgrees s x sink) (ha : AccumAgree s x) (size : Size) (r : XwResult) :
    Alike (extractEnd sink size r s) (extractEnd sink size r (s.withHidden x)) := by
  obtain ⟨hacc, hnacc⟩ := ha
  cases sink with
  | xbits =>
    cases r with
    | ok | exhausted | sourceError => exact respond_alike _ s x
    | wait cs => exact ⟨rfl, hacc, hnacc⟩
  | field k skip =>
    cases r with
    | ok | exhausted => exact fieldSlot_alike hs _ _ _ _
    | sourceError e => exact popStop_alike hs _ _ _
    | wait cs => exact ⟨rfl, hacc, hnacc, hs⟩

theorem extractRun_alike {sink : Sink} (hs : SinkAgrees s x sink) (ha : AccumAgree s x) (size : Size) (cs : List Nat) :
    Alike (extractRun sink size cs s) (extractRun sink size cs (s.withHidden x)) := by
  obtain ⟨b, hx⟩ := xwLoop_withHidden ha cs
  have hframe := xwLoop_reads cs s
  rw [extractRun, extractRun, hx]
  refine extractEnd_alike ?_ ⟨rfl, rfl⟩ size _
  cases sink with
  | xbits => trivial
  | field k skip =>
    obtain ⟨hfi, hnf, hsc⟩ := hs
    exact ⟨hframe.fi.trans hfi, hframe.nf.trans hnf, hframe.sc.trans hsc⟩

/-! ### XBYTES -/

theorem bytesLoop_alike (hbc : s.bc = x.bc) (n : Count) (left : Nat) :
    Alike (bytesLoop n left s) (bytesLoop n left (s.withHidden x)) := by
  induction left generalizing s x with
  | zero => exact respond_alike _ s x
  | succ left ih =>
    obtain ⟨b, hp'⟩ := p8_withHidden 8 s x
    have hframe := p8_reads 8 s
    rcases hp : p8 8 s with ⟨r, t⟩
    rw [hp] at hp' hframe
    have hbc' : t.bc = x.bc := hframe.bc.trans hbc
    cases r with
    | ok value =>
      have hb' := takeBeat_withHidden (.byte t.bc value) t { x with started := b }
      simp only [bytesLoop, hp, hp', show (t.withHidden { x with started := b }).bc = t.bc from hbc'.symm, hb']
      cases hb : takeBeat (.byte t.bc value) t with
      | none => exact ⟨rfl, hbc'⟩
      | some u =>
        obtain ⟨q, -, rfl⟩ := takeBeat_eq_some hb
        exact ih (s := ((t.setOutReady q).log (.beat (.byte t.bc value))).setBc (t.bc + 1))
          (x := { x with started := b, bc := x.bc + 1 }) (by rw [← hbc']; rfl)
    | exhausted value nv =>
      simp only [bytesLoop, hp, hp', show (t.withHidden { x with started := b }).bc = t.bc from hbc'.symm]
      exact respond_alike _ t _
    | sourceError e =>
      simp only [bytesLoop, hp, hp', show (t.withHidden { x with started := b }).bc = t.bc from hbc'.symm]
      exact respond_alike _ t _
    | wait =>
      simp only [bytesLoop, hp, hp']
      exact ⟨rfl, hbc'⟩

theorem bytesRun_alike (hbc : s.bc = x.bc) (n : Count) : Alike (bytesRun n s) (bytesRun n (s.withHidden x)) := by
  rw [bytesRun, bytesRun, show (s.withHidden x).bc = s.bc from hbc.symm]
  exact bytesLoop_alike hbc n _

theorem byteEmit_alike (hbc : s.bc = x.bc) (n : Count) (b : Byte) :
    Alike (byteEmit n b s) (byteEmit n b (s.withHidden x)) := by
  have hb' := takeBeat_withHidden (.byte s.bc b) s x
  simp only [byteEmit, show (s.withHidden x).bc = s.bc from hbc.symm, hb']
  cases hb : takeBeat (.byte s.bc b) s with
  | none => exact ⟨rfl, hbc⟩
  | some t =>
    obtain ⟨q, -, rfl⟩ := takeBeat_eq_some hb
    exact bytesRun_alike (s := ((s.setOutReady q).log (.beat (.byte s.bc b))).setBc (s.bc + 1))
      (x := { x with bc := x.bc + 1 }) (by rw [← hbc]; rfl) n

/-! ### Instructions and steps -/

/-- An instruction that starts reads no hidden register, but for a descriptor, which reads those of its POPULATE. -/
theorem instrRun_alike {p : Position} (hf : p = .descriptor → FieldsAgree s x) (i : Instr) :
    Alike (instrRun p i s) (instrRun p i (s.withHidden x)) := by
  refine instrRun_cases
    (P := fun p _ run => (p = .descriptor → FieldsAgree s x) → Alike (run s) (run (s.withHidden x)))
    (fun p _ hf => ?_) (fun k n _ => ?_)
    (fun n _ => bytesRun_alike (s := (s.setMode .xbytes).setBc 0) (x := { x with bc := 0 }) rfl n)
    (fun n _ => popNext_alike (s := (((s.setMode .pop).setNf n).setFi 0).setSc 0)
      (x := { x with nf := n, fi := 0, sc := 0 }) ⟨rfl, rfl, rfl⟩)
    (fun _ => respond_alike okResponse ((s.setCursor 0 0).setStarted false) { x with started := false })
    (fun k skip n hf => ?_) (fun _ _ _ hf => popStop_alike (hf rfl) _ _ _) p i hf
  · cases p
    · exact respond_alike illegalResponse s x
    · exact popStop_alike (hf rfl) _ _ _
  · rw [xbits, xbits]
    split
    · exact respond_alike sizeOverflowResponse (s.setMode .xbits) x
    · exact extractRun_alike (s := (s.setMode .xbits).setAccum 0 0) (x := { x with acc := 0, nacc := 0 })
        (sink := .xbits) trivial ⟨rfl, rfl⟩ n _
  · rw [fieldStep, fieldStep]
    split
    · exact popStop_alike (hf rfl) _ _ _
    · exact extractRun_alike (s := s.setAccum 0 0) (x := { x with acc := 0, nacc := 0 })
        (sink := .field k skip) (hf rfl) ⟨rfl, rfl⟩ n _

theorem wordRun_alike {p : Position} (hf : p = .descriptor → FieldsAgree s x) (w : Word) :
    Alike (wordRun p w s) (wordRun p w (s.withHidden x)) := by
  refine wordRun_cases (P := fun run => Alike (run s) (run (s.withHidden x))) ?_ (fun i => instrRun_alike hf i) w
  cases p
  · exact respond_alike illegalResponse s x
  · exact popStop_alike (hf rfl) _ _ _

/-- A command in progress reads only the hidden registers it has a use for. -/
theorem resume_alike (h : Alike s (s.withHidden x)) : Alike (resume s) (resume (s.withHidden x)) := by
  obtain ⟨-, hfit⟩ := id h
  cases hw : s.work with
  | boundary =>
    have hw' : (s.withHidden x).work = .boundary := hw
    simpa only [resume, hw, hw'] using h
  | extract sink size cs =>
    rw [resume_of_extract hw, resume_of_extract (s := s.withHidden x) hw]
    rw [hw] at hfit
    cases sink with
    | xbits => exact extractRun_alike (sink := .xbits) trivial hfit size cs
    | field k skip =>
      obtain ⟨hacc, hnacc, hf⟩ := hfit
      exact extractRun_alike (sink := .field k skip) hf ⟨hacc, hnacc⟩ size cs
  | byteRead n =>
    rw [resume_of_byteRead hw, resume_of_byteRead (s := s.withHidden x) hw]
    rw [hw] at hfit
    exact bytesRun_alike hfit n
  | byteBeat n b =>
    rw [resume_of_byteBeat hw, resume_of_byteBeat (s := s.withHidden x) hw]
    rw [hw] at hfit
    exact byteEmit_alike hfit n b
  | slotBeat k value stop =>
    rw [resume_of_slotBeat hw, resume_of_slotBeat (s := s.withHidden x) hw]
    rw [hw] at hfit
    exact fieldSlot_alike hfit k false value stop
  | drain left r =>
    rw [resume_of_drain hw, resume_of_drain (s := s.withHidden x) hw]
    exact drain_alike left r s x
  | respond r =>
    rw [resume_of_respond hw, resume_of_respond (s := s.withHidden x) hw]
    exact respond_alike r s x

/-- At a descriptor position the registers of the POPULATE are in use. -/
theorem Alike.fieldsAgree (h : Alike s (s.withHidden x)) (hp : s.position = some .descriptor) : FieldsAgree s x := by
  obtain ⟨hw, hm, -⟩ := position_eq_descriptor.mp hp
  obtain ⟨-, hfit⟩ := h
  rw [hw] at hfit
  exact hfit hm

theorem Alike.position (h : Alike s (s.withHidden x)) {p : Position} (hp : s.position = some p) :
    (s.withHidden x).position = some p := by
  cases p with
  | command => exact position_eq_command.mpr (position_eq_command (s := s).mp hp)
  | descriptor =>
    obtain ⟨hfi, hnf, -⟩ := h.fieldsAgree hp
    obtain ⟨hw, hm, hlt⟩ := position_eq_descriptor.mp hp
    rw [hfi, hnf] at hlt
    exact position_eq_descriptor.mpr ⟨hw, hm, hlt⟩

theorem Alike.dropLate (h : Alike s (s.withHidden x)) :
    Alike (Machine.dropLate s) ((Machine.dropLate s).withHidden x) := by
  rcases dropLate_cases s with ⟨hs, -⟩ | ⟨a, rest, -, -, hs⟩ <;> rw [hs]
  · exact h
  · obtain ⟨-, hfit⟩ := h
    exact ⟨rfl, hfit⟩

end

theorem FieldsAgree.consumed {s : State} {x : Hidden} (h : FieldsAgree s x) (p : Position) (w : Word) (rest : List Word) :
    FieldsAgree (s.consumed p w rest) x := by
  cases p <;> exact h

/-- Settles O53: each form of the step reads, of the hidden registers, those in use only. -/
theorem hiddenStateIsUnobservable : Obligations.HiddenStateIsUnobservable := by
  intro s t s' h hstep
  obtain ⟨x, rfl⟩ := exists_withHidden h.1
  have hd := dropLate_withHidden s x
  by_cases hr : s.rst = true
  · rw [step_of_rst hr] at hstep
    cases hstep
    exact ⟨_, step_of_rst (s := s.withHidden x) hr, Alike.refl _⟩
  · have hr : s.rst = false := Bool.eq_false_iff.mpr hr
    rcases step_forms hr hstep with ⟨p, w, rest, hp, hc, rfl⟩ | ⟨p, hp, hc, rfl⟩ | ⟨hw, rfl⟩
    · refine ⟨_, step_of_word (s := s.withHidden x) hr (h.position hp) hc, ?_⟩
      have hrun := wordRun_alike (s := (dropLate s).consumed p w rest) (x := x) (p := p)
        (fun hpd => (h.dropLate.fieldsAgree (by rw [dropLate_position, hp, hpd])).consumed p w rest) w
      rw [hd]
      cases p <;> exact hrun
    · exact ⟨_, step_of_no_word (s := s.withHidden x) hr (h.position hp) hc, by rw [hd]; exact h.dropLate⟩
    · exact ⟨_, step_of_waiting (s := s.withHidden x) hr hw, by rw [hd]; exact resume_alike h.dropLate⟩

end Sys2Proof.Machine
end
